-- ==== Sys2Proof/Word.lean ====
section
/-! DEFINITION. Word.lean: the bit-vector types the spec's values have (00_scope R7, R10). -/

namespace Sys2Proof

/-- One byte of system memory or of a packet (R60). -/
abbrev Byte := BitVec 8

/-- A two-byte value: a sample as the scanline buffer holds it, or a control word (R36, R91). -/
abbrev Half := BitVec 16

/-- The value of one of the sixteen 32-bit registers, or a cursor (R21, R35). -/
abbrev Word := BitVec 32

end Sys2Proof
end

