-- ==== Sys2Proof/Config.lean ====
section
/-! DEFINITION. Config.lean: what the hardware or its platform fixes (00_scope R6), and the free values. -/

namespace Sys2Proof

/-- SCAN_POLICY, the literal-run scan rule: `doc` is R153, the default, `upstream` is R154 (D20). -/
inductive ScanPolicy where
  | doc
  | upstream
deriving DecidableEq, Repr

/-- The kind of a bus access: `R` or `W` of the predicate `admits` (R6). -/
inductive AccessKind where
  | read
  | write
deriving DecidableEq, Repr

/-- A range of system addresses, `lo ≤ a < hi`, at which the bus refuses the block's accesses of one kind. -/
structure Hole where
  kind : AccessKind
  lo : Nat
  hi : Nat
deriving DecidableEq, Repr

/-- The open parameters of R6 that one instance has. Every predicate `admits` on the finite address
space is the complement of some list of holes. DESIGN CHOICE (log 5), safe: a statement about every
state is a statement about every platform. -/
structure Platform where
  /-- REG_BASE, the system address of the register window (R21). -/
  regBase : Word
  /-- The ranges at which `admits` is false (R9). -/
  holes : List Hole
  /-- SCAN_POLICY (R154). -/
  policy : ScanPolicy
deriving DecidableEq, Repr

/-- Who makes the next step: the host or the sequencer (R20), or the reset input (R291). -/
inductive Turn where
  | host
  | sequencer
  | reset
deriving DecidableEq, Repr, Inhabited

namespace Config

/-- HDR, the size of the container header in bytes (R6). -/
def headerBytes : Nat := 512

/-- MAX_DIM, the largest width and height (R6). -/
def maxDim : Nat := 65535

/-- MAX_RUN, the largest packet count (R6). -/
def maxRun : Nat := 127

/-- ENTRY, the size of a table entry in bytes (R6). -/
def entryBytes : Nat := 4

/-- The number of system addresses, `2 ^ ADDR_W` (R6). -/
def addressSpace : Nat := 2 ^ 32

/-- The size of the register window in bytes (R60). -/
def windowBytes : Nat := 64

/-- FREE VALUE (log 7): the byte at an address whose byte is "any value" (R76, R77, R270, R292; I1, I2, I3,
I16), by the step counter and the address. -/
opaque freeByte : Nat → Nat → Byte

/-- FREE VALUE (log 12): how many bytes the micro-operation that a reset abandons had written (R292, I16),
by the step counter. -/
opaque freeCount : Nat → Nat

/-- FREE VALUE (log 1): who makes the next step where the known order of turns has ended (R20, I22). -/
opaque freeTurn : Nat → Turn

end Config

end Sys2Proof
end

