-- ==== Sys2Proof/Syntax.lean ====
section
/-! DEFINITION. Syntax.lean: the registers, the packet vocabulary and the instructions, one constructor
per row of spec/opcode_table.json (30_encoding R102). -/

namespace Sys2Proof

/-- The sixteen registers of the window, in the order of their offsets (R21). -/
inductive Reg where
  | ctrl
  | status
  | format
  | width
  | height
  | srcBase
  | srcStride
  | outBase
  | outCap
  | intEn
  | reqSizeLo
  | reqSizeHi
  | resultSize
  | errInfo
  | reserved38
  | reserved3C
deriving DecidableEq, Repr

/-- `B`, the width of every element of a run's packets: one byte or two (R90, R97). -/
inductive ElementWidth where
  | one
  | two
deriving DecidableEq, Repr

/-- The two packet kinds, field `K` of the control value: repeat and literal (R91). -/
inductive RunKind where
  | rep
  | lit
deriving DecidableEq, Repr

/-- The byte order of a two-byte sample in the source, `SE` (R66, R120). -/
inductive ByteOrder where
  | le
  | be
deriving DecidableEq, Repr

/-- One packet the emitter writes, or one register access the host makes (R2, R102). `n` is the run
count `N` of the control value. -/
inductive Instr where
  /-- REP8: control byte and one sample byte (R92). -/
  | rep8 (n : BitVec 7) (v : Byte)
  /-- LIT8: control byte and `n` sample bytes (R93). -/
  | lit8 (n : BitVec 7) (vs : List Byte)
  /-- REP16: control word and one two-byte sample (R92). -/
  | rep16 (n : BitVec 7) (v : Half)
  /-- LIT16: control word and `n` two-byte samples (R93). -/
  | lit16 (n : BitVec 7) (vs : List Half)
  /-- REG_READ: word read of a register (R240). -/
  | regRead (r : Reg)
  /-- CMD_START: CTRL write with bit 0 set; `clear` is bit 1 (R243, R245). -/
  | cmdStart (clear : Bool)
  /-- CMD_CLEAR: CTRL write with bits 1:0 = 10 (R244). -/
  | cmdClear
  /-- CTRL_NOP: CTRL write with bits 1:0 = 00 (R22). -/
  | ctrlNop
  /-- REG_WRITE: word write at a register other than CTRL (R241). -/
  | regWrite (r : Reg) (v : Word)
deriving DecidableEq, Repr

end Sys2Proof
end

