-- ==== Sys2Proof/WellFormed.lean ====
section
/-! DEFINITION. WellFormed.lean: the instructions the encodings of the spec can stand for (30_encoding
R92, R93, R96, R102). -/

namespace Sys2Proof

/-- A repeat count is 2..127: "repeat runs require length ≥ 2" (R92). -/
def repeatCountOk (n : BitVec 7) : Bool := 2 ≤ n.toNat

/-- A literal packet carries as many samples as its count, which is 1..127 (R93). -/
def literalCountOk (n : BitVec 7) (samples : Nat) : Bool := 1 ≤ n.toNat && samples == n.toNat

/-- A write at CTRL is a command, never a REG_WRITE (R241). -/
def writeTargetOk (r : Reg) : Bool := r != .ctrl

/-- The instruction is one that an encoding stands for. -/
def Instr.wf : Instr → Bool
  | .rep8 n _ => repeatCountOk n
  | .lit8 n vs => literalCountOk n vs.length
  | .rep16 n _ => repeatCountOk n
  | .lit16 n vs => literalCountOk n vs.length
  | .regRead _ => true
  | .cmdStart _ => true
  | .cmdClear => true
  | .ctrlNop => true
  | .regWrite r _ => writeTargetOk r

end Sys2Proof
end

