-- ==== Sys2Proof/Decode.lean ====
section
/-! DEFINITION. Decode.lean: byte orders, register offsets, the 39-bit access key, the decoder and the
encoder, from the tables of 30_encoding (R90-R102). -/

namespace Sys2Proof

/-- `be16(v)`: most significant byte first (R7, R65). -/
def be16 (v : Half) : List Byte := [v.extractLsb' 8 8, v.extractLsb' 0 8]

/-- `be32(v)`: most significant byte first (R7, R68). -/
def be32 (v : Word) : List Byte :=
  [v.extractLsb' 24 8, v.extractLsb' 16 8, v.extractLsb' 8 8, v.extractLsb' 0 8]

/-- `put(v)`, the bytes of one element (R94, R170). -/
def put (w : ElementWidth) (v : Half) : List Byte :=
  match w with
  | .one => [v.extractLsb' 0 8]
  | .two => be16 v

/-- Field `K` of the control value (R91). -/
def RunKind.bit : RunKind → BitVec 1
  | .rep => 0
  | .lit => 1

/-- The control value `c = (K << 7) | N` (R95). -/
def controlValue (k : RunKind) (n : BitVec 7) : Byte := k.bit ++ n

/-- `ctrl(kind, n)`, the bytes of one control element: `put` of the zero-extended control value (R171). -/
def ctrl (w : ElementWidth) (k : RunKind) (n : BitVec 7) : List Byte :=
  put w ((controlValue k n).setWidth 16)

/-- The three encoding formats of the opcode table (R102). -/
inductive Format where
  /-- A packet whose elements are one byte wide. -/
  | ctrl8
  /-- A packet whose elements are two bytes wide. -/
  | ctrl16
  /-- A register access, as its 39-bit key. -/
  | mmio32
deriving DecidableEq, Repr

/-- Why bytes are no instruction. -/
inductive DecodeError where
  /-- The bytes end before the packet or the key does. -/
  | truncated
  /-- Control values 0x00 and 0x01: a repeat count below 2 (R96). -/
  | repeatCount
  /-- Control value 0x80: a literal packet of no sample (R96). -/
  | emptyLiteral
  /-- A control word with bits 15:8 not all 0 (R96). -/
  | controlHighByte
  /-- A register offset that is no multiple of 4 (R70). -/
  | misalignedOffset
  /-- A bit above bit 38 of the key is set (R102). -/
  | keyTooWide
deriving DecidableEq, Repr

/-- The offset of a register from REG_BASE (R21). -/
def Reg.offset : Reg → BitVec 6
  | .ctrl => 0x00
  | .status => 0x04
  | .format => 0x08
  | .width => 0x0C
  | .height => 0x10
  | .srcBase => 0x14
  | .srcStride => 0x18
  | .outBase => 0x1C
  | .outCap => 0x20
  | .intEn => 0x24
  | .reqSizeLo => 0x28
  | .reqSizeHi => 0x2C
  | .resultSize => 0x30
  | .errInfo => 0x34
  | .reserved38 => 0x38
  | .reserved3C => 0x3C

/-- The register at an offset; none at an offset that is no multiple of 4 (R21, R70). -/
def Reg.ofOffset (off : BitVec 6) : Option Reg :=
  match off.toNat with
  | 0x00 => some .ctrl
  | 0x04 => some .status
  | 0x08 => some .format
  | 0x0C => some .width
  | 0x10 => some .height
  | 0x14 => some .srcBase
  | 0x18 => some .srcStride
  | 0x1C => some .outBase
  | 0x20 => some .outCap
  | 0x24 => some .intEn
  | 0x28 => some .reqSizeLo
  | 0x2C => some .reqSizeHi
  | 0x30 => some .resultSize
  | 0x34 => some .errInfo
  | 0x38 => some .reserved38
  | 0x3C => some .reserved3C
  | _ => none

/-- The 39-bit key of a register access: bit 38 set for a write, bits 37:32 the offset, bits 31:0 the
data, 0 for a read (R102). -/
def accessKey (isWrite : Bool) (off : BitVec 6) (data : Word) : BitVec 39 :=
  BitVec.ofBool isWrite ++ off ++ (if isWrite then data else 0)

/-- Bits 37:32 of a key: the register offset (R102). -/
def keyOffset (key : BitVec 39) : BitVec 6 := key.extractLsb' 32 6

/-- Bits 31:0 of a key: the write data (R102). -/
def keyData (key : BitVec 39) : Word := key.extractLsb' 0 32

/-- A row of the opcode table accepts a key: the masked bits are the match value (R102). -/
def rowAccepts (mask pattern key : BitVec 39) : Bool := key &&& mask == pattern

/-- The instruction of a key: the `mmio32` rows in table order, the first that matches wins (R102).
CMD_START also reads data bit 1, since a write with both bits performs CLEAR first (R245). -/
def decodeKey (key : BitVec 39) : Except DecodeError Instr :=
  if rowAccepts 0x4000000000 0x0000000000 key then
    match Reg.ofOffset (keyOffset key) with
    | some r => .ok (.regRead r)
    | none => .error .misalignedOffset
  else if rowAccepts 0x7F00000001 0x4000000001 key then .ok (.cmdStart (key.getLsbD 1))
  else if rowAccepts 0x7F00000002 0x4000000002 key then .ok .cmdClear
  else if rowAccepts 0x7F00000003 0x4000000000 key then .ok .ctrlNop
  else
    match Reg.ofOffset (keyOffset key) with
    | some r => .ok (.regWrite r (keyData key))
    | none => .error .misalignedOffset

/-- The first `n` two-byte big-endian elements of the bytes, and the bytes after them. -/
def takeHalves : Nat → List Byte → Option (List Half × List Byte)
  | 0, bs => some ([], bs)
  | n + 1, hi :: lo :: bs =>
    match takeHalves n bs with
    | some (vs, rest) => some ((hi ++ lo) :: vs, rest)
    | none => none
  | _ + 1, _ => none

/-- The first `n` bytes, and the bytes after them. -/
def takeBytes : Nat → List Byte → Option (List Byte × List Byte)
  | 0, bs => some ([], bs)
  | n + 1, b :: bs =>
    match takeBytes n bs with
    | some (vs, rest) => some (b :: vs, rest)
    | none => none
  | _ + 1, [] => none

/-- A packet of one-byte elements (R91-R93), and the bytes after it. -/
def decodePacket8 : List Byte → Except DecodeError (Instr × List Byte)
  | [] => .error .truncated
  | c :: bs =>
    let n := c.extractLsb' 0 7
    if c.getLsbD 7 then
      if n = 0 then .error .emptyLiteral
      else
        match takeBytes n.toNat bs with
        | some (vs, rest) => .ok (.lit8 n vs, rest)
        | none => .error .truncated
    else if n.toNat < 2 then .error .repeatCount
    else
      match bs with
      | v :: rest => .ok (.rep8 n v, rest)
      | [] => .error .truncated

/-- A packet of two-byte elements (R91-R93), and the bytes after it. -/
def decodePacket16 : List Byte → Except DecodeError (Instr × List Byte)
  | hi :: c :: bs =>
    let n := c.extractLsb' 0 7
    if hi ≠ 0 then .error .controlHighByte
    else if c.getLsbD 7 then
      if n = 0 then .error .emptyLiteral
      else
        match takeHalves n.toNat bs with
        | some (vs, rest) => .ok (.lit16 n vs, rest)
        | none => .error .truncated
    else if n.toNat < 2 then .error .repeatCount
    else
      match bs with
      | v1 :: v0 :: rest => .ok (.rep16 n (v1 ++ v0), rest)
      | _ => .error .truncated
  | _ => .error .truncated

/-- The bytes of a key, least significant first. DESIGN CHOICE (log 20), safe: a key never stands in
memory; only the opcode table's bit numbering uses these bytes. -/
def keyBytes (key : BitVec 39) : List Byte :=
  [key.extractLsb' 0 8, key.extractLsb' 8 8, key.extractLsb' 16 8, key.extractLsb' 24 8,
    (key.extractLsb' 32 7).setWidth 8]

/-- A register access from the bytes of its key, and the bytes after them. -/
def decodeAccess : List Byte → Except DecodeError (Instr × List Byte)
  | b0 :: b1 :: b2 :: b3 :: b4 :: rest =>
    if b4.getLsbD 7 then .error .keyTooWide
    else
      match decodeKey ((b4.setWidth 7) ++ b3 ++ b2 ++ b1 ++ b0) with
      | .ok i => .ok (i, rest)
      | .error e => .error e
  | _ => .error .truncated

/-- The decoder: one instruction of a format from the front of the bytes, and the bytes after it. -/
def decode (f : Format) (bs : List Byte) : Except DecodeError (Instr × List Byte) :=
  match f with
  | .ctrl8 => decodePacket8 bs
  | .ctrl16 => decodePacket16 bs
  | .mmio32 => decodeAccess bs

/-- The data word of a CTRL write that issues the commands given (R100). -/
def commandData (start clear : Bool) : Word :=
  (0 : BitVec 30) ++ (BitVec.ofBool clear ++ BitVec.ofBool start)

/-- The format an instruction is encoded in (R102). -/
def formatOf : Instr → Format
  | .rep8 _ _ => .ctrl8
  | .lit8 _ _ => .ctrl8
  | .rep16 _ _ => .ctrl16
  | .lit16 _ _ => .ctrl16
  | .regRead _ => .mmio32
  | .cmdStart _ => .mmio32
  | .cmdClear => .mmio32
  | .ctrlNop => .mmio32
  | .regWrite _ _ => .mmio32

/-- The encoder: the bytes of a well-formed instruction, lowest address first (R92-R94, R100). -/
def encode : Instr → List Byte
  | .rep8 n v => ctrl .one .rep n ++ put .one (v.setWidth 16)
  | .lit8 n vs => ctrl .one .lit n ++ vs.flatMap (fun v => put .one (v.setWidth 16))
  | .rep16 n v => ctrl .two .rep n ++ put .two v
  | .lit16 n vs => ctrl .two .lit n ++ vs.flatMap (put .two)
  | .regRead r => keyBytes (accessKey false r.offset 0)
  | .cmdStart c => keyBytes (accessKey true Reg.ctrl.offset (commandData true c))
  | .cmdClear => keyBytes (accessKey true Reg.ctrl.offset (commandData false true))
  | .ctrlNop => keyBytes (accessKey true Reg.ctrl.offset (commandData false false))
  | .regWrite r v => keyBytes (accessKey true r.offset v)

/-- The format of a row of the opcode table, by how many bits it gives the row (log 20). -/
def tableFormat (nbits : Nat) : Format :=
  if nbits ≤ 8 then .ctrl8 else if nbits ≤ 16 then .ctrl16 else .mmio32

/-- The bytes of `w`, least significant first. -/
def littleEndian : Nat → Nat → List Byte
  | 0, _ => []
  | k + 1, w => BitVec.ofNat 8 w :: littleEndian k (w / 256)

/-- A table word as the hardware lays it out, with every sample element after it zero: a control byte,
a big-endian control word, or the bytes of a key. -/
def tableBytes (nbits w : Nat) : List Byte :=
  match tableFormat nbits with
  | .ctrl8 => littleEndian 1 w ++ List.replicate Config.maxRun 0
  | .ctrl16 => be16 (BitVec.ofNat 16 w) ++ List.replicate (2 * Config.maxRun) 0
  | .mmio32 => littleEndian 5 w

/-- The instruction the decoder reads from a word of the opcode table. -/
def decodeTableWord (nbits w : Nat) : Option Instr :=
  match decode (tableFormat nbits) (tableBytes nbits w) with
  | .ok (i, _) => some i
  | .error _ => none

end Sys2Proof
end

