-- ==== Sys2Proof/Machine/State.lean ====
section
/-! DEFINITION. Machine/State.lean: everything the spec gives the block, as plain data, with the system
memory, the platform's parameters and the outside world beside it; the reset state; how a step can stop. -/

namespace Sys2Proof.Machine

/-- The sequencer's phase; each names the next micro-operation (R33). -/
inductive Phase where
  | idle
  | check
  | rowBegin
  | fetch
  | emit
  | rowEnd
  | finish
deriving DecidableEq, Repr

/-- The five error kinds a run can end with (R261). -/
inductive ErrorKind where
  | unsupportedFormat
  | unsupportedResolution
  | outOfMemory
  | outputBufferExhausted
  | busError
deriving DecidableEq, Repr

/-- The configuration registers: the read-write registers of the window (R21). -/
structure ConfigRegs where
  /-- FORMAT.FMT (R24). -/
  fmt : BitVec 4
  /-- WIDTH (R25). -/
  width : Word
  /-- HEIGHT (R25). -/
  height : Word
  /-- SRC_BASE (R26). -/
  srcBase : Word
  /-- SRC_STRIDE (R26). -/
  srcStride : Word
  /-- OUT_BASE (R27). -/
  outBase : Word
  /-- OUT_CAP (R27). -/
  outCap : Word
  /-- INTEN.EN (R28). -/
  intEn : Bool
deriving DecidableEq, Repr

/-- The stored bits of STATUS; BUSY is derived from the phase (R23). -/
structure Status where
  done : Bool
  err : Bool
  keyframe : Bool
  errCode : BitVec 4
deriving DecidableEq, Repr

/-- The geometry CHECK latches: `D`, `B`, `SE` and `T` (R34). -/
structure Geometry where
  /-- `D`, the number of channels. -/
  depth : Nat
  /-- `B`, the bytes per sample. -/
  width : ElementWidth
  /-- `SE`, the source byte order; meaningless when `B = 1`. -/
  order : ByteOrder
  /-- `T`, the size of each table in bytes. -/
  tableBytes : Nat
deriving DecidableEq, Repr

/-- System memory, byte-addressed (R60): the (address, byte) pairs that differ from what an unlisted
address reads as, addresses strictly rising. -/
abbrev Memory := List Host.Cell

/-- The width of a register access on the host bus; only `word` is defined (R70). -/
inductive AccessWidth where
  | byte
  | half
  | word
deriving DecidableEq, Repr

/-- One line of a host script (R103), with system addresses. -/
inductive HostOp where
  /-- `RD`: a read at a system address of the register window. -/
  | rd (addr : Nat) (w : AccessWidth)
  /-- `WR`: a write at a system address of the register window. -/
  | wr (addr : Nat) (w : AccessWidth) (data : Word)
  /-- `WAIT`: read the register again until its bits under the mask equal the value. -/
  | wait (r : Reg) (mask value : Word)
  /-- Wait until the interrupt output is asserted (R293 step 7). -/
  | waitIrq
  /-- `MEM`: write bytes to system memory. -/
  | mem (addr : Nat) (bytes : List Byte)
  /-- Read one byte of system memory. -/
  | peek (addr : Nat)
deriving DecidableEq, Repr

/-- A range of addresses, `lo ≤ a < hi`, whose bytes are any value to the host (`free`), or again what
memory holds. The newest span that covers an address decides (log 7). -/
structure Span where
  lo : Nat
  hi : Nat
  free : Bool
deriving DecidableEq, Repr

/-- The MODEL's own fields, none of which the spec gives the block: the host's script, the known order
of steps, what the host last read, and what the free values need. -/
structure World where
  /-- What the host will still do, first line first (log 2). -/
  script : List HostOp
  /-- The known order of the next steps; past its end the order is a free value (log 1). -/
  turns : List Turn
  /-- The word the host's last read returned (log 6). -/
  hostData : Word
  /-- Counts steps; names the next free values (log 7). -/
  fresh : Nat
  /-- The host has broken R77 during this run (log 8). -/
  disturbed : Bool
  /-- Where bytes are any value to the host, newest first (log 7). -/
  spans : List Span
  /-- The outputs of finished runs, while the host has not yet read STATUS with BUSY = 0 (R76, R296;
  log 31). -/
  unseen : List Span
deriving DecidableEq, Repr

/-- The whole machine. A register that is `none` holds no value. That is the spec's own reset state for the
sequencer's registers, not a missing one: "A model represents every "unspecified" and "no value" entry as holding no
value, so that a rule reading one before it is written would fault rather than read a chosen number" (R290; I7,
D18). How it is written down here is log 3's. -/
structure State where
  /-- The configuration registers (R24-R28). -/
  cfg : ConfigRegs
  /-- STATUS (R23). -/
  status : Status
  /-- RESULT_SIZE (R30). -/
  resultSize : Word
  /-- ERR_INFO (R31). -/
  errInfo : Word
  /-- The sequencer's phase (R33). -/
  phase : Phase
  /-- `z`, the channel (R33). -/
  z : Option (BitVec 2)
  /-- `y`, the output row (R33). -/
  y : Option (BitVec 16)
  /-- `x`, the sample position within the scanline (R33). -/
  x : Option (BitVec 16)
  /-- The latched geometry (R34). -/
  geom : Option Geometry
  /-- `dcur`, the container offset of the next data byte (R35). -/
  dcur : Option Word
  /-- `rstart`, `dcur` when the scanline began (R35). -/
  rstart : Option Word
  /-- `SL`: the entries that FETCH has written in the current scanline, entry 0 first; every entry beyond them
  holds no value (R36). -/
  sl : List Half
  /-- System memory (R60). -/
  mem : Memory
  /-- The platform's parameters (R6). -/
  plat : Platform
  /-- The model's own fields. -/
  world : World
deriving DecidableEq, Repr

/-- The registers that can hold no value (R290). -/
inductive Latch where
  | z
  | y
  | x
  | geometry
  | dcur
  | rstart
  | scanline
deriving DecidableEq, Repr

/-- Why the machine stops with a fault. -/
inductive Fault where
  /-- A rule read a register that holds no value: "a rule reading one before it is written would fault"
  (R290), "`fault` on a read before a write" (I7). Raised by a micro-operation or a packet's meaning. Safe:
  no state that a run reaches has it. -/
  | noValue (l : Latch)
  /-- The host accessed memory at or above 2^32, where R60 puts none: raised by a host step. Safe. -/
  | noSuchAddress (a : Nat)
deriving DecidableEq, Repr

/-- Why a step has no meaning. -/
inductive Refusal where
  /-- An instruction whose meaning is not written: raised by `exec`. Safe. -/
  | notModelled (mnemonic : String)
  /-- A register access at a key that is no instruction, such as a misaligned offset (R70, I5). Safe. -/
  | undefinedAccess (e : DecodeError)
  /-- A register access of another width than 32 bits (R70, I5). Safe. -/
  | undefinedWidth
  /-- A word access outside the register window: no access of RLEENC (R21). Safe. -/
  | outsideWindow
  /-- A host memory access inside the register window, which is a register access of one byte
  (R60, R70). Safe. -/
  | memoryAccessInWindow
  /-- A launch with overlapping buffers: "A model refuses such a launch" (R78, I4). Safe. -/
  | overlappingLaunch
  /-- A packet that is not the one the run detector chooses now: EMIT_REPEAT and EMIT_LITERAL are
  performed only when it is (R176, R177; log 10). Safe. -/
  | packetNotChosen
  /-- A REG_WRITE at CTRL, which no key decodes to (R241; log 26). Safe. -/
  | commandNotWrite
deriving DecidableEq, Repr

/-- What a step or an instruction answers. -/
abbrev Result := Host.Outcome State Fault Refusal

/-- The configuration registers after reset (R290). -/
def ConfigRegs.reset : ConfigRegs :=
  { fmt := 0, width := 0, height := 0, srcBase := 0, srcStride := 0, outBase := 0, outCap := 0,
    intEn := false }

/-- STATUS after reset, and after START and CLEAR (R290, R243, R244). -/
def Status.clear : Status := { done := false, err := false, keyframe := false, errCode := 0 }

/-- The platform of State.reset. DESIGN CHOICE (log 5): R6 leaves REG_BASE and `admits` open; SCAN_POLICY
is R6's default. -/
def initialPlatform : Platform := { regBase := 0x40000000, holes := [], policy := .doc }

/-- The model's own fields at the start. DESIGN CHOICE (logs 1, 2, 6, 7, 8, 25, 31). -/
def World.initial : World :=
  { script := [], turns := [], hostData := 0, fresh := 0, disturbed := false, spans := [],
    unseen := [] }

/-- The machine right after reset (R290); memory, the platform and the outside world, which reset does
not change, are as the log names them (logs 4, 5). -/
def State.reset : State :=
  { cfg := .reset, status := .clear, resultSize := 0, errInfo := 0, phase := .idle,
    z := none, y := none, x := none, geom := none, dcur := none, rstart := none, sl := [],
    mem := [], plat := initialPlatform, world := .initial }

end Sys2Proof.Machine
end

