-- ==== Sys2Proof/Machine/Flags.lean ====
section
/-! DEFINITION. Machine/Flags.lean: the STATUS word, BUSY and the interrupt output. -/

namespace Sys2Proof.Machine

/-- STATUS.BUSY: 1 while the phase is not IDLE (R23). -/
def busy (s : State) : Bool := s.phase != .idle

/-- The STATUS word: ERRCODE in bits 11:8, KEYFRAME, ERR, DONE, BUSY in bits 3:0, the others 0 (R23). -/
def statusWord (s : State) : Word :=
  (0 : BitVec 20) ++ s.status.errCode ++ (0 : BitVec 4) ++ BitVec.ofBool s.status.keyframe
    ++ BitVec.ofBool s.status.err ++ BitVec.ofBool s.status.done ++ BitVec.ofBool (busy s)

/-- The interrupt output, a level: `INTEN.EN and (STATUS.DONE or STATUS.ERR)` (R275). -/
def irq (s : State) : Bool := s.cfg.intEn && (s.status.done || s.status.err)

/-- The error codes of STATUS.ERRCODE (R261). -/
def errorCode : ErrorKind → BitVec 4
  | .unsupportedFormat => 1
  | .unsupportedResolution => 2
  | .outOfMemory => 3
  | .outputBufferExhausted => 4
  | .busError => 5

end Sys2Proof.Machine
end

