-- ==== Sys2Proof/Machine/Operands.lean ====
section
/-! DEFINITION. Machine/Operands.lean: the format table, the size bound, source addresses and sample
assembly, and the value of each register. -/

namespace Sys2Proof.Machine

/-- The columns of the format table that RLEENC uses: `D`, `B` and `SE` (R120). -/
structure PixelFormat where
  depth : Nat
  width : ElementWidth
  order : ByteOrder
deriving DecidableEq, Repr

/-- `B` as a number of bytes (R6). -/
def elementBytes : ElementWidth → Nat
  | .one => 1
  | .two => 2

/-- The format table; none for the unsupported tags 9..15 (R120). The 8-bit rows have no source order;
`be` stands there and no rule reads it (log 16). -/
def formatRow (fmt : BitVec 4) : Option PixelFormat :=
  match fmt.toNat with
  | 0 => some ⟨1, .one, .be⟩
  | 1 => some ⟨3, .one, .be⟩
  | 2 => some ⟨4, .one, .be⟩
  | 3 => some ⟨1, .two, .le⟩
  | 4 => some ⟨1, .two, .be⟩
  | 5 => some ⟨3, .two, .le⟩
  | 6 => some ⟨3, .two, .be⟩
  | 7 => some ⟨4, .two, .le⟩
  | 8 => some ⟨4, .two, .be⟩
  | _ => none

/-- A width or height that CHECK accepts: 1..65535 (R122). -/
def legalDim (v : Word) : Bool := 1 ≤ v.toNat && v.toNat ≤ Config.maxDim

/-- WIDTH and HEIGHT are both legal (R122). -/
def legalResolution (c : ConfigRegs) : Bool := legalDim c.width && legalDim c.height

/-- `T = 4*D*H`, the size of each table in bytes (R124, R210). -/
def tableSize (depth height : Nat) : Nat := Config.entryBytes * depth * height

/-- `DS = 512 + 2*T`, the container offset of the pixel data (R63). -/
def dataStart (depth height : Nat) : Nat := Config.headerBytes + 2 * tableSize depth height

/-- The size bound, exact on naturals (R124). -/
def sizeBound (f : PixelFormat) (width height : Nat) : Nat :=
  Config.headerBytes + 2 * tableSize f.depth height
    + f.depth * height * (2 * width + 1) * elementBytes f.width

/-- The format of a configuration whose format and resolution CHECK accepts (R121, R122). -/
def legalFormat (c : ConfigRegs) : Option PixelFormat :=
  if legalResolution c then formatRow c.fmt else none

/-- REQ_SIZE as the host reads it: the bound of the current registers, 0 where they are illegal (R29). -/
def reqSize (c : ConfigRegs) : BitVec 64 :=
  match legalFormat c with
  | some f => BitVec.ofNat 64 (sizeBound f c.width.toNat c.height.toNat)
  | none => 0

/-- `value_of(off)`, what a read of a register returns (R240; R22-R32). -/
def regValue (r : Reg) (s : State) : Word :=
  match r with
  | .ctrl => 0
  | .status => statusWord s
  | .format => s.cfg.fmt.setWidth 32
  | .width => s.cfg.width
  | .height => s.cfg.height
  | .srcBase => s.cfg.srcBase
  | .srcStride => s.cfg.srcStride
  | .outBase => s.cfg.outBase
  | .outCap => s.cfg.outCap
  | .intEn => (BitVec.ofBool s.cfg.intEn).setWidth 32
  | .reqSizeLo => (reqSize s.cfg).extractLsb' 0 32
  | .reqSizeHi => (reqSize s.cfg).extractLsb' 32 32
  | .resultSize => s.resultSize
  | .errInfo => s.errInfo
  | .reserved38 => 0
  | .reserved3C => 0

/-- The configuration registers after a write of `v` at a register; the others have nothing to write
(R241, R23, R29-R32). -/
def writeConfig (r : Reg) (v : Word) (c : ConfigRegs) : ConfigRegs :=
  match r with
  | .format => { c with fmt := v.extractLsb' 0 4 }
  | .width => { c with width := v }
  | .height => { c with height := v }
  | .srcBase => { c with srcBase := v }
  | .srcStride => { c with srcStride := v }
  | .outBase => { c with outBase := v }
  | .outCap => { c with outCap := v }
  | .intEn => { c with intEn := v.getLsbD 0 }
  | .ctrl => c
  | .status => c
  | .reqSizeLo => c
  | .reqSizeHi => c
  | .resultSize => c
  | .errInfo => c
  | .reserved38 => c
  | .reserved3C => c

/-- The address of the first byte of a source row (R190). -/
def rowAddr (c : ConfigRegs) (row : Nat) : Nat := c.srcBase.toNat + row * c.srcStride.toNat

/-- `srcAddr(r, x, z)`, exact: it does not wrap (R190). -/
def srcAddr (c : ConfigRegs) (depth : Nat) (w : ElementWidth) (row pixel channel : Nat) : Nat :=
  rowAddr c row + (pixel * depth + channel) * elementBytes w

/-- The source row of an output row: rows are read bottom to top (R191). -/
def sourceRow (height y : Nat) : Nat := height - 1 - y

/-- The value of a two-byte sample from its source bytes in address order (R192). -/
def assemble (o : ByteOrder) (b0 b1 : Byte) : Half :=
  match o with
  | .be => b0 ++ b1
  | .le => b1 ++ b0

/-- The system address of a container offset (R61). -/
def outAddr (c : ConfigRegs) (offset : Nat) : Nat := c.outBase.toNat + offset

/-- `i = z*H + y`, the table index (R211). -/
def tableIndex (height z y : Nat) : Nat := z * height + y

/-- The container offset of the offset entry of index `i` (R211). -/
def offsetEntry (i : Nat) : Nat := Config.headerBytes + Config.entryBytes * i

/-- The container offset of the length entry of index `i` (R211). -/
def lengthEntry (tableBytes i : Nat) : Nat := Config.headerBytes + tableBytes + Config.entryBytes * i

end Sys2Proof.Machine
end

