-- ==== Sys2Proof/Machine/Ops.lean ====
section
/-! DEFINITION. Machine/Ops.lean: the named operations over memory and registers; error entry (FAIL) and
the return from an error; what a launch does. -/

namespace Sys2Proof.Machine

/-! ### System memory -/

/-- What an unlisted address reads as. DESIGN CHOICE (log 4), unsafe: the spec gives memory no
power-on contents. -/
def blankByte : Byte := 0

/-- The byte memory holds at an address. -/
def Memory.read (m : Memory) (a : Nat) : Byte :=
  match m with
  | [] => blankByte
  | (k, v) :: rest => if k = a then v else Memory.read rest a

/-- The entry of a byte before a tail, left out where it reads the same unlisted. -/
def Memory.entry (a : Nat) (v : Byte) (rest : Memory) : Memory :=
  if v = blankByte then rest else (a, v) :: rest

/-- Memory with one byte written; the canonical form is kept. -/
def Memory.write (m : Memory) (a : Nat) (v : Byte) : Memory :=
  match m with
  | [] => Memory.entry a v []
  | (k, w) :: rest =>
    if a < k then Memory.entry a v ((k, w) :: rest)
    else if a = k then Memory.entry a v rest
    else (k, w) :: Memory.write rest a v

/-- Memory with bytes written at rising addresses. -/
def Memory.writeList (m : Memory) (a : Nat) (bs : List Byte) : Memory :=
  match bs with
  | [] => m
  | b :: rest => Memory.writeList (Memory.write m a b) (a + 1) rest

/-- Memory with `count` bytes from an address on replaced by free values, named by a stamp. -/
def Memory.writeFree (stamp : Nat) (m : Memory) (a : Nat) : (count : Nat) → Memory
  | 0 => m
  | count + 1 =>
    Memory.write (Memory.writeFree stamp m a count) (a + count) (Config.freeByte stamp (a + count))

/-- The canonical form: addresses strictly rise, no entry reads the same unlisted, every address is one
of system memory (R60). -/
abbrev Memory.wf (m : Memory) : Prop :=
  m.Pairwise (fun c d => c.1 < d.1) ∧ ∀ c ∈ m, c.2 ≠ blankByte ∧ c.1 < Config.addressSpace

/-! ### Bytes that are any value -/

/-- The address lies in the span. -/
def Span.covers (p : Span) (a : Nat) : Bool := p.lo ≤ a && a < p.hi

/-- The byte at the address is any value to the host: the newest span that covers it says so (log 7). -/
def isFree (spans : List Span) (a : Nat) : Bool :=
  match spans with
  | [] => false
  | p :: rest => if p.covers a then p.free else isFree rest a

/-- The address is an output byte at container offset 512 or more: `[OUT_BASE + 512, OUT_BASE + OUT_CAP)`
(R77, R247). -/
def inOutput (c : ConfigRegs) (a : Nat) : Bool :=
  outAddr c Config.headerBytes ≤ a && a < outAddr c c.outCap.toNat

/-- The whole output buffer beyond the header becomes any value to the host (R270, R292, I1, I16). -/
def voidOutput (c : ConfigRegs) (w : World) : World :=
  { w with spans := ⟨outAddr c Config.headerBytes, outAddr c c.outCap.toNat, true⟩ :: w.spans }

/-- The range is again what memory holds, to the host too. -/
def settle (lo hi : Nat) (w : World) : World := { w with spans := ⟨lo, hi, false⟩ :: w.spans }

/-- The output of a run that has finished is what memory holds, to the host too, but not before it has read that
the run is over (R76, R296; log 31). -/
def hideOutput (lo hi : Nat) (w : World) : World :=
  { settle lo hi w with unseen := ⟨lo, hi, true⟩ :: w.unseen }

/-- The host has read that no run is in progress: it sees every finished output (R76, R296). -/
def seeOutput (w : World) : World := { w with unseen := [] }

/-- What a register read marks in the model's own fields: from a read of STATUS with BUSY = 0 on the host sees what
the run wrote (R76, R296). Nothing of the block changes (R240). -/
def worldAfterRead (r : Reg) (s : State) : World :=
  if r = .status ∧ busy s = false then seeOutput s.world else s.world

/-- The byte the block finds at an address: any value after the host broke R77 in this run, else what memory
holds; what R270 and R292 make any value they make so to the host alone. -/
def blockByte (s : State) (a : Nat) : Byte :=
  if s.world.disturbed then Config.freeByte s.world.fresh a else Memory.read s.mem a

/-- The byte the host finds at an address: any value for an output byte while BUSY (R76, I2) and until
the host has read that the run is over (R76, R296), and where a span says so; else what memory holds. -/
def hostByte (s : State) (a : Nat) : Byte :=
  if (busy s && inOutput s.cfg a) || isFree s.world.unseen a || isFree s.world.spans a then Config.freeByte s.world.fresh a
  else Memory.read s.mem a

/-! ### The block's accesses (R9) -/

/-- The platform predicate `admits(a, k)` (R6, R9). -/
def admits (p : Platform) (k : AccessKind) (a : Nat) : Bool :=
  !p.holes.any (fun h => decide (h.kind = k) && (h.lo ≤ a && a < h.hi))

/-- The bus accepts an access of the block: the address exists and `admits` holds (R9, R266). -/
def accepts (p : Platform) (k : AccessKind) (a : Nat) : Bool :=
  decide (a < Config.addressSpace) && admits p k a

/-- `MemRead(a, 1)`: the byte, or the refused address (R9). -/
def memRead (s : State) (a : Nat) : Except Nat Byte :=
  if accepts s.plat .read a then .ok (blockByte s a) else .error a

/-- `MemWriteSeq(a, bs)`: the bytes in rising order until one is refused; the memory then, and the
refused address (R9, R174). -/
def memWriteSeq (p : Platform) (m : Memory) (a : Nat) (bs : List Byte) : Memory × Option Nat :=
  match bs with
  | [] => (m, none)
  | b :: rest =>
    if accepts p .write a then memWriteSeq p (Memory.write m a b) (a + 1) rest else (m, some a)

/-! ### Taking an error, and the return from one -/

/-- How many system addresses the output buffer has at container offset 512 or more (R61, R77). -/
def outputCount (c : ConfigRegs) : Nat :=
  min (outAddr c c.outCap.toNat) Config.addressSpace - outAddr c Config.headerBytes

/-- Memory when a run ends: where the host broke R77 during it, each output byte is any value (R77, I3;
log 8). A run that CHECK ends has no output byte (R264). -/
def memoryAfterRun (s : State) : Memory :=
  if s.world.disturbed && s.phase != .check then
    Memory.writeFree s.world.fresh s.mem (outAddr s.cfg Config.headerBytes) (outputCount s.cfg)
  else s.mem

/-- FAIL, the error entry, as R270 gives it: STATUS and ERR_INFO report the error, RESULT_SIZE is 0, the
phase is IDLE, and every other register keeps its value. Memory keeps what the run wrote, and the output
buffer is any value to the host from here (R270, I1). -/
def fail (e : ErrorKind) (info : Nat) (s : State) : State :=
  { s with
    status := { done := false, err := true, keyframe := false, errCode := errorCode e }
    errInfo := BitVec.ofNat 32 info
    resultSize := 0
    phase := .idle
    mem := memoryAfterRun s
    world := voidOutput s.cfg s.world }

/-- The return from an error: what CMD_CLEAR does when idle, and the first part of CMD_START (R244,
R280). -/
def clearResults (s : State) : State :=
  { s with status := .clear, resultSize := 0, errInfo := 0 }

/-- Run the rest of a rule with the value a register holds. Where it holds none the spec says the model stops:
"a rule reading one before it is written would fault rather than read a chosen number; no rule does" (R290);
"`fault` on a read before a write" (I7); D18. -/
def held {α : Type} (r : Option α) (l : Latch) (k : α → Result) : Result :=
  match r with
  | some v => k v
  | none => .fault (.noValue l)

/-- Write a byte sequence and go on, or raise BusError with the bytes before the refused one written
(R9, R174, R266). -/
def storeSeq (a : Nat) (bs : List Byte) (s : State) (k : State → Result) : Result :=
  match memWriteSeq s.plat s.mem a bs with
  | (m, none) => k { s with mem := m }
  | (m, some bad) => .next (fail .busError bad { s with mem := m })

/-! ### Launch -/

/-- The ranges of addresses meet at an address that exists. -/
def rangesMeet (lo hi lo' hi' : Nat) : Bool :=
  max lo lo' < min (min hi hi') Config.addressSpace

/-- The bytes of one source row that a run reads: all channels of `W` pixels (R190). -/
def rowBytes (f : PixelFormat) (width : Nat) : Nat := width * f.depth * elementBytes f.width

/-- Some source row below `rows` has bytes in the range. -/
def someRowMeets (c : ConfigRegs) (f : PixelFormat) (lo hi : Nat) : Nat → Bool
  | 0 => false
  | rows + 1 =>
    rangesMeet (rowAddr c rows) (rowAddr c rows + rowBytes f c.width.toNat) lo hi
      || someRowMeets c f lo hi rows

/-- The system address just after the register window (R60). -/
def windowEnd (p : Platform) : Nat := p.regBase.toNat + Config.windowBytes

/-- A source byte that the run reads lies in `[OUT_BASE + 512, OUT_BASE + REQ_SIZE)` (R78). A run that CHECK
would end reads none. -/
def sourceInOutput (c : ConfigRegs) : Bool :=
  match legalFormat c with
  | none => false
  | some f =>
    let req := sizeBound f c.width.toNat c.height.toNat
    decide (req ≤ c.outCap.toNat)
      && someRowMeets c f (outAddr c Config.headerBytes) (outAddr c req) c.height.toNat

/-- The register window lies in the output buffer, or in the source buffer of a legal format and resolution
(R78); neither depends on what CHECK will say of the capacity. -/
def windowInBuffer (p : Platform) (c : ConfigRegs) : Bool :=
  rangesMeet c.outBase.toNat (outAddr c c.outCap.toNat) p.regBase.toNat (windowEnd p)
    || match legalFormat c with
       | none => false
       | some f => someRowMeets c f p.regBase.toNat (windowEnd p) c.height.toNat

/-- A launch whose result R78 leaves unspecified. DESIGN CHOICE (log 9), safe: a range lies in another where
they have an address in common. -/
def launchOverlaps (p : Platform) (c : ConfigRegs) : Bool := sourceInOutput c || windowInBuffer p c

/-- CMD_START while idle: the results are cleared and the next micro-operation is CHECK (R243). -/
def startRun (s : State) : State :=
  { clearResults s with phase := .check, world := { s.world with disturbed := false } }

/-- One step is accounted for: its turn is taken and the free values move on (logs 1, 7). -/
def tick (s : State) : State :=
  { s with world := { s.world with turns := s.world.turns.tail, fresh := s.world.fresh + 1 } }

end Sys2Proof.Machine
end

