-- ==== Sys2Proof/Machine/HostCommands.lean ====
section
/-! DEFINITION. Machine/HostCommands.lean: the meanings of REG_READ, REG_WRITE, CMD_START, CMD_CLEAR and
CTRL_NOP (45_host_commands R240-R245, 10_state R22). -/

namespace Sys2Proof.Machine

/-- REG_READ: the host receives the register's value; no state of the block changes (R240). A read of STATUS with
BUSY = 0 is marked in the model's own fields (R76; log 31). -/
def execRegRead (r : Reg) (s : State) : Result :=
  .next { s with world := { worldAfterRead r s with hostData := regValue r s } }

/-- REG_WRITE: ignored while BUSY, else the configuration register takes the value (R241, R242). -/
def execRegWrite (r : Reg) (v : Word) (s : State) : Result :=
  if r = .ctrl then .refused .commandNotWrite
  else if busy s then .next s
  else .next { s with cfg := writeConfig r v s.cfg }

/-- CMD_START: ignored while BUSY; a launch that R78 leaves unspecified is refused, every other starts a
run (R243). With the CLEAR bit too, CLEAR is performed first (R245). -/
def execCmdStart (clear : Bool) (s : State) : Result :=
  if busy s then .next s
  else if launchOverlaps s.plat s.cfg then .refused .overlappingLaunch
  else .next (startRun (if clear then clearResults s else s))

/-- CMD_CLEAR: ignored while BUSY, else the results are cleared (R244). -/
def execCmdClear (s : State) : Result :=
  if busy s then .next s else .next (clearResults s)

/-- CTRL_NOP: nothing happens (R22). -/
def execCtrlNop (s : State) : Result := .next s

end Sys2Proof.Machine
end

