-- ==== Sys2Proof/Machine/Detector.lean ====
section
/-! DEFINITION. Machine/Detector.lean: the run detector (41_run_detector R150-R156), as functions of the
scanline's samples `sl`, the width `W` and the position `x`, and the packet the emitter writes next. -/

namespace Sys2Proof.Machine

/-- `M = min(127, W - x)`, the most samples one packet can stand for (R152-R154). -/
def runLimit (width x : Nat) : Nat := min Config.maxRun (width - x)

/-- Entries `j` and `j + 1` of the scanline hold identical samples (R10, R150). -/
def sameNext (sl : List Half) (j : Nat) : Bool := sl[j]? == sl[j + 1]?

/-- The loop of `countRepeat`, with `r` samples counted and `fuel = M - r` (R152). -/
def countRepeatLoop (sl : List Half) (x : Nat) : (fuel r : Nat) → Nat
  | 0, r => r
  | fuel + 1, r => if sameNext sl (x + r - 1) then countRepeatLoop sl x fuel (r + 1) else r

/-- `countRepeat(x)`: identical samples from `x` on, at most `M` (R152). -/
def countRepeat (sl : List Half) (width x : Nat) : Nat :=
  countRepeatLoop sl x (runLimit width x - 1) 1

/-- The loop of `countLiteral` under DOC, with `l` samples taken and `fuel = M - l` (R153). -/
def countLiteralDocLoop (sl : List Half) (width x : Nat) : (fuel l : Nat) → Nat
  | 0, l => l
  | fuel + 1, l =>
    if x + l + 1 < width && sameNext sl (x + l) then l
    else countLiteralDocLoop sl width x fuel (l + 1)

/-- `countLiteral(x)` under DOC: up to the first repeatable run after `x`, at most `M` (R153). -/
def countLiteralDoc (sl : List Half) (width x : Nat) : Nat :=
  countLiteralDocLoop sl width x (runLimit width x - 1) 1

/-- The loop of `countLiteral` under UPSTREAM, with `c` samples scanned and `fuel = M - c` (R154). -/
def countLiteralUpstreamLoop (sl : List Half) (w : ElementWidth) (x limit : Nat) : (fuel c : Nat) → Nat
  | 0, _ => limit
  | fuel + 1, c =>
    if sameNext sl (x + c - 1) then
      if w = .one && (c + 1 < limit && !sameNext sl (x + c)) then
        countLiteralUpstreamLoop sl w x limit fuel (c + 1)
      else c - 1
    else countLiteralUpstreamLoop sl w x limit fuel (c + 1)

/-- `countLiteral(x)` under UPSTREAM (R154). PRESUMED (log 18): the spec marks this rule as general
knowledge and gives it as an option. -/
def countLiteralUpstream (sl : List Half) (w : ElementWidth) (width x : Nat) : Nat :=
  countLiteralUpstreamLoop sl w x (runLimit width x) (runLimit width x - 1) 1

/-- `countLiteral(x)` by SCAN_POLICY (R155). -/
def countLiteral (p : ScanPolicy) (sl : List Half) (w : ElementWidth) (width x : Nat) : Nat :=
  match p with
  | .doc => countLiteralDoc sl width x
  | .upstream => countLiteralUpstream sl w width x

/-- `detect(x)`: the kind and the count of the packet written next (R155). -/
def detect (p : ScanPolicy) (sl : List Half) (w : ElementWidth) (width x : Nat) : RunKind × Nat :=
  let r := countRepeat sl width x
  if 2 ≤ r then (.rep, r) else (.lit, countLiteral p sl w width x)

/-- The low byte of a scanline entry: the sample when `B = 1` (R36). -/
def lowByte (v : Half) : Byte := v.extractLsb' 0 8

/-- The packet of a kind and a count over the samples from `x` on, the first of which is `v` (R102). -/
def packetOf (w : ElementWidth) (k : RunKind) (n : Nat) (v : Half) (vs : List Half) : Instr :=
  match w, k with
  | .one, .rep => .rep8 (BitVec.ofNat 7 n) (lowByte v)
  | .one, .lit => .lit8 (BitVec.ofNat 7 n) (vs.map lowByte)
  | .two, .rep => .rep16 (BitVec.ofNat 7 n) v
  | .two, .lit => .lit16 (BitVec.ofNat 7 n) vs

/-- The packet the emitter writes at position `x` of a scanline; none where the detector has no sample
to look at (R150, R155). -/
def packetAt (p : ScanPolicy) (sl : List Half) (w : ElementWidth) (width x : Nat) : Option Instr :=
  if x < width ∧ width ≤ sl.length then
    match sl[x]? with
    | some v =>
      let (k, n) := detect p sl w width x
      some (packetOf w k n v ((sl.drop x).take n))
    | none => none
  else none

/-- `encodeScanline` from position `x` on: the packets in increasing sample index (R156, R178). -/
def encodeFrom (p : ScanPolicy) (sl : List Half) (w : ElementWidth) (width : Nat) :
    (fuel x : Nat) → List Byte
  | 0, _ => []
  | fuel + 1, x =>
    match packetAt p sl w width x with
    | some i => encode i ++ encodeFrom p sl w width fuel (x + (detect p sl w width x).2)
    | none => []

/-- `encodeScanline(SL, B, SCAN_POLICY)` (R178); every packet takes a sample, so `W` packets suffice. -/
def encodeScanline (p : ScanPolicy) (sl : List Half) (w : ElementWidth) : List Byte :=
  encodeFrom p sl w sl.length sl.length 0

end Sys2Proof.Machine
end

