-- ==== Sys2Proof/Machine/Packets.lean ====
section
/-! DEFINITION. Machine/Packets.lean: the packet emitter, EMIT_REPEAT and EMIT_LITERAL (42_packet_emitter
R170-R177), and the meanings of REP8, LIT8, REP16 and LIT16. -/

namespace Sys2Proof.Machine

/-- The phase after a packet: ROW_END at the end of the scanline, else EMIT again (R220). -/
def phaseAfter (width x : Nat) : Phase := if x = width then .rowEnd else .emit

/-- The capacity check made once for a whole packet of `need` bytes (R172): its failure. -/
def exhausted (outCap dcur need : Nat) : Bool := outCap - dcur < need

/-- The part EMIT_REPEAT and EMIT_LITERAL share: check the room, write the packet's bytes at `dcur`,
advance `dcur` and `x` (R172, R174, R176, R177). -/
def emitBytes (bytes : List Byte) (need n : Nat) (dcur : Word) (x : BitVec 16) (s : State) : Result :=
  if exhausted s.cfg.outCap.toNat dcur.toNat need then
    .next (fail .outputBufferExhausted dcur.toNat s)
  else
    storeSeq (outAddr s.cfg dcur.toNat) bytes s fun t =>
      .next { t with
        dcur := some (BitVec.ofNat 32 (dcur.toNat + need))
        x := some (BitVec.ofNat 16 (x.toNat + n))
        phase := phaseAfter t.cfg.width.toNat (x.toNat + n) }

/-- EMIT_REPEAT(n) of a sample `v` (R176). -/
def emitRepeat (w : ElementWidth) (n : BitVec 7) (v : Half) (s : State) : Result :=
  held s.dcur .dcur fun dcur =>
    held s.x .x fun x =>
      emitBytes (ctrl w .rep n ++ put w v) (2 * elementBytes w) n.toNat dcur x s

/-- EMIT_LITERAL(n) of samples `vs` (R177). -/
def emitLiteral (w : ElementWidth) (n : BitVec 7) (vs : List Half) (s : State) : Result :=
  held s.dcur .dcur fun dcur =>
    held s.x .x fun x =>
      emitBytes (ctrl w .lit n ++ vs.flatMap (put w)) ((1 + n.toNat) * elementBytes w) n.toNat dcur x s

/-- The packet the run detector chooses now, or the register without a value that it had to read: what
the sequencer performs in phase EMIT (R33, R155). -/
def chosenPacket (s : State) : Except Latch Instr :=
  match s.geom, s.x with
  | none, _ => .error .geometry
  | some _, none => .error .x
  | some g, some x =>
    match packetAt s.plat.policy s.sl g.width s.cfg.width.toNat x.toNat with
    | some i => .ok i
    | none => .error .scanline

/-- EMIT_REPEAT and EMIT_LITERAL are performed in phase EMIT when the detector answers them (R176,
R177); a packet it does not answer is never emitted (log 10). A register the detector reads that holds no value is
the fault R290 and I7 ask for. -/
def whenChosen (i : Instr) (s : State) (r : Result) : Result :=
  if s.phase = .emit then
    match chosenPacket s with
    | .ok j => if j = i then r else .refused .packetNotChosen
    | .error l => .fault (.noValue l)
  else .refused .packetNotChosen

/-- REP8: EMIT_REPEAT with `B = 1` (R176). -/
def execRep8 (n : BitVec 7) (v : Byte) (s : State) : Result :=
  whenChosen (.rep8 n v) s (emitRepeat .one n (v.setWidth 16) s)

/-- LIT8: EMIT_LITERAL with `B = 1` (R177). -/
def execLit8 (n : BitVec 7) (vs : List Byte) (s : State) : Result :=
  whenChosen (.lit8 n vs) s (emitLiteral .one n (vs.map (·.setWidth 16)) s)

/-- REP16: EMIT_REPEAT with `B = 2` (R176). -/
def execRep16 (n : BitVec 7) (v : Half) (s : State) : Result :=
  whenChosen (.rep16 n v) s (emitRepeat .two n v s)

/-- LIT16: EMIT_LITERAL with `B = 2` (R177). -/
def execLit16 (n : BitVec 7) (vs : List Half) (s : State) : Result :=
  whenChosen (.lit16 n vs) s (emitLiteral .two n vs s)

end Sys2Proof.Machine
end

