-- ==== Sys2Proof/Machine/Dispatch.lean ====
section
/-! DEFINITION. Machine/Dispatch.lean: one arm per instruction. -/

namespace Sys2Proof.Machine

def exec (i : Instr) (s : State) : Host.Outcome State Fault Refusal :=
  match i with
  | .rep8 n v => Sys2Proof.Machine.execRep8 n v s
  | .lit8 n vs => Sys2Proof.Machine.execLit8 n vs s
  | .rep16 n v => Sys2Proof.Machine.execRep16 n v s
  | .lit16 n vs => Sys2Proof.Machine.execLit16 n vs s
  | .regRead r => Sys2Proof.Machine.execRegRead r s
  | .cmdStart clear => Sys2Proof.Machine.execCmdStart clear s
  | .cmdClear => Sys2Proof.Machine.execCmdClear s
  | .ctrlNop => Sys2Proof.Machine.execCtrlNop s
  | .regWrite r v => Sys2Proof.Machine.execRegWrite r v s

end Sys2Proof.Machine
end

