-- ==== Sys2Proof/Machine/Reset.lean ====
section
/-! DEFINITION. Machine/Reset.lean: the reset input (70_reset_and_hazards R290-R292), and what it leaves of a
micro-operation it abandons. -/

namespace Sys2Proof.Machine

/-- Where the micro-operation of the phase writes, and what: the entry of ROW_BEGIN or ROW_END, or the packet
of EMIT; CHECK, FETCH and FINISH write nothing (R176, R177, R216, R218). -/
def pendingWrite (s : State) : Option (Nat × List Byte) :=
  match s.phase with
  | .idle => none
  | .check => none
  | .fetch => none
  | .finish => none
  | .rowBegin =>
    match s.z, s.y, s.dcur with
    | some z, some y, some dcur =>
      some (outAddr s.cfg (offsetEntry (tableIndex s.cfg.height.toNat z.toNat y.toNat)), be32 dcur)
    | _, _, _ => none
  | .rowEnd =>
    match s.z, s.y, s.geom, s.dcur, s.rstart with
    | some z, some y, some g, some dcur, some rstart =>
      some (outAddr s.cfg (lengthEntry g.tableBytes (tableIndex s.cfg.height.toNat z.toNat y.toNat)),
        be32 (dcur - rstart))
    | _, _, _, _, _ => none
  | .emit =>
    match s.dcur, chosenPacket s with
    | some dcur, .ok i =>
      if exhausted s.cfg.outCap.toNat dcur.toNat (encode i).length then none
      else some (outAddr s.cfg dcur.toNat, encode i)
    | _, _ => none

/-- The bytes of an abandoned write that have changed memory: the first `done`, and any value at the one in
flight, which is "either performed or not (any value for the byte it addresses)" (R292, I16). -/
def abandonedBytes (stamp done a : Nat) (bs : List Byte) : List Byte :=
  if done < bs.length then bs.take done ++ [Config.freeByte stamp (a + done)] else bs

/-- Memory when a reset abandons the micro-operation of the phase: the bytes it has written stay written
(R292); any number of them may have been (log 12). -/
def memoryAfterAbandon (s : State) : Memory :=
  match pendingWrite s with
  | none => s.mem
  | some (a, bs) =>
    (memWriteSeq s.plat s.mem a
      (abandonedBytes s.world.fresh (Config.freeCount s.world.fresh) a bs)).1

/-- Memory after reset: unchanged in IDLE (R290); while BUSY the run is abandoned (R292). -/
def memoryAfterReset (s : State) : Memory :=
  if busy s then memoryAfterRun { s with mem := memoryAfterAbandon s } else s.mem

/-- The reset input (R290, R291): every register of the block at its reset value, and the platform unchanged.
While BUSY it abandons the run, and the output buffer is any value to the host (R292, I16). -/
def resetBlock (s : State) : State :=
  { s with
    cfg := .reset, status := .clear, resultSize := 0, errInfo := 0, phase := .idle
    z := none, y := none, x := none, geom := none, dcur := none, rstart := none, sl := []
    mem := memoryAfterReset s
    world :=
      { (if busy s then voidOutput s.cfg s.world else s.world) with disturbed := false } }

end Sys2Proof.Machine
end

