-- ==== Sys2Proof/Machine/Sequencer.lean ====
section
/-! DEFINITION. Machine/Sequencer.lean: the micro-operations that have no encoding (R101): CHECK (R127),
ROW_BEGIN (R216), FETCH (R195), ROW_END (R218) and FINISH (R222). -/

namespace Sys2Proof.Machine

/-- CHECK: format, resolution, capacity, in that order; then the geometry is latched and the first
scanline begins, of which SL has no entry yet (R127, R271, R36). DESIGN CHOICE (log 23), safe: R127's pseudocode
writes `D`, `B`, `SE` and `T` before it raises OutOfMemory, and I7 leaves them unspecified after FAIL; the model
latches them only where CHECK passes, so after OutOfMemory they are as before CHECK. -/
def checkRun (s : State) : Result :=
  match formatRow s.cfg.fmt with
  | none => .next (fail .unsupportedFormat 0 s)
  | some f =>
    let height := s.cfg.height.toNat
    if legalResolution s.cfg = false then .next (fail .unsupportedResolution 0 s)
    else if s.cfg.outCap.toNat < sizeBound f s.cfg.width.toNat height then
      .next (fail .outOfMemory 0 s)
    else
      .next { s with
        geom := some ⟨f.depth, f.width, f.order, tableSize f.depth height⟩
        dcur := some (BitVec.ofNat 32 (dataStart f.depth height))
        z := some 0, y := some 0, sl := [], phase := .rowBegin }

/-- ROW_BEGIN: the offset entry of the scanline is written, and `rstart` remembers `dcur` (R216). -/
def rowBegin (s : State) : Result :=
  held s.z .z fun z =>
    held s.y .y fun y =>
      held s.dcur .dcur fun dcur =>
        let i := tableIndex s.cfg.height.toNat z.toNat y.toNat
        storeSeq (outAddr s.cfg (offsetEntry i)) (be32 dcur) s fun t =>
          .next { t with rstart := some dcur, phase := .fetch }

/-- One sample of FETCH: its source bytes in order, or the first refused address (R192, R195). -/
def readSample (w : ElementWidth) (o : ByteOrder) (a : Nat) (s : State) : Except Nat Half :=
  match memRead s a with
  | .error bad => .error bad
  | .ok b0 =>
    match w with
    | .one => .ok (b0.setWidth 16)
    | .two =>
      match memRead s (a + 1) with
      | .error bad => .error bad
      | .ok b1 => .ok (assemble o b0 b1)

/-- The loop of FETCH over `count` pixels from pixel `p` on: the samples written, and the first refused
address (R195). -/
def fetchSamples (g : Geometry) (row channel : Nat) (s : State) :
    (count p : Nat) → List Half × Option Nat
  | 0, _ => ([], none)
  | count + 1, p =>
    match readSample g.width g.order (srcAddr s.cfg g.depth g.width row p channel) s with
    | .error bad => ([], some bad)
    | .ok v =>
      let (vs, bad) := fetchSamples g row channel s count (p + 1)
      (v :: vs, bad)

/-- FETCH: the whole scanline is read into `SL` before its first packet (R195). -/
def fetchLine (s : State) : Result :=
  held s.z .z fun z =>
    held s.y .y fun y =>
      held s.geom .geometry fun g =>
        let row := sourceRow s.cfg.height.toNat y.toNat
        match fetchSamples g row z.toNat s s.cfg.width.toNat 0 with
        | (vs, some bad) => .next (fail .busError bad { s with sl := vs })
        | (vs, none) => .next { s with sl := vs, x := some 0, phase := .emit }

/-- `advance()`, the branch between scanlines (R219). -/
def advance (depth : Nat) (z : BitVec 2) (y : BitVec 16) (s : State) : State :=
  if y.toNat + 1 < s.cfg.height.toNat then
    { s with y := some (BitVec.ofNat 16 (y.toNat + 1)), phase := .rowBegin }
  else if z.toNat + 1 < depth then
    { s with y := some 0, z := some (BitVec.ofNat 2 (z.toNat + 1)), phase := .rowBegin }
  else { s with phase := .finish }

/-- ROW_END: the length entry of the scanline is written, then `advance()` (R218). The
scanline is over, and SL has no entry of the next one (R36). -/
def rowEnd (s : State) : Result :=
  held s.z .z fun z =>
    held s.y .y fun y =>
      held s.geom .geometry fun g =>
        held s.dcur .dcur fun dcur =>
          held s.rstart .rstart fun rstart =>
            let i := tableIndex s.cfg.height.toNat z.toNat y.toNat
            storeSeq (outAddr s.cfg (lengthEntry g.tableBytes i)) (be32 (dcur - rstart)) s fun t =>
              .next (advance g.depth z y { t with sl := [] })

/-- FINISH: RESULT_SIZE is the data cursor, DONE and KEYFRAME are set, the phase is IDLE (R222); the host
finds the output once it has read that the run is over (R76, R296). -/
def finishRun (s : State) : Result :=
  held s.dcur .dcur fun dcur =>
    .next { s with
      resultSize := dcur
      status := { done := true, err := false, keyframe := true, errCode := 0 }
      phase := .idle
      mem := memoryAfterRun s
      world := hideOutput (outAddr s.cfg Config.headerBytes) (outAddr s.cfg dcur.toNat) s.world }

end Sys2Proof.Machine
end

