-- ==== Sys2Proof/Machine/Agents.lean ====
section
/-! DEFINITION. Machine/Agents.lean: one step of the host and one of the sequencer (10_state R20), how a
register access becomes an instruction, and how an instruction is placed to run next. -/

namespace Sys2Proof.Machine

/-- The turn taken next: the known order first, then any (R20, I22; log 1). -/
def nextTurn (s : State) : Turn :=
  match s.world.turns with
  | t :: _ => t
  | [] => Config.freeTurn s.world.fresh

/-- The state with the host's script replaced. -/
def withScript (ops : List HostOp) (s : State) : State :=
  { s with world := { s.world with script := ops } }

/-- The offset of a system address in the register window (R21, R60). DESIGN CHOICE (log 29), safe: the spec
does not bound REG_BASE; where the window runs past 2^32 its registers keep the exact addresses
`REG_BASE + 4*k`, which neither wrap nor are refused. -/
def windowOffset (p : Platform) (a : Nat) : Option (BitVec 6) :=
  if p.regBase.toNat ≤ a ∧ a < windowEnd p then some (BitVec.ofNat 6 (a - p.regBase.toNat)) else none

/-- The system address of a register (R21). -/
def regAddr (p : Platform) (r : Reg) : Nat := p.regBase.toNat + r.offset.toNat

/-- A register access of the host: only an aligned word access in the window has a key, and the key's
instruction is executed (R70, R100, R102). -/
def registerAccess (isWrite : Bool) (a : Nat) (w : AccessWidth) (data : Word) (s : State) : Result :=
  match windowOffset s.plat a with
  | none => .refused .outsideWindow
  | some off =>
    if w = .word then
      match decodeKey (accessKey isWrite off data) with
      | .ok i => exec i s
      | .error e => .refused (.undefinedAccess e)
    else .refused .undefinedWidth

/-- The bytes at `a, …, a + len - 1` all exist and lie outside the register window; else what the host's
access to them answers (R60, R70). DESIGN CHOICE (log 30), safe: `admits` does not govern the host's own memory
accesses; R6 and R9 speak of it for the block's MemRead and MemWrite, and the spec is silent for the host. -/
def hostAccess (a len : Nat) (s : State) (r : Result) : Result :=
  if Config.addressSpace < a + len then .fault (.noSuchAddress (a + len - 1))
  else if rangesMeet a (a + len) s.plat.regBase.toNat (windowEnd s.plat) then
    .refused .memoryAccessInWindow
  else r

/-- A byte the host must not write while BUSY: a source byte the run reads, or an output byte at offset
512 or more (R77, R247). -/
def protectedRange (s : State) (lo hi : Nat) : Bool :=
  rangesMeet lo hi (outAddr s.cfg Config.headerBytes) (outAddr s.cfg s.cfg.outCap.toNat)
    || match legalFormat s.cfg with
       | some f => someRowMeets s.cfg f lo hi s.cfg.height.toNat
       | none => false

/-- The host writes bytes to memory (R103 MEM, R247). Where it must not, the run's bytes become any
value (R77, I3). -/
def hostWrite (a : Nat) (bs : List Byte) (s : State) : Result :=
  hostAccess a bs.length s (.next { s with
    mem := Memory.writeList s.mem a bs
    world :=
      { settle a (a + bs.length) s.world with
        disturbed := s.world.disturbed || (busy s && protectedRange s a (a + bs.length)) } })

/-- The host reads one byte of memory (R76, R247). -/
def hostRead (a : Nat) (s : State) : Result :=
  hostAccess a 1 s
    (.next { s with world := { s.world with hostData := (hostByte s a).setWidth 32 } })

/-- One step of the host: the first line of its script (R103). A WAIT reads its register and stays until
the read satisfies it; a host with nothing left does nothing (log 14). -/
def hostTurn (s : State) : Result :=
  match s.world.script with
  | [] => .next s
  | op :: rest =>
    match op with
    | .rd a w => registerAccess false a w 0 (withScript rest s)
    | .wr a w data => registerAccess true a w data (withScript rest s)
    | .wait r mask value =>
      exec (.regRead r) (if regValue r s &&& mask = value then withScript rest s else s)
    | .waitIrq => .next (if irq s then withScript rest s else s)
    | .mem a bs => hostWrite a bs (withScript rest s)
    | .peek a => hostRead a (withScript rest s)

/-- One step of the sequencer: the micro-operation its phase names (R33). In IDLE it has none (R291). A register
the detector reads that holds no value is the fault R290 and I7 ask for. -/
def sequencerTurn (s : State) : Result :=
  match s.phase with
  | .idle => .next s
  | .check => checkRun s
  | .rowBegin => rowBegin s
  | .fetch => fetchLine s
  | .emit =>
    match chosenPacket s with
    | .ok i => exec i s
    | .error l => .fault (.noValue l)
  | .rowEnd => rowEnd s
  | .finish => finishRun s

/-- The state in which the given agent moves next. -/
def withTurn (t : Turn) (s : State) : State :=
  { s with world := { s.world with turns := t :: s.world.turns } }

/-- A key as the host access it stands for, at the window's system addresses (R100, R102). -/
def keyAccess (p : Platform) (key : BitVec 39) : HostOp :=
  if key.getLsbD 38 then .wr (p.regBase.toNat + (keyOffset key).toNat) .word (keyData key)
  else .rd (p.regBase.toNat + (keyOffset key).toNat) .word

/-- A register access placed as the host's next step. -/
def placeAccess (key : BitVec 39) (s : State) : State :=
  withTurn .host (withScript (keyAccess s.plat key :: s.world.script) s)

/-- The samples of a packet, as the scanline buffer would hold them; none for a register access. -/
def packetSamples : Instr → List Half
  | .rep8 n v => List.replicate n.toNat (v.setWidth 16)
  | .lit8 _ vs => vs.map (·.setWidth 16)
  | .rep16 n v => List.replicate n.toNat v
  | .lit16 _ vs => vs
  | .regRead _ => []
  | .cmdStart _ => []
  | .cmdClear => []
  | .ctrlNop => []
  | .regWrite _ _ => []

/-- A packet placed as the sequencer's next step: the block is in phase EMIT of a run over a gray image
of one row that holds the packet's samples, with room for it (log 11). -/
def placeSamples (w : ElementWidth) (samples : List Half) (s : State) : State :=
  let fmt : BitVec 4 := match w with
    | .one => 0
    | .two => 4
  let f : PixelFormat := ⟨1, w, .be⟩
  let start := BitVec.ofNat 32 (dataStart 1 1)
  withTurn .sequencer { s with
    cfg := { s.cfg with
      fmt := fmt, width := BitVec.ofNat 32 samples.length, height := 1
      outCap := BitVec.ofNat 32 (sizeBound f samples.length 1) }
    status := .clear, phase := .emit, z := some 0, y := some 0, x := some 0
    geom := some ⟨1, w, .be, tableSize 1 1⟩
    dcur := some start, rstart := some start, sl := samples }

/-- The bits of a table word stored where the next step finds them: a packet in the scanline the
sequencer encodes next, a key in the host's script. Bits that are no packet leave an empty scanline. -/
def placeWord (nbits w : Nat) (s : State) : State :=
  let samples :=
    match decodeTableWord nbits w with
    | some i => packetSamples i
    | none => []
  match tableFormat nbits with
  | .ctrl8 => placeSamples .one samples s
  | .ctrl16 => placeSamples .two samples s
  | .mmio32 => placeAccess (BitVec.ofNat 39 w) s

end Sys2Proof.Machine
end

