-- ==== Sys2Proof/Machine/Step.lean ====
section
/-! DEFINITION. Machine/Step.lean: one step of the machine, and an instruction placed as its next. -/

namespace Sys2Proof.Machine

/-- One step: the host's, the sequencer's or reset, as the order of turns says (R20, R291). -/
def step (s : State) : Host.Outcome State Fault Refusal :=
  match nextTurn s with
  | .host => hostTurn (tick s)
  | .sequencer => sequencerTurn (tick s)
  | .reset => .next (resetBlock (tick s))

/-- The state in which the next step runs the instruction of a word of the opcode table (log 11). -/
def State.withFetchWord (s : State) (nbits w : Nat) : State := placeWord nbits w s

end Sys2Proof.Machine
end

