-- ==== Sys2Proof/Safety.lean ====
section
/-! DEFINITION. Safety.lean: what a legal state of the machine is, and the reader of a scanline that
statements about the encoder use. -/

namespace Sys2Proof.Machine

/-! ### STATUS and the result registers (R23, R30, R31, R261) -/

/-- The invariants of R23: BUSY excludes DONE and ERR, DONE excludes ERR, KEYFRAME equals DONE, and
ERRCODE is 0 without ERR and one of R261's codes with it. -/
structure StatusLegal (s : State) : Prop where
  busy_clear : busy s = true → s.status.done = false ∧ s.status.err = false
  one_result : ¬ (s.status.done = true ∧ s.status.err = true)
  keyframe_done : s.status.keyframe = s.status.done
  code_zero : s.status.err = false → s.status.errCode = 0
  code_named : s.status.err = true → 1 ≤ s.status.errCode.toNat ∧ s.status.errCode.toNat ≤ 5

/-- RESULT_SIZE is 0 unless the last run is done (R30); ERR_INFO is 0 unless it ended in
OutputBufferExhausted or BusError (R31). -/
structure ResultLegal (s : State) : Prop where
  size_zero : s.status.done = false → s.resultSize = 0
  info_zero : s.status.errCode.toNat < 4 → s.errInfo = 0

/-! ### A run in progress -/

/-- The most `dcur` can be when scanline `i` begins: every scanline before it took at most `2*W*B` bytes
(R128). -/
def lineCeiling (c : ConfigRegs) (f : PixelFormat) (i : Nat) : Nat :=
  dataStart f.depth c.height.toNat + 2 * elementBytes f.width * c.width.toNat * i

/-- The least `dcur` can be when scanline `i` begins: every scanline before it took at least `2*B` bytes
(R130). -/
def lineFloor (c : ConfigRegs) (f : PixelFormat) (i : Nat) : Nat :=
  dataStart f.depth c.height.toNat + 2 * elementBytes f.width * i

/-- What CHECK has established and the run keeps: a legal configuration with room for the bound, its
geometry latched, indices in range (R127, R33-R35). -/
structure FrameLegal (s : State) (f : PixelFormat) (z : BitVec 2) (y : BitVec 16) (d : Word) : Prop where
  format : legalFormat s.cfg = some f
  room : sizeBound f s.cfg.width.toNat s.cfg.height.toNat ≤ s.cfg.outCap.toNat
  geometry : s.geom = some ⟨f.depth, f.width, f.order, tableSize f.depth s.cfg.height.toNat⟩
  z_held : s.z = some z
  y_held : s.y = some y
  dcur_held : s.dcur = some d
  z_lt : z.toNat < f.depth
  y_lt : y.toNat < s.cfg.height.toNat

/-- The scanline began at `r`, within the bounds of its index (R35, R128, R130). -/
structure LineLegal (s : State) (f : PixelFormat) (i : Nat) (r : Word) : Prop where
  rstart_held : s.rstart = some r
  floor : lineFloor s.cfg f i ≤ r.toNat
  ceiling : r.toNat ≤ lineCeiling s.cfg f i

/-- The scanline buffer is written, the position lies inside it, and the packets so far took between
`2*B` and `2*B*x` bytes (R36, R128, R130). -/
structure EmitLegal (s : State) (f : PixelFormat) (x : BitVec 16) (r d : Word) : Prop where
  x_held : s.x = some x
  x_lt : x.toNat < s.cfg.width.toNat
  line_written : s.sl.length = s.cfg.width.toNat
  low_samples : f.width = .one → ∀ v ∈ s.sl, v.toNat < 256
  least : if x.toNat = 0 then d = r else r.toNat + 2 * elementBytes f.width ≤ d.toNat
  most : d.toNat ≤ r.toNat + 2 * elementBytes f.width * x.toNat

/-- What holds in each phase of a run that has passed CHECK. SL holds entries of the current scanline alone (R36). -/
def PhaseLegal (s : State) (f : PixelFormat) (z : BitVec 2) (y : BitVec 16) (d : Word) : Prop :=
  let i := tableIndex s.cfg.height.toNat z.toNat y.toNat
  match s.phase with
  | .idle => True
  | .check => True
  | .rowBegin => s.sl = [] ∧ lineFloor s.cfg f i ≤ d.toNat ∧ d.toNat ≤ lineCeiling s.cfg f i
  | .fetch => s.sl = [] ∧ LineLegal s f i d
  | .emit => ∃ r x, LineLegal s f i r ∧ EmitLegal s f x r d
  | .rowEnd =>
    s.sl.length = s.cfg.width.toNat ∧
    ∃ r, LineLegal s f i r ∧ r.toNat + 2 * elementBytes f.width ≤ d.toNat ∧
      d.toNat ≤ r.toNat + 2 * elementBytes f.width * s.cfg.width.toNat
  | .finish =>
    s.sl = [] ∧ lineFloor s.cfg f (f.depth * s.cfg.height.toNat) ≤ d.toNat ∧
      d.toNat ≤ lineCeiling s.cfg f (f.depth * s.cfg.height.toNat)

/-- The sequencer is idle, about to check, or in a run whose registers hold what its phase reads (R290:
no rule reads a register that holds no value). -/
def RunLegal (s : State) : Prop :=
  s.phase = .idle ∨ s.phase = .check ∨ ∃ f z y d, FrameLegal s f z y d ∧ PhaseLegal s f z y d

/-- The invariant of the machine. -/
structure Inv (s : State) : Prop where
  memory : Memory.wf s.mem
  status : StatusLegal s
  result : ResultLegal s
  run : RunLegal s

/-! ### A reader of the encoder's output -/

/-- The samples a packet stands for (R10, R92, R93). -/
def expand (i : Instr) : List Half := packetSamples i

/-- The format of a run's packets (R97). -/
def packetFormat : ElementWidth → Format
  | .one => .ctrl8
  | .two => .ctrl16

/-- The samples a sequence of at most `fuel` packets stands for; none where the bytes are no such
sequence. -/
def readLine (w : ElementWidth) : (fuel : Nat) → List Byte → Option (List Half)
  | _, [] => some []
  | 0, _ :: _ => none
  | fuel + 1, b :: bs =>
    match decode (packetFormat w) (b :: bs) with
    | .ok (i, rest) =>
      match readLine w fuel rest with
      | some vs => some (expand i ++ vs)
      | none => none
    | .error _ => none

/-! ### What a step reads and writes of memory -/

/-- The address is one of the source bytes that the FETCH of a channel and a row reads (R190, R195). -/
def isSourceByte (c : ConfigRegs) (f : PixelFormat) (row channel a : Nat) : Prop :=
  ∃ p < c.width.toNat, ∃ k < elementBytes f.width,
    a = srcAddr c f.depth f.width row p channel + k

/-- The address is a source byte of the frame: of some row and some channel. -/
def isFrameByte (c : ConfigRegs) (f : PixelFormat) (a : Nat) : Prop :=
  ∃ row < c.height.toNat, ∃ channel < f.depth, isSourceByte c f row channel a

/-- The address is one of the register window (R60). -/
def inWindow (p : Platform) (a : Nat) : Prop := p.regBase.toNat ≤ a ∧ a < windowEnd p

/-- The value of a sample whose first source byte is at an address, as a number (R192). -/
def sampleValue (w : ElementWidth) (o : ByteOrder) (m : Memory) (a : Nat) : Nat :=
  match w, o with
  | .one, _ => (Memory.read m a).toNat
  | .two, .be => 256 * (Memory.read m a).toNat + (Memory.read m (a + 1)).toNat
  | .two, .le => 256 * (Memory.read m (a + 1)).toNat + (Memory.read m a).toNat

/-- The bus accepts a write of each of `len` bytes from an address on (R9). -/
def acceptsWrites (p : Platform) (a len : Nat) : Prop := ∀ k < len, accepts p .write (a + k) = true

/-- The bus accepts a write of the first `k` bytes from an address on and refuses the next (R174). -/
def refusesAt (p : Platform) (a k : Nat) : Prop :=
  acceptsWrites p a k ∧ accepts p .write (a + k) = false

/-- Memory holds the bytes from an address on. -/
def holdsAt (m : Memory) (a : Nat) (bs : List Byte) : Prop :=
  ∀ k b, bs[k]? = some b → Memory.read m (a + k) = b

/-- Two memories read the same at every address outside `a, …, a + len - 1`. -/
def sameOutside (m m' : Memory) (a len : Nat) : Prop :=
  ∀ b, ¬ (a ≤ b ∧ b < a + len) → Memory.read m' b = Memory.read m b

/-- Memory `m'` is `m` with exactly these bytes stored from an address on. -/
def stores (m m' : Memory) (a : Nat) (bs : List Byte) : Prop :=
  holdsAt m' a bs ∧ sameOutside m m' a bs.length

/-- Memory `m'` is what a run that ends leaves of memory `m`: all of it where the host has kept R77, and all
but any value in each output byte where it has not (R77, I3). -/
def leavesMemory (s : State) (stamp : Nat) (m m' : Memory) : Prop :=
  (s.world.disturbed = false → m' = m) ∧
  (s.world.disturbed = true → Memory.wf m → ∀ a, Memory.read m' a =
    if s.cfg.outBase.toNat + 512 ≤ a ∧ a < s.cfg.outBase.toNat + s.cfg.outCap.toNat ∧ a < 2 ^ 32
    then Config.freeByte stamp a else Memory.read m a)

/-- The run of `s` ends in BusError at system address `bad`: the registers FAIL writes, memory `m` (with the
bytes written before the refused one) as the end of the run leaves it, and every other register unchanged
(R266, R270, R273). -/
def endsInBusError (s t : State) (stamp bad : Nat) (m : Memory) : Prop :=
  ∃ m' w, t = { s with
      status := { done := false, err := true, keyframe := false, errCode := 5 }
      errInfo := BitVec.ofNat 32 bad, resultSize := 0, phase := .idle
      mem := m', world := w } ∧
    leavesMemory s stamp m m'

/-! ### Runs -/

/-- The machine's steps, `k` of them. -/
abbrev run (k : Nat) (s : State) : Result := Host.Core.run Sys2Proof.core k s

/-- The state with its known order of turns replaced. -/
def withTurns (ts : List Turn) (s : State) : State :=
  { s with world := { s.world with turns := ts } }

/-- The state after `k` steps of the sequencer have been accounted for, with these turns left. -/
def afterSteps (k : Nat) (ts : List Turn) (s : State) : State :=
  { s with world := { s.world with turns := ts, fresh := s.world.fresh + k } }

/-! ### Registers a phase still needs -/

/-- A later rule of the run reads the register before it is written again (R33-R36). -/
def live : Phase → Latch → Bool
  | .idle, _ => false
  | .check, _ => false
  | .finish, l => l = .dcur
  | .rowBegin, l => l = .z || l = .y || l = .geometry || l = .dcur
  | .fetch, l => l = .z || l = .y || l = .geometry || l = .dcur || l = .rstart
  | .rowEnd, l => l = .z || l = .y || l = .geometry || l = .dcur || l = .rstart
  | .emit, _ => true

/-- Two states that differ at most in registers no later rule reads before they are written: what R290
leaves unspecified. -/
structure SameLive (s t : State) : Prop where
  cfg : t.cfg = s.cfg
  status : t.status = s.status
  resultSize : t.resultSize = s.resultSize
  errInfo : t.errInfo = s.errInfo
  phase : t.phase = s.phase
  mem : t.mem = s.mem
  plat : t.plat = s.plat
  world : t.world = s.world
  z : live s.phase .z = true → t.z = s.z
  y : live s.phase .y = true → t.y = s.y
  x : live s.phase .x = true → t.x = s.x
  geom : live s.phase .geometry = true → t.geom = s.geom
  dcur : live s.phase .dcur = true → t.dcur = s.dcur
  rstart : live s.phase .rstart = true → t.rstart = s.rstart
  sl : live s.phase .scanline = true → t.sl = s.sl

/-- Two answers that are the same stop, or next states that agree on what is live. -/
def SameResult : Result → Result → Prop
  | .next s, .next t => SameLive s t
  | .fault a, .fault b => a = b
  | .refused a, .refused b => a = b
  | _, _ => False

/-! ### The container of a frame (R62, R210-R215) -/

/-- The samples of one scanline, read from memory (R190-R192). -/
def frameLine (c : ConfigRegs) (f : PixelFormat) (m : Memory) (z y : Nat) : List Half :=
  (List.range c.width.toNat).map fun p =>
    BitVec.ofNat 16
      (sampleValue f.width f.order m (srcAddr c f.depth f.width (sourceRow c.height.toNat y) p z))

/-- The encoded scanlines of a frame in table-index order (R212). -/
def frameCodes (pol : ScanPolicy) (c : ConfigRegs) (f : PixelFormat) (m : Memory) :
    List (List Byte) :=
  (List.range (f.depth * c.height.toNat)).map fun i =>
    encodeScanline pol (frameLine c f m (i / c.height.toNat) (i % c.height.toNat)) f.width

/-- The container offsets at which byte strings laid one after another begin (R213, R215). -/
def startsFrom : Nat → List (List Byte) → List Nat
  | _, [] => []
  | o, bs :: rest => o :: startsFrom (o + bs.length) rest

/-- A table of 32-bit big-endian entries (R99). -/
def tableOf (vs : List Nat) : List Byte := vs.flatMap fun v => be32 (BitVec.ofNat 32 v)

/-- What a run writes from container offset 512 on: the offset table, the length table and the encoded
scanlines (R64, R224). -/
def containerBody (pol : ScanPolicy) (c : ConfigRegs) (f : PixelFormat) (m : Memory) : List Byte :=
  let codes := frameCodes pol c f m
  tableOf (startsFrom (dataStart f.depth c.height.toNat) codes)
    ++ tableOf (codes.map List.length) ++ codes.flatten

end Sys2Proof.Machine
end

