-- ==== Sys2Proof/Certificates/Slice0/Obligations.lean ====
section
/-! DEFINITION. Certificates/Slice0/Obligations.lean: the statements for the provers. -/

open Sys2Proof Sys2Proof.Machine

/-! ### Encodings (30_encoding) -/

/-- Decoding the encoding of a well-formed instruction gives it back, whatever bytes follow. -/
def Obligations.DecodeEncodeRoundTrip : Prop :=
  ∀ (i : Instr) (rest : List Byte), i.wf = true →
    decode (formatOf i) (encode i ++ rest) = .ok (i, rest)

/-- Words of the spec's own examples and tables decode to the instructions they stand for. -/
def Obligations.SpecWordsDecode : Prop :=
  decode .ctrl8 [0x04, 0x42] = .ok (.rep8 4 0x42, []) ∧
  decode .ctrl8 [0x83, 0x01, 0x02, 0x03] = .ok (.lit8 3 [1, 2, 3], []) ∧
  decode .ctrl16 [0x00, 0x02, 0x12, 0x34] = .ok (.rep16 2 0x1234, []) ∧
  decode .ctrl16 [0x00, 0x82, 0x00, 0x01, 0x01, 0x00] = .ok (.lit16 2 [0x0001, 0x0100], []) ∧
  decodeKey 0x0400000000 = .ok (.regRead .status) ∧
  decodeKey 0x4000000001 = .ok (.cmdStart false) ∧
  decodeKey 0x4000000003 = .ok (.cmdStart true) ∧
  decodeKey 0x4000000002 = .ok .cmdClear ∧
  decodeKey 0x4000000000 = .ok .ctrlNop ∧
  decodeKey 0x4C00000002 = .ok (.regWrite .width 2)

/-- The key of a register access stands for what R100 and R102 say: a read of the register, a command at
CTRL by data bits 0 and 1 (the other bits ignored), a write of the register; a misaligned offset for
nothing. The sixteen offsets are R21's, written out. -/
def Obligations.AccessKeyTable : Prop :=
  ∀ (off : BitVec 6) (data : Word),
    (∀ r : Reg,
      (off.toNat, r) ∈ [(0x00, .ctrl), (0x04, .status), (0x08, .format), (0x0C, .width), (0x10, .height),
        (0x14, .srcBase), (0x18, .srcStride), (0x1C, .outBase), (0x20, .outCap), (0x24, .intEn),
        (0x28, .reqSizeLo), (0x2C, .reqSizeHi), (0x30, .resultSize), (0x34, .errInfo),
        (0x38, .reserved38), (0x3C, .reserved3C)] →
      r.offset = off ∧
      decodeKey (accessKey false off data) = .ok (.regRead r) ∧
      (r ≠ .ctrl → decodeKey (accessKey true off data) = .ok (.regWrite r data))) ∧
    decodeKey (accessKey true 0 data) = .ok
      (if data.getLsbD 0 = true then .cmdStart (data.getLsbD 1)
        else if data.getLsbD 1 = true then .cmdClear else .ctrlNop) ∧
    (off.toNat % 4 ≠ 0 → ∀ b, decodeKey (accessKey b off data) = .error .misalignedOffset)

/-- The block never emits a control value of R96's table: neither control byte 0x00, 0x01 nor 0x80, nor
such a control word, nor one with a high byte. -/
def Obligations.NeverEmitsReservedControl : Prop :=
  ∀ (s : State) (i : Instr) (g : Geometry), chosenPacket s = .ok i → s.geom = some g →
    (g.width = .one → ∃ c bs, encode i = c :: bs ∧ c ≠ 0x00 ∧ c ≠ 0x01 ∧ c ≠ 0x80) ∧
    (g.width = .two → ∃ c bs, encode i = 0x00 :: c :: bs ∧ c ≠ 0x00 ∧ c ≠ 0x01 ∧ c ≠ 0x80)

/-! ### A step runs the instruction -/

/-- A word access of the host at a window address whose key decodes to an instruction: the step is the
meaning of that instruction, with the line of the script and the turn taken and the step counted. -/
def Obligations.StepRunsHostAccess : Prop :=
  ∀ (s : State) (a : Nat) (data : Word) (rest : List HostOp) (off : BitVec 6) (i : Instr),
    nextTurn s = .host → windowOffset s.plat a = some off →
    ((s.world.script = .wr a .word data :: rest → decodeKey (accessKey true off data) = .ok i →
        step s = exec i (withScript rest (tick s))) ∧
     (s.world.script = .rd a .word :: rest → decodeKey (accessKey false off 0) = .ok i →
        step s = exec i (withScript rest (tick s))))

/-- In phase EMIT the sequencer's step is the meaning of the packet the run detector chooses, with the
turn taken and the step counted. -/
def Obligations.StepRunsChosenPacket : Prop :=
  ∀ (s : State) (i : Instr), nextTurn s = .sequencer → s.phase = .emit → chosenPacket s = .ok i →
    step s = exec i (tick s)

/-- A register access placed by `withFetchWord` (the MODEL's, log 11) is the very next step. -/
def Obligations.PlacedAccessRunsNext : Prop :=
  ∀ (s : State) (w : Nat) (i : Instr), w < 2 ^ 39 → decodeTableWord 40 w = some i →
    step (State.withFetchWord s 40 w) = exec i (afterSteps 1 s.world.turns s)

/-! ### Register access (45_host_commands, 10_state) -/

/-- REG_READ completes for every register in every state and changes no state of the block, only the word the
host received: 0 for CTRL and the reserved offsets, the stored value for each stored register. The model's own
mark of what the host has seen (log 31) changes only on a read of STATUS with BUSY = 0. -/
def Obligations.RegReadAnswersValue : Prop :=
  ∀ (r : Reg) (s : State), ∃ (v : Word) (w : World),
    exec (.regRead r) s = .next { s with world := { w with hostData := v } } ∧
    w = { s.world with unseen := w.unseen } ∧
    (¬ (r = .status ∧ s.phase = .idle) → w = s.world) ∧
    (r = .ctrl ∨ r = .reserved38 ∨ r = .reserved3C → v = 0) ∧
    (r = .format → v.toNat = s.cfg.fmt.toNat) ∧
    (r = .width → v = s.cfg.width) ∧ (r = .height → v = s.cfg.height) ∧
    (r = .srcBase → v = s.cfg.srcBase) ∧ (r = .srcStride → v = s.cfg.srcStride) ∧
    (r = .outBase → v = s.cfg.outBase) ∧ (r = .outCap → v = s.cfg.outCap) ∧
    (r = .intEn → v = if s.cfg.intEn = true then 1 else 0) ∧
    (r = .resultSize → v = s.resultSize) ∧ (r = .errInfo → v = s.errInfo)

/-- A read of STATUS answers its fields: BUSY while the phase is not IDLE, DONE, ERR, KEYFRAME, ERRCODE,
and 0 in the reserved bits. It changes no state of the block. -/
def Obligations.StatusWordFields : Prop :=
  ∀ s : State, ∃ (v : Word) (w : World),
    exec (.regRead .status) s = .next { s with world := { w with hostData := v } } ∧
    (v.getLsbD 0 = true ↔ s.phase ≠ .idle) ∧ v.getLsbD 1 = s.status.done ∧
    v.getLsbD 2 = s.status.err ∧ v.getLsbD 3 = s.status.keyframe ∧
    v.extractLsb' 4 4 = 0 ∧ v.extractLsb' 8 4 = s.status.errCode ∧ v.extractLsb' 12 20 = 0

/-- REQ_SIZE_HI and REQ_SIZE_LO read as the size bound of the current FORMAT, WIDTH and HEIGHT, exactly, with
`D` and `B` of each of the nine formats written out; both read 0 where one of them is illegal, as after
reset; a write at either changes nothing. -/
def Obligations.ReqSizeReadsBound : Prop :=
  ∀ s : State, ∃ lo hi : Word,
    exec (.regRead .reqSizeLo) s = .next { s with world := { s.world with hostData := lo } } ∧
    exec (.regRead .reqSizeHi) s = .next { s with world := { s.world with hostData := hi } } ∧
    (∀ D B : Nat,
      (s.cfg.fmt.toNat, D, B) ∈ [(0, 1, 1), (1, 3, 1), (2, 4, 1), (3, 1, 2), (4, 1, 2), (5, 3, 2),
        (6, 3, 2), (7, 4, 2), (8, 4, 2)] →
      1 ≤ s.cfg.width.toNat → s.cfg.width.toNat ≤ 65535 →
      1 ≤ s.cfg.height.toNat → s.cfg.height.toNat ≤ 65535 →
      2 ^ 32 * hi.toNat + lo.toNat
          = 512 + 2 * (4 * D * s.cfg.height.toNat)
            + D * s.cfg.height.toNat * (2 * s.cfg.width.toNat + 1) * B ∧
        2 ^ 32 * hi.toNat + lo.toNat ≤ 68720001512) ∧
    (¬ (s.cfg.fmt.toNat ≤ 8 ∧ 1 ≤ s.cfg.width.toNat ∧ s.cfg.width.toNat ≤ 65535 ∧
        1 ≤ s.cfg.height.toNat ∧ s.cfg.height.toNat ≤ 65535) → lo = 0 ∧ hi = 0) ∧
    (s.cfg = State.reset.cfg → lo = 0 ∧ hi = 0) ∧
    ∀ v, exec (.regWrite .reqSizeLo v) s = .next s ∧ exec (.regWrite .reqSizeHi v) s = .next s

/-- The size bound of a legal configuration lies between 523 and 68 720 001 512, both are reached, and a
bound above the largest 32-bit value never passes the capacity check. -/
def Obligations.SizeBoundRange : Prop :=
  (∀ c f, legalFormat c = some f →
    523 ≤ sizeBound f c.width.toNat c.height.toNat ∧
    sizeBound f c.width.toNat c.height.toNat ≤ 68720001512 ∧
    (2 ^ 32 - 1 < sizeBound f c.width.toNat c.height.toNat →
      c.outCap.toNat < sizeBound f c.width.toNat c.height.toNat)) ∧
  (∃ c f, legalFormat c = some f ∧ f.depth = 1 ∧ f.width = .one ∧ c.width = 1 ∧ c.height = 1 ∧
    sizeBound f c.width.toNat c.height.toNat = 523) ∧
  (∃ c f, legalFormat c = some f ∧ f.depth = 4 ∧ f.width = .two ∧ c.width = 65535 ∧
    c.height = 65535 ∧ sizeBound f c.width.toNat c.height.toNat = 68720001512)

/-- Reserved offsets read 0 and ignore writes; the reserved bits of CTRL, FORMAT, INTEN and STATUS read 0
whatever is written, and a write at CTRL ignores data bits 31:2. -/
def Obligations.ReservedReadsZero : Prop :=
  ∀ (s t : State) (r : Reg) (v v' : Word),
    (r = .reserved38 ∨ r = .reserved3C →
      exec (.regRead r) s = .next { s with world := { s.world with hostData := 0 } } ∧
      exec (.regWrite r v) s = .next s) ∧
    (exec (.regWrite r v) s = .next t →
      ∃ (fmt inten status : Word) (w : World),
        exec (.regRead .format) t = .next { t with world := { t.world with hostData := fmt } } ∧
        exec (.regRead .intEn) t = .next { t with world := { t.world with hostData := inten } } ∧
        exec (.regRead .status) t = .next { t with world := { w with hostData := status } } ∧
        fmt.extractLsb' 4 28 = 0 ∧ inten.extractLsb' 1 31 = 0 ∧
        status.extractLsb' 4 4 = 0 ∧ status.extractLsb' 12 20 = 0) ∧
    exec (.regRead .ctrl) s = .next { s with world := { s.world with hostData := 0 } } ∧
    (v.extractLsb' 0 2 = v'.extractLsb' 0 2 →
      decodeKey (accessKey true 0 v) = decodeKey (accessKey true 0 v'))

/-- REG_WRITE while idle: each configuration register takes the value (FORMAT its low four bits, INTEN its
low bit), a write at any other register but CTRL changes nothing, and no value is rejected. While BUSY
every such write changes nothing. -/
def Obligations.RegWriteEffect : Prop :=
  ∀ (v : Word) (s : State),
    (busy s = true → ∀ r, r ≠ .ctrl → exec (.regWrite r v) s = .next s) ∧
    (busy s = false →
      exec (.regWrite .format v) s = .next { s with cfg := { s.cfg with fmt := v.setWidth 4 } } ∧
      exec (.regWrite .width v) s = .next { s with cfg := { s.cfg with width := v } } ∧
      exec (.regWrite .height v) s = .next { s with cfg := { s.cfg with height := v } } ∧
      exec (.regWrite .srcBase v) s = .next { s with cfg := { s.cfg with srcBase := v } } ∧
      exec (.regWrite .srcStride v) s = .next { s with cfg := { s.cfg with srcStride := v } } ∧
      exec (.regWrite .outBase v) s = .next { s with cfg := { s.cfg with outBase := v } } ∧
      exec (.regWrite .outCap v) s = .next { s with cfg := { s.cfg with outCap := v } } ∧
      exec (.regWrite .intEn v) s = .next { s with cfg := { s.cfg with intEn := v.getLsbD 0 } } ∧
      ∀ r, r = .status ∨ r = .reqSizeLo ∨ r = .reqSizeHi ∨ r = .resultSize ∨ r = .errInfo ∨
        r = .reserved38 ∨ r = .reserved3C → exec (.regWrite r v) s = .next s)

/-- While BUSY a register write changes nothing, and no step but reset changes a configuration register. -/
def Obligations.ConfigFrozenWhileBusy : Prop :=
  ∀ s : State, busy s = true →
    (∀ (r : Reg) (v : Word), r ≠ .ctrl → exec (.regWrite r v) s = .next s) ∧
    (∀ t, step s = .next t → nextTurn s ≠ .reset → t.cfg = s.cfg)

/-- No step changes the platform's parameters, which are arguments of the model. -/
def Obligations.StepKeepsPlatform : Prop :=
  ∀ s t : State, step s = .next t → t.plat = s.plat

/-- CMD_START, with or without the CLEAR bit: ignored while BUSY; while idle, where the launch is not one
that R78 leaves unspecified, it clears the results and the next micro-operation is CHECK. (That the
model's mark `disturbed` is cleared is the MODEL's, log 8.) -/
def Obligations.StartBeginsRun : Prop :=
  ∀ (clear : Bool) (s : State),
    (busy s = true → exec (.cmdStart clear) s = .next s) ∧
    (busy s = false → launchOverlaps s.plat s.cfg = false →
      exec (.cmdStart clear) s = .next { s with
        status := { done := false, err := false, keyframe := false, errCode := 0 }
        resultSize := 0, errInfo := 0, phase := .check
        world := { s.world with disturbed := false } })

/-- A CTRL write with both bits set is CLEAR and then START, with the effect of START alone; while BUSY it
is ignored. -/
def Obligations.ClearThenStart : Prop :=
  ∀ s : State,
    (busy s = false → ∃ u, exec .cmdClear s = .next u ∧
      exec (.cmdStart true) s = exec (.cmdStart false) u ∧
      exec (.cmdStart true) s = exec (.cmdStart false) s) ∧
    (busy s = true → exec (.cmdStart true) s = .next s)

/-- CMD_CLEAR: ignored while BUSY; while idle it clears STATUS, RESULT_SIZE and ERR_INFO and nothing
else. -/
def Obligations.ClearClearsResults : Prop :=
  ∀ s : State,
    (busy s = true → exec .cmdClear s = .next s) ∧
    (busy s = false → exec .cmdClear s = .next { s with
      status := { done := false, err := false, keyframe := false, errCode := 0 }
      resultSize := 0, errInfo := 0 })

/-- A CTRL write with both command bits 0 does nothing, and CTRL reads 0. -/
def Obligations.CtrlNopDoesNothing : Prop :=
  ∀ s : State, exec .ctrlNop s = .next s ∧
    exec (.regRead .ctrl) s = .next { s with world := { s.world with hostData := 0 } }

/-- CMD_START while idle is refused exactly where CHECK would pass and a source byte of the frame lies in
`[OUT_BASE + 512, OUT_BASE + REQ_SIZE)`, or, whatever CHECK would say, the register window meets the output
buffer or a source byte of a legal format and resolution (R78; how its words are read is the MODEL's, log 9). -/
def Obligations.OverlappingLaunchRefused : Prop :=
  ∀ (clear : Bool) (s : State), busy s = false →
    (exec (.cmdStart clear) s = .refused .overlappingLaunch ↔
      ∃ a < 2 ^ 32,
        (inWindow s.plat a ∧ s.cfg.outBase.toNat ≤ a ∧
          a < s.cfg.outBase.toNat + s.cfg.outCap.toNat) ∨
        ∃ f, legalFormat s.cfg = some f ∧ isFrameByte s.cfg f a ∧
          (inWindow s.plat a ∨
            (sizeBound f s.cfg.width.toNat s.cfg.height.toNat ≤ s.cfg.outCap.toNat ∧
              s.cfg.outBase.toNat + 512 ≤ a ∧
              a < s.cfg.outBase.toNat + sizeBound f s.cfg.width.toNat s.cfg.height.toNat)))

/-- A register access of another width than a word, or at an address of the window that is no multiple of
4 from REG_BASE, is refused. -/
def Obligations.OtherAccessesRefused : Prop :=
  ∀ (s : State) (a : Nat) (w : AccessWidth) (data : Word) (rest : List HostOp),
    nextTurn s = .host → inWindow s.plat a →
    (w ≠ .word ∨ (a - s.plat.regBase.toNat) % 4 ≠ 0) →
    (s.world.script = .wr a w data :: rest → ∃ r, step s = .refused r) ∧
    (s.world.script = .rd a w :: rest → ∃ r, step s = .refused r)

/-! ### Whole-machine rules about commands -/

/-- A host step while BUSY leaves the run as it is: phase, indices, geometry, cursors, scanline, status
and results. A sequencer step that leaves the run ends it as done or as an error. Only reset ends it
otherwise. -/
def Obligations.NoCommandStopsRun : Prop :=
  ∀ s t : State, busy s = true → step s = .next t →
    (nextTurn s = .host → t = { s with mem := t.mem, world := t.world }) ∧
    (busy t = false → nextTurn s = .reset ∨ t.status.done = true ∨ t.status.err = true)

/-- The block leaves IDLE only on a word write at CTRL with data bit 0 set; a sequencer step in IDLE
changes no register. -/
def Obligations.OnlyStartLeavesIdle : Prop :=
  ∀ s t : State, s.phase = .idle → step s = .next t →
    (t.phase ≠ .idle → nextTurn s = .host ∧ ∃ data rest, data.getLsbD 0 = true ∧
      s.world.script = .wr s.plat.regBase.toNat .word data :: rest) ∧
    (nextTurn s = .sequencer → t = { s with world := t.world })

/-- No error is raised while IDLE, and none by a host step: ERR rises only in a sequencer step of a run,
and that step ends the run, with RESULT_SIZE 0. -/
def Obligations.ErrorsOnlyFromRun : Prop :=
  ∀ s t : State, step s = .next t → s.status.err = false → t.status.err = true →
    nextTurn s = .sequencer ∧ s.phase ≠ .idle ∧ t.phase = .idle ∧ t.resultSize = 0

/-- The interrupt level through a run: low while BUSY, high after FINISH or an error exactly where
INTEN.EN is 1, low again after CLEAR, after START, and after a write of 0 to INTEN while idle. -/
def Obligations.InterruptLevel : Prop :=
  ∀ s t : State, Inv s →
    (busy s = true → irq s = false) ∧
    (busy s = true → nextTurn s = .sequencer → step s = .next t → busy t = false →
      irq t = s.cfg.intEn) ∧
    (busy s = false →
      (exec .cmdClear s = .next t → irq t = false) ∧
      (∀ c, exec (.cmdStart c) s = .next t → irq t = false) ∧
      (exec (.regWrite .intEn 0) s = .next t → irq t = false ∧ t.status = s.status))

/-! ### CHECK (40_format_and_bound) -/

/-- CHECK reports the first of its errors that applies, format, then resolution, then capacity, with its
code; ERR_INFO and RESULT_SIZE are 0, the phase is IDLE, and no other register and no memory changes. That `D`, `B`,
`SE` and `T` are not latched by a CHECK that raises OutOfMemory is the MODEL's choice (log 23): R127's pseudocode
writes them before that raise, and I7 leaves them unspecified after it. -/
def Obligations.CheckErrorPriority : Prop :=
  ∀ s : State, nextTurn s = .sequencer → s.phase = .check →
    let c := s.cfg
    let badFormat := 8 < c.fmt.toNat
    let badSize := c.width.toNat = 0 ∨ 65535 < c.width.toNat ∨ c.height.toNat = 0 ∨
      65535 < c.height.toNat
    let failsWith := fun code : BitVec 4 =>
      ∃ w, step s = .next { s with
        status := { done := false, err := true, keyframe := false, errCode := code }
        errInfo := 0, resultSize := 0, phase := .idle, world := w }
    (badFormat → failsWith 1) ∧
    (¬ badFormat → badSize → failsWith 2) ∧
    (¬ badFormat → ¬ badSize →
      (∃ f, formatRow c.fmt = some f ∧
        c.outCap.toNat < sizeBound f c.width.toNat c.height.toNat) → failsWith 3)

/-- CHECK passes a legal configuration whose capacity reaches the bound: it latches D, B, SE and T, sets
`dcur` to the start of the pixel data and the indices to 0, and goes to ROW_BEGIN, with no entry of the scanline in
SL yet. D and B are written out
for each of the nine formats, SE for the six whose samples have two bytes. -/
def Obligations.CheckPasses : Prop :=
  ∀ (s : State) (D : Nat) (B : ElementWidth), nextTurn s = .sequencer → s.phase = .check →
    (s.cfg.fmt.toNat, D, B) ∈ [(0, 1, .one), (1, 3, .one), (2, 4, .one), (3, 1, .two), (4, 1, .two),
      (5, 3, .two), (6, 3, .two), (7, 4, .two), (8, 4, .two)] →
    1 ≤ s.cfg.width.toNat → s.cfg.width.toNat ≤ 65535 →
    1 ≤ s.cfg.height.toNat → s.cfg.height.toNat ≤ 65535 →
    512 + 2 * (4 * D * s.cfg.height.toNat)
      + D * s.cfg.height.toNat * (2 * s.cfg.width.toNat + 1) * elementBytes B ≤ s.cfg.outCap.toNat →
    ∃ (d : Word) (order : ByteOrder), d.toNat = 512 + 2 * (4 * D * s.cfg.height.toNat) ∧
      (s.cfg.fmt.toNat ∈ [3, 5, 7] → order = .le) ∧ (s.cfg.fmt.toNat ∈ [4, 6, 8] → order = .be) ∧
      step s = .next { tick s with
        geom := some ⟨D, B, order, 4 * D * s.cfg.height.toNat⟩
        dcur := some d, z := some 0, y := some 0, sl := [], phase := .rowBegin }

/-- CHECK neither reads nor writes memory: it answers the same over any memory, which it leaves as it is;
ROW_BEGIN is reached only from a CHECK that succeeded, from a ROW_END, or from itself. -/
def Obligations.CheckTouchesNoMemory : Prop :=
  ∀ s t : State,
    (nextTurn s = .sequencer → s.phase = .check → step s = .next t →
      ∀ m, step { s with mem := m } = .next { t with mem := m }) ∧
    (step s = .next t → t.phase = .rowBegin → s.phase ≠ .rowBegin → s.phase ≠ .rowEnd →
      nextTurn s = .sequencer ∧ s.phase = .check ∧ ∃ f, legalFormat s.cfg = some f ∧
        sizeBound f s.cfg.width.toNat s.cfg.height.toNat ≤ s.cfg.outCap.toNat)

/-! ### ROW_BEGIN, FETCH, ROW_END, FINISH (43_scanline_fetch, 44_table_builder) -/

/-- ROW_BEGIN stores `dcur`, most significant byte first, at the offset entry of index `z*H + y`,
remembers it in `rstart`, and goes to FETCH; everything else is unchanged. Where the bus refuses a byte of
the entry, the bytes before it are stored and the run ends in BusError with that address. If the host broke
R77 in this run, memory then takes a free value in each output byte: that is the MODEL's choice for R77's "any
value" (logs 7, 8). -/
def Obligations.RowBeginWritesOffset : Prop :=
  ∀ (s : State) (z : BitVec 2) (y : BitVec 16) (d : Word), nextTurn s = .sequencer →
    s.phase = .rowBegin → Memory.wf s.mem → s.z = some z → s.y = some y → s.dcur = some d →
    let a := s.cfg.outBase.toNat + (512 + 4 * (z.toNat * s.cfg.height.toNat + y.toNat))
    let entry := [d.extractLsb' 24 8, d.extractLsb' 16 8, d.extractLsb' 8 8, d.extractLsb' 0 8]
    (acceptsWrites s.plat a 4 →
      ∃ m, step s = .next { tick s with mem := m, rstart := some d, phase := .fetch } ∧
        stores s.mem m a entry) ∧
    ∀ k < 4, refusesAt s.plat a k →
      ∃ m t, step s = .next t ∧ Memory.wf m ∧ stores s.mem m a (entry.take k) ∧
        endsInBusError s t (s.world.fresh + 1) (a + k) m

/-- ROW_END stores `dcur - rstart`, most significant byte first, at the length entry of index `z*H + y`,
then goes to the next row, to the next channel's first row, or to FINISH; SL holds no entry of the next scanline,
and everything else is unchanged.
Where the bus refuses a byte of the entry, the bytes before it are stored and the run ends in BusError with
that address. If the host broke R77 in this run, memory then takes a free value in each output byte: that is
the MODEL's choice for R77's "any value" (logs 7, 8). -/
def Obligations.RowEndWritesLength : Prop :=
  ∀ (s : State) (g : Geometry) (z : BitVec 2) (y : BitVec 16) (d r : Word),
    nextTurn s = .sequencer → s.phase = .rowEnd → Memory.wf s.mem → s.geom = some g →
    s.z = some z → s.y = some y → s.dcur = some d → s.rstart = some r →
    r.toNat ≤ d.toNat → s.cfg.height.toNat ≤ 65535 → g.depth ≤ 4 →
    let a := s.cfg.outBase.toNat
      + (512 + g.tableBytes + 4 * (z.toNat * s.cfg.height.toNat + y.toNat))
    ∃ v : Word, v.toNat = d.toNat - r.toNat ∧
      let entry := [v.extractLsb' 24 8, v.extractLsb' 16 8, v.extractLsb' 8 8, v.extractLsb' 0 8]
      (acceptsWrites s.plat a 4 →
        ∃ (m : Memory) (z' : BitVec 2) (y' : BitVec 16) (ph : Phase),
          step s = .next { tick s with
            mem := m, z := some z', y := some y', sl := [], phase := ph } ∧
          stores s.mem m a entry ∧
          (y.toNat + 1 < s.cfg.height.toNat →
            z' = z ∧ y'.toNat = y.toNat + 1 ∧ ph = .rowBegin) ∧
          (¬ y.toNat + 1 < s.cfg.height.toNat → z.toNat + 1 < g.depth →
            z'.toNat = z.toNat + 1 ∧ y' = 0 ∧ ph = .rowBegin) ∧
          (¬ y.toNat + 1 < s.cfg.height.toNat → ¬ z.toNat + 1 < g.depth →
            z' = z ∧ y' = y ∧ ph = .finish)) ∧
      ∀ k < 4, refusesAt s.plat a k →
        ∃ m t, step s = .next t ∧ Memory.wf m ∧ stores s.mem m a (entry.take k) ∧
          endsInBusError s t (s.world.fresh + 1) (a + k) m

/-- FETCH, where every source byte is accepted: `SL` holds `W` samples, `x` is 0, the phase EMIT, and
everything else is unchanged. Where the host has kept R77 in this run the samples are those of channel `z`
of source row `H - 1 - y` in pixel order, each assembled by the source's byte order. -/
def Obligations.FetchReadsScanline : Prop :=
  ∀ (s : State) (g : Geometry) (z : BitVec 2) (y : BitVec 16), nextTurn s = .sequencer →
    s.phase = .fetch → s.geom = some g → s.z = some z → s.y = some y →
    let row := s.cfg.height.toNat - 1 - y.toNat
    let addr := fun p => s.cfg.srcBase.toNat + row * s.cfg.srcStride.toNat
      + (p * g.depth + z.toNat) * elementBytes g.width
    (∀ p < s.cfg.width.toNat, ∀ k < elementBytes g.width,
      accepts s.plat .read (addr p + k) = true) →
    ∃ vs : List Half,
      step s = .next { tick s with sl := vs, x := some 0, phase := .emit } ∧
      vs.length = s.cfg.width.toNat ∧
      (s.world.disturbed = false → ∀ p < s.cfg.width.toNat, ∃ v, vs[p]? = some v ∧
        v.toNat = sampleValue g.width g.order s.mem (addr p))

/-- FETCH takes BusError at the first refused source byte, in pixel order and then in byte order: ERR_INFO
is its address mod 2^32, and the run is over. FETCH writes no memory; if the host broke R77 in this run, memory
takes a free value in each output byte as the run ends, which is the MODEL's choice for R77's "any value"
(logs 7, 8). -/
def Obligations.FetchBusError : Prop :=
  ∀ (s : State) (g : Geometry) (z : BitVec 2) (y : BitVec 16) (p k : Nat),
    nextTurn s = .sequencer → s.phase = .fetch → s.geom = some g → s.z = some z → s.y = some y →
    p < s.cfg.width.toNat → k < elementBytes g.width →
    let addr := fun q => srcAddr s.cfg g.depth g.width (s.cfg.height.toNat - 1 - y.toNat) q z.toNat
    (∀ q < p, ∀ j < elementBytes g.width, accepts s.plat .read (addr q + j) = true) →
    (∀ j < k, accepts s.plat .read (addr p + j) = true) →
    accepts s.plat .read (addr p + k) = false →
    ∃ vs t, step s = .next t ∧
      endsInBusError { s with sl := vs } t (s.world.fresh + 1) (addr p + k) s.mem

/-- FINISH reports the data cursor in RESULT_SIZE and sets DONE and KEYFRAME; the phase is IDLE, and no
other register changes. Memory keeps what the run wrote. If the host broke R77 in this run, RESULT_SIZE and
STATUS are the same, and memory takes a free value in each output byte: that is the MODEL's choice for R77's
"any value" (logs 7, 8). -/
def Obligations.FinishReportsSize : Prop :=
  ∀ (s : State) (d : Word), nextTurn s = .sequencer → s.phase = .finish → s.dcur = some d →
    ∃ m w, step s = .next { s with
        resultSize := d
        status := { done := true, err := false, keyframe := true, errCode := 0 }
        phase := .idle, mem := m, world := w } ∧
      leavesMemory s (s.world.fresh + 1) s.mem m

/-! ### The packet emitter (42_packet_emitter) -/

/-- EMIT_REPEAT (REP8, REP16): where the detector chooses the packet, there is room for it and the bus
accepts its bytes, the control element and one sample element are stored at `OUT_BASE + dcur`, `dcur`
grows by `2*B` and `x` by the count, and the phase is ROW_END at the end of the scanline, else EMIT. -/
def Obligations.EmitRepeatStoresPacket : Prop :=
  ∀ (s : State) (d : Word) (x : BitVec 16) (n : BitVec 7), s.phase = .emit → Memory.wf s.mem →
    s.dcur = some d → s.x = some x →
    let a := s.cfg.outBase.toNat + d.toNat
    let emits := fun (i : Instr) (bs : List Byte) =>
      chosenPacket s = .ok i → d.toNat + bs.length ≤ s.cfg.outCap.toNat →
      acceptsWrites s.plat a bs.length →
      ∃ m, exec i s = .next { s with
          mem := m
          dcur := some (d + BitVec.ofNat 32 bs.length)
          x := some (x + n.setWidth 16)
          phase := if x.toNat + n.toNat = s.cfg.width.toNat then .rowEnd else .emit } ∧
        stores s.mem m a bs
    (∀ v : Byte, emits (.rep8 n v) [n.setWidth 8, v]) ∧
    (∀ v : Half,
      emits (.rep16 n v) [0x00, n.setWidth 8, v.extractLsb' 8 8, v.extractLsb' 0 8])

/-- EMIT_LITERAL (LIT8, LIT16): where the detector chooses the packet, there is room for it and the bus
accepts its bytes, the control element and the samples in order are stored at `OUT_BASE + dcur`, `dcur`
grows by `(1 + n)*B` and `x` by the count, and the phase is ROW_END at the end of the scanline, else
EMIT. -/
def Obligations.EmitLiteralStoresPacket : Prop :=
  ∀ (s : State) (d : Word) (x : BitVec 16) (n : BitVec 7), s.phase = .emit → Memory.wf s.mem →
    s.dcur = some d → s.x = some x →
    let a := s.cfg.outBase.toNat + d.toNat
    let emits := fun (i : Instr) (bs : List Byte) (len : Nat) =>
      chosenPacket s = .ok i → d.toNat + len ≤ s.cfg.outCap.toNat →
      acceptsWrites s.plat a len →
      bs.length = len ∧
      ∃ m, exec i s = .next { s with
          mem := m
          dcur := some (d + BitVec.ofNat 32 len)
          x := some (x + n.setWidth 16)
          phase := if x.toNat + n.toNat = s.cfg.width.toNat then .rowEnd else .emit } ∧
        stores s.mem m a bs
    (∀ vs : List Byte, emits (.lit8 n vs) ((0x80 + n.setWidth 8) :: vs) (1 + n.toNat)) ∧
    (∀ vs : List Half,
      emits (.lit16 n vs)
        (0x00 :: (0x80 + n.setWidth 8)
          :: vs.flatMap fun v => [v.extractLsb' 8 8, v.extractLsb' 0 8])
        ((1 + n.toNat) * 2))

/-- A packet without room raises OutputBufferExhausted before any byte is written: ERR_INFO is `dcur`, `dcur`
and `x` are unchanged. The packet writes no memory; if the host broke R77 in this run, memory takes a free value
in each output byte as the run ends, which is the MODEL's choice for R77's "any value" (logs 7, 8). -/
def Obligations.PacketExhaustsBuffer : Prop :=
  ∀ (s : State) (i : Instr) (d : Word), s.phase = .emit → chosenPacket s = .ok i →
    s.dcur = some d → s.cfg.outCap.toNat < d.toNat + (encode i).length →
    ∃ m w, exec i s = .next { s with
        status := { done := false, err := true, keyframe := false, errCode := 4 }
        errInfo := d, resultSize := 0, phase := .idle, mem := m, world := w } ∧
      leavesMemory s s.world.fresh s.mem m

/-- A BusError inside a packet leaves the bytes before the refused one written and the rest unwritten:
ERR_INFO is the refused address mod 2^32, and `dcur` and `x` are not advanced. That is memory as the packet
leaves it; if the host broke R77 in this run, memory then takes a free value in each output byte as the run
ends, which is the MODEL's choice for R77's "any value" (logs 7, 8). -/
def Obligations.PacketBusErrorIsPrecise : Prop :=
  ∀ (s : State) (i : Instr) (d : Word) (k : Nat), s.phase = .emit → Memory.wf s.mem →
    chosenPacket s = .ok i → s.dcur = some d →
    d.toNat + (encode i).length ≤ s.cfg.outCap.toNat → k < (encode i).length →
    let a := s.cfg.outBase.toNat + d.toNat
    refusesAt s.plat a k →
    ∃ m t, exec i s = .next t ∧ Memory.wf m ∧ stores s.mem m a ((encode i).take k) ∧
      endsInBusError s t s.world.fresh (a + k) m

/-! ### The run detector (41_run_detector) -/

/-- `countRepeat(x)` is the number of consecutive identical samples from `x` on, at most 127 and at most
the samples remaining. -/
def Obligations.CountRepeatIsLongest : Prop :=
  ∀ (sl : List Half) (x : Nat), x < sl.length →
    let m := min 127 (sl.length - x)
    let r := countRepeat sl sl.length x
    1 ≤ r ∧ r ≤ m ∧ (∀ j < r, sl[x + j]? = sl[x]?) ∧ (r < m → sl[x + r]? ≠ sl[x]?)

/-- `countLiteral(x)` under DOC takes samples up to, not including, the first start of a repeatable run
after `x`, at most 127 and at most the samples remaining. -/
def Obligations.CountLiteralDocStopsAtRun : Prop :=
  ∀ (sl : List Half) (x : Nat), x < sl.length → countRepeat sl sl.length x < 2 →
    let m := min 127 (sl.length - x)
    let l := countLiteralDoc sl sl.length x
    let runStart := fun p => p + 1 < sl.length ∧ sl[p]? = sl[p + 1]?
    1 ≤ l ∧ l ≤ m ∧ (∀ j < l, ¬ runStart (x + j)) ∧ (l < m → runStart (x + l))

/-- `countLiteral(x)` under UPSTREAM (the option the spec marks as general knowledge, log 18) takes `M`
samples, or stops before the first identical pair inside the limit that is not, for one-byte samples,
isolated. With that policy `l` is the count of the literal packet the detector answers. -/
def Obligations.CountLiteralUpstreamStops : Prop :=
  ∀ (sl : List Half) (w : ElementWidth) (x : Nat), x < sl.length →
    countRepeat sl sl.length x < 2 →
    let m := min 127 (sl.length - x)
    let l := countLiteralUpstream sl w sl.length x
    let stops := fun c => sl[x + c - 1]? = sl[x + c]? ∧
      ¬ (w = .one ∧ c + 1 < m ∧ sl[x + c]? ≠ sl[x + c + 1]?)
    detect .upstream sl w sl.length x = (.lit, l) ∧
    1 ≤ l ∧ l ≤ m ∧ (∀ c, 1 ≤ c → c < m → c ≤ l → ¬ stops c) ∧
      (l < m → l + 1 < m ∧ stops (l + 1))

/-- DOC packets: a repeat packet of fewer than 127 samples is followed by a sample that differs from its
own; a literal packet of fewer than 127 that does not end the scanline is followed by a repeat packet; no
two adjacent samples of a literal packet are identical, nor its last and the one after it. -/
def Obligations.DocPacketProperties : Prop :=
  ∀ (w : ElementWidth) (sl : List Half) (x : Nat), x < sl.length →
    let n := (detect .doc sl w sl.length x).2
    ((detect .doc sl w sl.length x).1 = .rep → n < 127 → x + n < sl.length → sl[x + n]? ≠ sl[x]?) ∧
    ((detect .doc sl w sl.length x).1 = .lit →
      (n < 127 → x + n < sl.length → (detect .doc sl w sl.length (x + n)).1 = .rep) ∧
      ∀ j < n, x + j + 1 < sl.length → sl[x + j]? ≠ sl[x + j + 1]?)

/-- What the encoder writes for a scanline, read packet by packet, is the scanline: its packets cover the
samples exactly once, in order, with no terminator, under both scan policies. -/
def Obligations.EncodedLineReadsBack : Prop :=
  ∀ (p : ScanPolicy) (w : ElementWidth) (sl : List Half),
    (w = .one → ∀ v ∈ sl, v.toNat < 256) →
    readLine w sl.length (encodeScanline p sl w) = some sl

/-- The encoding of a scanline of `W` samples, at least one, has between `2*B` and `2*W*B` bytes, under
both scan policies. -/
def Obligations.EncodedLineLength : Prop :=
  ∀ (p : ScanPolicy) (w : ElementWidth) (sl : List Half), sl ≠ [] →
    2 * elementBytes w ≤ (encodeScanline p sl w).length ∧
    (encodeScanline p sl w).length ≤ 2 * sl.length * elementBytes w

/-- DOC length laws: `L` identical samples take `2*B*ceil(L/127)` bytes; `L` samples no two adjacent of
which are identical take `(L + ceil(L/127))*B`. -/
def Obligations.EncodedLineLengthLaws : Prop :=
  ∀ (w : ElementWidth),
    (∀ (v : Half) (l : Nat), 1 ≤ l →
      (encodeScanline .doc (List.replicate l v) w).length = 2 * elementBytes w * ((l + 126) / 127)) ∧
    (∀ sl : List Half, sl ≠ [] → (∀ j, j + 1 < sl.length → sl[j]? ≠ sl[j + 1]?) →
      (encodeScanline .doc sl w).length
        = (sl.length + (sl.length + 126) / 127) * elementBytes w)

/-! ### Reset (70_reset_and_hazards) -/

/-- The reset input puts every register of the block at its reset value, at once and in any phase, with
neither DONE nor ERR set, and leaves the platform as it is. It leaves memory as it is in IDLE; while BUSY at
most the write of the micro-operation it abandons has changed memory, in a run that the host left
undisturbed; and in a legal state nothing outside the output has changed. -/
def Obligations.ResetRestoresRegisters : Prop :=
  ∀ s : State, nextTurn s = .reset →
    ∃ m w, step s = .next { State.reset with mem := m, plat := s.plat, world := w } ∧
      (busy s = false → m = s.mem) ∧
      (s.world.disturbed = false → Memory.wf s.mem → ∀ a,
        (∀ b bs, pendingWrite s = some (b, bs) → ¬ (b ≤ a ∧ a < b + bs.length)) →
        Memory.read m a = Memory.read s.mem a) ∧
      (Inv s → ∀ a,
        ¬ (s.cfg.outBase.toNat + 512 ≤ a ∧ a < s.cfg.outBase.toNat + s.cfg.outCap.toNat) →
        Memory.read m a = Memory.read s.mem a)

/-- After reset every register of the window reads 0 and the interrupt output is low. -/
def Obligations.ResetReadsZero : Prop :=
  irq State.reset = false ∧ busy State.reset = false ∧
  ∀ r : Reg, exec (.regRead r) State.reset
    = .next { State.reset with world := { State.reset.world with hostData := 0 } }

/-! ### Bytes that are any value (20_memory R76, R77; 93 I1, I2, I3, I16) -/

/-- A host read of one byte of memory outside the register window completes in any phase, answers the byte the
host finds there (`hostByte`), and changes nothing else. While BUSY, that is for an output byte at container offset
512 or more the free value (log 7), which nothing determines. That the read completes where `admits` refuses the
block's own read is the MODEL's choice (log 30). -/
def Obligations.OutputReadWhileBusyIsFree : Prop :=
  ∀ (s : State) (a : Nat) (rest : List HostOp), nextTurn s = .host →
    s.world.script = .peek a :: rest → a < 2 ^ 32 → ¬ inWindow s.plat a →
    step s = .next { s with world := { (withScript rest (tick s)).world with
      hostData := (hostByte (tick s) a).setWidth 32 } } ∧
    (busy s = true →
      s.cfg.outBase.toNat + 512 ≤ a → a < s.cfg.outBase.toNat + s.cfg.outCap.toNat →
      hostByte (tick s) a = Config.freeByte (s.world.fresh + 1) a)

/-- Once a run has finished, a byte it wrote is any value to the host (the free value of log 7) as long as the
host has not read STATUS with BUSY = 0; that read makes it what memory holds. No step but such a read, by an RD or a
WAIT of the host's script, ends the one, also after CLEAR, START or reset, and in IDLE none ends the other. Memory holds what the run wrote where the host left it undisturbed, and any value (the free value of logs 7,
8) in each output byte where it did not. (How R296's words are read is the MODEL's, log 31.) -/
def Obligations.OutputReadableAfterDone : Prop :=
  (∀ v v' : State, step v = .next v' →
    (v'.world.unseen ≠ v.world.unseen →
      (nextTurn v = .sequencer ∧ v.phase = .finish) ∨
      (nextTurn v = .host ∧ v.phase = .idle ∧ v'.world.unseen = [] ∧ ∃ rest,
        v.world.script = .rd (regAddr v.plat .status) .word :: rest ∨
        ∃ mask value, v.world.script = .wait .status mask value :: rest)) ∧
    (v.phase = .idle → v'.phase = .idle → ∀ a,
      isFree v.world.spans a = false → isFree v'.world.spans a = false)) ∧
  (∀ (v : State) (a : Nat), v.phase = .idle → isFree v.world.unseen a = false →
    isFree v.world.spans a = false → hostByte v a = Memory.read v.mem a) ∧
  ∀ (s t : State) (d : Word) (a : Nat), nextTurn s = .sequencer → s.phase = .finish →
    s.dcur = some d → Memory.wf s.mem → step s = .next t →
    s.cfg.outBase.toNat + 512 ≤ a → a < s.cfg.outBase.toNat + d.toNat →
    isFree t.world.spans a = false ∧
    (∀ v : State, v.world.unseen = t.world.unseen →
      hostByte v a = Config.freeByte v.world.fresh a ∧
      (v.phase = .idle → isFree v.world.spans a = false →
        ∃ u, exec (.regRead .status) v = .next u ∧ u.mem = v.mem ∧ u.world.unseen = [] ∧
          u.world.spans = v.world.spans ∧ hostByte u a = Memory.read u.mem a)) ∧
    (s.world.disturbed = false → Memory.read t.mem a = Memory.read s.mem a) ∧
    (s.world.disturbed = true → d.toNat ≤ s.cfg.outCap.toNat → a < 2 ^ 32 →
      Memory.read t.mem a = Config.freeByte (s.world.fresh + 1) a)

/-- After an error, and after a reset while BUSY, every byte of the output buffer beyond the header is any
value to the host: the free value of log 7. -/
def Obligations.OutputFreeAfterAbort : Prop :=
  ∀ (s t : State) (a : Nat), step s = .next t → busy s = true → busy t = false →
    t.status.done = false →
    s.cfg.outBase.toNat + 512 ≤ a → a < s.cfg.outBase.toNat + s.cfg.outCap.toNat →
    hostByte t a = Config.freeByte t.world.fresh a

/-- A host write, while BUSY, to a source byte of the run or to an output byte at offset 512 or more makes
every byte the run reads from then on any value (the free value of logs 7, 8); the registers of the block
are unaffected. -/
def Obligations.ForbiddenWriteFreesReads : Prop :=
  ∀ (s : State) (f : PixelFormat) (a : Nat) (b : Byte) (rest : List HostOp), nextTurn s = .host →
    busy s = true → s.world.script = .mem a [b] :: rest → a < 2 ^ 32 → ¬ inWindow s.plat a →
    legalFormat s.cfg = some f →
    isFrameByte s.cfg f a ∨
      (s.cfg.outBase.toNat + 512 ≤ a ∧ a < s.cfg.outBase.toNat + s.cfg.outCap.toNat) →
    ∃ m w, step s = .next { s with mem := m, world := w } ∧ w.disturbed = true ∧
      (∀ t : State, t.world.disturbed = true → ∀ c,
        accepts t.plat .read c = true → memRead t c = .ok (Config.freeByte t.world.fresh c)) ∧
      ∀ t u : State, t.world.disturbed = true → busy t = true → nextTurn t ≠ .reset →
        step t = .next u → u.world.disturbed = true

/-- The host writes bytes to system memory outside the register window: those bytes and no others change,
and no register of the block does. A write in IDLE, and one while BUSY that touches no source byte of the frame and
no output byte at container offset 512 or more (R247's liberties), leaves the run undisturbed. That the bytes are
stored for a write R77 forbids while BUSY too, which R247 gives no move, is the MODEL's choice (log 8), and so is
that they are stored where `admits` refuses the block's own write (log 30). -/
def Obligations.HostWriteStoresBytes : Prop :=
  ∀ (s : State) (a : Nat) (bs : List Byte) (rest : List HostOp), nextTurn s = .host →
    Memory.wf s.mem → s.world.script = .mem a bs :: rest → a + bs.length ≤ 2 ^ 32 →
    (∀ b, a ≤ b → b < a + bs.length → ¬ inWindow s.plat b) →
    ∃ m w, step s = .next { s with mem := m, world := w } ∧ stores s.mem m a bs ∧
      w = { (withScript rest (tick s)).world with spans := w.spans, disturbed := w.disturbed } ∧
      (busy s = false → w.disturbed = s.world.disturbed) ∧
      ((∀ b, a ≤ b → b < a + bs.length →
          (∀ f, legalFormat s.cfg = some f → ¬ isFrameByte s.cfg f b) ∧
          ¬ (s.cfg.outBase.toNat + 512 ≤ b ∧ b < s.cfg.outBase.toNat + s.cfg.outCap.toNat)) →
        w.disturbed = s.world.disturbed)

/-! ### Invariants and runs -/

/-- The machine is legal right after reset. -/
def Obligations.InvAtReset : Prop := Inv State.reset

/-- Every step keeps the invariant: memory canonical, STATUS and the results as R23, R30 and R31 say, and
in a run every register its phase reads holding a value in range. -/
def Obligations.StepKeepsInv : Prop :=
  ∀ s t : State, Inv s → step s = .next t → Inv t

/-- In a legal state the sequencer never stops: no rule reads a register that holds no value, and every
packet it chooses can be performed. -/
def Obligations.SequencerNeverStops : Prop :=
  ∀ s : State, Inv s → nextTurn s = .sequencer → ∃ t, step s = .next t

/-- A run that passed the capacity check never raises OutputBufferExhausted. -/
def Obligations.BoundNeverExhausted : Prop :=
  ∀ s t : State, Inv s → step s = .next t → t.status.errCode = 4 → s.status.errCode = 4

/-- A sequencer step writes no byte outside `[OUT_BASE + 512, OUT_BASE + OUT_CAP)`. -/
def Obligations.BlockWritesOnlyOutput : Prop :=
  ∀ s t : State, Inv s → nextTurn s = .sequencer → step s = .next t →
    ∀ a, ¬ (s.cfg.outBase.toNat + 512 ≤ a ∧ a < s.cfg.outBase.toNat + s.cfg.outCap.toNat) →
      Memory.read t.mem a = Memory.read s.mem a

/-- No rule reads what R290 leaves unspecified: states that agree on everything but registers the run
writes before it reads them answer alike, and agree again after the step. -/
def Obligations.UnwrittenRegistersUnread : Prop :=
  ∀ s t : State, SameLive s t → SameResult (step s) (step t)

/-- Given only sequencer turns, a legal state in phase CHECK reaches IDLE within `2 + 4*H*(W + 3)` steps,
done or with an error. -/
def Obligations.RunTerminates : Prop :=
  ∀ s : State, Inv s → s.phase = .check →
    ∃ k ≤ 2 + 4 * s.cfg.height.toNat * (s.cfg.width.toNat + 3), ∀ rest,
      ∃ t, run k (withTurns (List.replicate k .sequencer ++ rest) s) = .next t ∧
        t.phase = .idle ∧ (t.status.done = true ∨ t.status.err = true)

/-- The EMIT steps of one scanline store exactly its encoding from `dcur` on, in as many steps as it has
packets, and end in ROW_END with `dcur` past it. -/
def Obligations.EmitStepsWriteLine : Prop :=
  ∀ (s : State) (g : Geometry) (d : Word), s.phase = .emit → Memory.wf s.mem → s.geom = some g →
    s.x = some 0 → s.dcur = some d → s.sl.length = s.cfg.width.toNat →
    1 ≤ s.cfg.width.toNat → s.cfg.width.toNat ≤ 65535 →
    let bs := encodeScanline s.plat.policy s.sl g.width
    let a := s.cfg.outBase.toNat + d.toNat
    d.toNat + bs.length ≤ s.cfg.outCap.toNat → acceptsWrites s.plat a bs.length →
    ∃ (packets : List Instr) (m : Memory),
      (∀ i ∈ packets, i.wf = true ∧ formatOf i = packetFormat g.width) ∧
      packets.flatMap encode = bs ∧
      1 ≤ packets.length ∧ packets.length ≤ s.cfg.width.toNat ∧ stores s.mem m a bs ∧
      ∀ rest, run packets.length
          (withTurns (List.replicate packets.length .sequencer ++ rest) s)
        = .next { afterSteps packets.length rest s with
            mem := m
            dcur := some (d + BitVec.ofNat 32 bs.length)
            x := some (BitVec.ofNat 16 s.cfg.width.toNat)
            phase := .rowEnd }

/-- A whole run: from CHECK, with a legal configuration, room for the bound, a bus that accepts the source
reads and the output writes, no overlap and an undisturbed source, the sequencer ends in DONE with the
offset table, the length table and the encoded scanlines in table-index order at container offset 512,
RESULT_SIZE just past them, and no other byte changed. -/
def Obligations.RunWritesContainer : Prop :=
  ∀ (s : State) (f : PixelFormat), s.phase = .check → Memory.wf s.mem →
    s.world.disturbed = false → legalFormat s.cfg = some f →
    sizeBound f s.cfg.width.toNat s.cfg.height.toNat ≤ s.cfg.outCap.toNat →
    launchOverlaps s.plat s.cfg = false →
    (∀ a, isFrameByte s.cfg f a → accepts s.plat .read a = true) →
    acceptsWrites s.plat (s.cfg.outBase.toNat + 512)
      (sizeBound f s.cfg.width.toNat s.cfg.height.toNat - 512) →
    ∃ k t, run k (withTurns (List.replicate k .sequencer) s) = .next t ∧
      t.phase = .idle ∧
      t.status = { done := true, err := false, keyframe := true, errCode := 0 } ∧
      let body := containerBody s.plat.policy s.cfg f s.mem
      t.resultSize.toNat = 512 + body.length ∧
      stores s.mem t.mem (s.cfg.outBase.toNat + 512) body
end

