-- ==== Sys2Proof/Laws/Detector.lean ====
section
/-! SUPPORT. Laws/Detector.lean: how large the run detector's counts are (R150-R155). -/

namespace Sys2Proof.Machine

theorem runLimit_le (width x : Nat) : runLimit width x ≤ Config.maxRun ∧ runLimit width x ≤ width - x :=
  ⟨Nat.min_le_left _ _, Nat.min_le_right _ _⟩

theorem runLimit_pos {width x : Nat} (h : x < width) : 1 ≤ runLimit width x :=
  Nat.le_min.2 ⟨by decide, by omega⟩

theorem countRepeatLoop_bounds (sl : List Half) (x fuel r : Nat) :
    r ≤ countRepeatLoop sl x fuel r ∧ countRepeatLoop sl x fuel r ≤ r + fuel := by
  induction fuel generalizing r with
  | zero => simp [countRepeatLoop]
  | succ n ih =>
    unfold countRepeatLoop
    split
    · have := ih (r + 1); omega
    · omega

theorem countLiteralDocLoop_bounds (sl : List Half) (width x fuel l : Nat) :
    l ≤ countLiteralDocLoop sl width x fuel l ∧ countLiteralDocLoop sl width x fuel l ≤ l + fuel := by
  induction fuel generalizing l with
  | zero => simp [countLiteralDocLoop]
  | succ n ih =>
    unfold countLiteralDocLoop
    split
    · omega
    · have := ih (l + 1); omega

/-- A scan that does not stop at its first pair takes a sample, and never more than the limit. -/
theorem countLiteralUpstreamLoop_bounds (sl : List Half) (w : ElementWidth) (x limit fuel c : Nat)
    (hc : 1 ≤ c) (hl : c + fuel = limit) (hfirst : c = 1 → fuel ≠ 0 → sameNext sl x = false) :
    1 ≤ countLiteralUpstreamLoop sl w x limit fuel c ∧
      countLiteralUpstreamLoop sl w x limit fuel c ≤ limit := by
  induction fuel generalizing c with
  | zero => unfold countLiteralUpstreamLoop; omega
  | succ n ih =>
    have hrec := ih (c + 1) (by omega) (by omega) (by omega)
    unfold countLiteralUpstreamLoop
    split
    · rename_i hs
      split
      · exact hrec
      · have : c ≠ 1 := by
          rintro rfl
          have := hfirst rfl (by omega)
          simp_all
        omega
    · exact hrec

theorem countRepeat_bounds (sl : List Half) {width x : Nat} (h : x < width) :
    1 ≤ countRepeat sl width x ∧ countRepeat sl width x ≤ runLimit width x := by
  have := countRepeatLoop_bounds sl x (runLimit width x - 1) 1
  have := runLimit_pos h
  unfold countRepeat
  omega

/-- A repeat count below 2 means the first pair differs, or there is no pair to look at. -/
theorem first_pair_differs {sl : List Half} {width x : Nat} (h : ¬ 2 ≤ countRepeat sl width x)
    (hl : runLimit width x - 1 ≠ 0) : sameNext sl x = false := by
  obtain ⟨k, hk⟩ := Nat.exists_eq_succ_of_ne_zero hl
  by_contra hs
  have hs : sameNext sl x = true := by simpa using hs
  apply h
  unfold countRepeat
  rw [hk]
  unfold countRepeatLoop
  rw [show x + 1 - 1 = x by omega, if_pos hs]
  exact (countRepeatLoop_bounds sl x k 2).1

theorem countLiteral_bounds (p : ScanPolicy) (sl : List Half) (w : ElementWidth) {width x : Nat}
    (h : x < width) (hr : ¬ 2 ≤ countRepeat sl width x) :
    1 ≤ countLiteral p sl w width x ∧ countLiteral p sl w width x ≤ runLimit width x := by
  have hpos := runLimit_pos h
  cases p with
  | doc =>
    have := countLiteralDocLoop_bounds sl width x (runLimit width x - 1) 1
    unfold countLiteral countLiteralDoc
    constructor <;> simp only <;> omega
  | upstream =>
    exact countLiteralUpstreamLoop_bounds sl w x _ _ 1 (by omega) (by omega)
      (fun _ hl => first_pair_differs hr hl)

/-- The detector's answer is a repeat of 2 to `M` samples, or a literal of 1 to `M` (R150). -/
theorem detect_bounds (p : ScanPolicy) (sl : List Half) (w : ElementWidth) {width x : Nat}
    (h : x < width) :
    1 ≤ (detect p sl w width x).2 ∧ (detect p sl w width x).2 ≤ runLimit width x ∧
      ((detect p sl w width x).1 = .rep → 2 ≤ (detect p sl w width x).2) := by
  unfold detect
  simp only
  split
  · rename_i h2
    exact ⟨by omega, (countRepeat_bounds sl h).2, fun _ => h2⟩
  · rename_i h2
    have := countLiteral_bounds p sl w h h2
    exact ⟨this.1, this.2, fun hk => by cases hk⟩

/-- What the packet at a position is (R155, R102). -/
theorem packetAt_some {p : ScanPolicy} {sl : List Half} {w : ElementWidth} {width x : Nat} {i : Instr}
    (h : packetAt p sl w width x = some i) :
    x < width ∧ width ≤ sl.length ∧ ∃ v, sl[x]? = some v ∧
      i = packetOf w (detect p sl w width x).1 (detect p sl w width x).2 v
        ((sl.drop x).take (detect p sl w width x).2) := by
  unfold packetAt at h
  split at h
  · rename_i hb
    split at h
    · rename_i v hv
      exact ⟨hb.1, hb.2, v, hv, by simpa using h.symm⟩
    · cases h
  · cases h

/-- Inside a scanline there is always a packet (R156). -/
theorem packetAt_isSome {p : ScanPolicy} {sl : List Half} {w : ElementWidth} {width x : Nat}
    (hx : x < width) (hw : width ≤ sl.length) : (packetAt p sl w width x).isSome := by
  have hlt : x < sl.length := by omega
  simp [packetAt, hx, hw, List.getElem?_eq_getElem hlt]

end Sys2Proof.Machine
end

