-- ==== Sys2Proof/Laws/Memory.lean ====
section
/-! SUPPORT. Laws/Memory.lean: what memory reads after a write, and that every memory operation keeps the
canonical form. -/

namespace Sys2Proof.Machine

/-- Every address of the memory is above a bound: what the tail of a canonical memory satisfies. -/
abbrev Memory.above (m : Memory) (a : Nat) : Prop := ∀ c ∈ m, a < c.1

@[simp] theorem Memory.read_nil (a : Nat) : Memory.read [] a = blankByte := rfl

@[simp] theorem Memory.read_cons (k : Nat) (v : Byte) (m : Memory) (a : Nat) :
    Memory.read ((k, v) :: m) a = if k = a then v else Memory.read m a := rfl

theorem Memory.read_of_above {m : Memory} {a : Nat} (h : Memory.above m a) :
    Memory.read m a = blankByte := by
  induction m with
  | nil => rfl
  | cons c m ih =>
    obtain ⟨k, v⟩ := c
    have hk : a < k := h (k, v) (by simp)
    have hm : Memory.above m a := fun c hc => h c (by simp [hc])
    simp [ih hm, Nat.ne_of_gt hk]

theorem Memory.read_entry (a : Nat) (v : Byte) (m : Memory) (b : Nat) (h : Memory.above m a) :
    Memory.read (Memory.entry a v m) b = if a = b then v else Memory.read m b := by
  unfold Memory.entry
  split
  · rename_i hv
    by_cases hab : a = b
    · subst hab; simp [Memory.read_of_above h, hv]
    · simp [hab]
  · rfl

theorem Memory.wf_cons {k : Nat} {v : Byte} {m : Memory} :
    Memory.wf ((k, v) :: m) ↔
      (v ≠ blankByte ∧ k < Config.addressSpace) ∧ Memory.above m k ∧ Memory.wf m := by
  simp only [Memory.wf, Memory.above, List.pairwise_cons, List.forall_mem_cons]
  tauto

theorem Memory.mem_entry {a : Nat} {v : Byte} {m : Memory} {c : Host.Cell}
    (h : c ∈ Memory.entry a v m) : c = (a, v) ∨ c ∈ m := by
  unfold Memory.entry at h
  split at h
  · exact .inr h
  · simpa using h

theorem Memory.wf_entry {a : Nat} {v : Byte} {m : Memory} (ha : a < Config.addressSpace)
    (hm : Memory.above m a) (h : Memory.wf m) : Memory.wf (Memory.entry a v m) := by
  unfold Memory.entry
  split
  · exact h
  · exact Memory.wf_cons.2 ⟨⟨‹_›, ha⟩, hm, h⟩

/-- Every cell a write leaves is the written one or was there. -/
theorem Memory.mem_write {a : Nat} {v : Byte} {m : Memory} {c : Host.Cell}
    (h : c ∈ Memory.write m a v) : c = (a, v) ∨ c ∈ m := by
  induction m with
  | nil => exact Memory.mem_entry h
  | cons d m ih =>
    obtain ⟨k, w⟩ := d
    simp only [Memory.write] at h
    split at h
    · exact Memory.mem_entry h
    · split at h
      · exact (Memory.mem_entry h).imp_right (by simp +contextual)
      · rcases List.mem_cons.1 h with h | h
        · exact .inr (by simp [h])
        · exact (ih h).imp_right (by simp +contextual)

/-- A write keeps the canonical form. -/
theorem Memory.wf_write {m : Memory} {a : Nat} {v : Byte} (ha : a < Config.addressSpace)
    (h : Memory.wf m) : Memory.wf (Memory.write m a v) := by
  induction m with
  | nil => exact Memory.wf_entry ha (by simp) h
  | cons d m ih =>
    obtain ⟨k, w⟩ := d
    obtain ⟨hk, hab, hm⟩ := Memory.wf_cons.1 h
    simp only [Memory.write]
    split
    · rename_i hlt
      refine Memory.wf_entry ha (fun c hc => ?_) h
      rcases List.mem_cons.1 hc with rfl | hc
      · exact hlt
      · exact hlt.trans (hab c hc)
    · split
      · rename_i _ heq
        exact Memory.wf_entry ha (heq ▸ hab) hm
      · rename_i h1 h2
        refine Memory.wf_cons.2 ⟨hk, fun c hc => ?_, ih hm⟩
        rcases Memory.mem_write hc with rfl | hc
        · show k < a
          omega
        · exact hab c hc

/-- A write changes the byte at its address and no other. -/
theorem Memory.read_write {m : Memory} (h : Memory.wf m) (a : Nat) (v : Byte) (b : Nat) :
    Memory.read (Memory.write m a v) b = if a = b then v else Memory.read m b := by
  induction m with
  | nil => simp [Memory.write, Memory.read_entry]
  | cons d m ih =>
    obtain ⟨k, w⟩ := d
    obtain ⟨_, hab, hm⟩ := Memory.wf_cons.1 h
    simp only [Memory.write]
    split
    · rename_i hlt
      refine Memory.read_entry a v _ b (fun c hc => ?_)
      rcases List.mem_cons.1 hc with rfl | hc
      · exact hlt
      · exact hlt.trans (hab c hc)
    · split
      · rename_i _ heq
        subst heq
        rw [Memory.read_entry a v m b hab, Memory.read_cons]
        split <;> rfl
      · rename_i _ hne
        rw [Memory.read_cons, Memory.read_cons, ih hm]
        by_cases hkb : k = b
        · subst hkb; simp [hne]
        · simp [hkb]

theorem Memory.writeList_nil (m : Memory) (a : Nat) : Memory.writeList m a [] = m := rfl

theorem Memory.writeList_cons (m : Memory) (a : Nat) (b : Byte) (bs : List Byte) :
    Memory.writeList m a (b :: bs) = Memory.writeList (Memory.write m a b) (a + 1) bs := rfl

/-- A sequence of writes keeps the canonical form. -/
theorem Memory.wf_writeList {m : Memory} {a : Nat} {bs : List Byte}
    (ha : a + bs.length ≤ Config.addressSpace) (h : Memory.wf m) :
    Memory.wf (Memory.writeList m a bs) := by
  induction bs generalizing m a with
  | nil => exact h
  | cons b bs ih =>
    simp only [List.length_cons] at ha
    exact ih (by omega) (Memory.wf_write (by omega) h)

/-- What memory reads after a sequence of writes: the bytes of the sequence at its addresses, and what it
read before everywhere else. -/
theorem Memory.read_writeList {m : Memory} {a : Nat} {bs : List Byte}
    (ha : a + bs.length ≤ Config.addressSpace) (h : Memory.wf m) (b : Nat) :
    Memory.read (Memory.writeList m a bs) b
      = if a ≤ b ∧ b < a + bs.length then bs.getD (b - a) blankByte else Memory.read m b := by
  induction bs generalizing m a with
  | nil => rw [if_neg (by simp)]; rfl
  | cons v bs ih =>
    simp only [List.length_cons] at ha
    rw [Memory.writeList_cons, ih (by omega) (Memory.wf_write (by omega) h), Memory.read_write h]
    simp only [List.length_cons]
    by_cases hab : a = b
    · subst hab; simp
    · by_cases hin : a + 1 ≤ b ∧ b < a + 1 + bs.length
      · have hsub : b - a = (b - (a + 1)) + 1 := by omega
        rw [if_pos hin, if_pos (by omega), hsub, List.getD_cons_succ]
      · rw [if_neg hin, if_neg hab, if_neg (by omega)]

/-! ### Bytes replaced by free values -/

theorem Memory.wf_writeFree {stamp : Nat} {m : Memory} {a count : Nat}
    (ha : a + count ≤ Config.addressSpace) (h : Memory.wf m) :
    Memory.wf (Memory.writeFree stamp m a count) := by
  induction count with
  | zero => exact h
  | succ n ih => exact Memory.wf_write (by omega) (ih (by omega))

/-- What memory reads after a range was replaced: the free values there, what it read before elsewhere. -/
theorem Memory.read_writeFree {stamp : Nat} {m : Memory} {a count : Nat}
    (ha : a + count ≤ Config.addressSpace) (h : Memory.wf m) (b : Nat) :
    Memory.read (Memory.writeFree stamp m a count) b
      = if a ≤ b ∧ b < a + count then Config.freeByte stamp b else Memory.read m b := by
  induction count with
  | zero => rw [if_neg (by omega)]; rfl
  | succ n ih =>
    rw [Memory.writeFree, Memory.read_write (Memory.wf_writeFree (by omega) h), ih (by omega)]
    by_cases hb : a + n = b
    · subst hb
      rw [if_pos rfl, if_pos (by omega)]
    · rw [if_neg hb]
      exact if_congr (by omega) rfl rfl

/-! ### The block's write sequence (R9, R174) -/

/-- What `MemWriteSeq` can do: it writes all the bytes, or the first `k` of them, the next address being
refused. -/
theorem memWriteSeq_cases (p : Platform) (m : Memory) (a : Nat) (bs : List Byte) :
    (memWriteSeq p m a bs = (Memory.writeList m a bs, none) ∧
        ∀ k < bs.length, accepts p .write (a + k) = true) ∨
      ∃ k < bs.length, memWriteSeq p m a bs = (Memory.writeList m a (bs.take k), some (a + k)) ∧
        accepts p .write (a + k) = false ∧ ∀ j < k, accepts p .write (a + j) = true := by
  induction bs generalizing m a with
  | nil => exact .inl ⟨rfl, by simp⟩
  | cons b bs ih =>
    by_cases hb : accepts p .write a = true
    · have hrec : memWriteSeq p m a (b :: bs) = memWriteSeq p (Memory.write m a b) (a + 1) bs := by
        simp [memWriteSeq, hb]
      rcases ih (Memory.write m a b) (a + 1) with ⟨heq, hall⟩ | ⟨k, hk, heq, hbad, hall⟩
      · refine .inl ⟨hrec.trans heq, fun k hk => ?_⟩
        rcases k with _ | k
        · exact hb
        · simpa [Nat.add_assoc, Nat.add_comm 1] using hall k (by simpa using hk)
      · refine .inr ⟨k + 1, by simpa using hk, ?_, ?_, fun j hj => ?_⟩
        · rw [hrec, heq, List.take_succ_cons, Memory.writeList_cons]
          simp [Nat.add_assoc, Nat.add_comm 1]
        · simpa [Nat.add_assoc, Nat.add_comm 1] using hbad
        · rcases j with _ | j
          · exact hb
          · simpa [Nat.add_assoc, Nat.add_comm 1] using hall j (by omega)
    · exact .inr ⟨0, by simp, by simp [memWriteSeq, hb, Memory.writeList_nil], by simpa using hb,
        by simp⟩

/-- Every access the platform accepts has an address of system memory (R9). -/
theorem lt_of_accepts {p : Platform} {k : AccessKind} {a : Nat} (h : accepts p k a = true) :
    a < Config.addressSpace := by
  simp only [accepts, Bool.and_eq_true, decide_eq_true_eq] at h
  exact h.1

/-- `MemWriteSeq` keeps the canonical form, refused or not. -/
theorem wf_memWriteSeq {p : Platform} {m : Memory} {a : Nat} {bs : List Byte} (h : Memory.wf m) :
    Memory.wf (memWriteSeq p m a bs).1 := by
  induction bs generalizing m a with
  | nil => exact h
  | cons b bs ih =>
    unfold memWriteSeq
    split
    · exact ih (Memory.wf_write (lt_of_accepts ‹_›) h)
    · exact h

/-- Where the platform accepts every address of the sequence, all of it is written. -/
theorem memWriteSeq_of_accepts {p : Platform} {m : Memory} {a : Nat} {bs : List Byte}
    (h : ∀ k < bs.length, accepts p .write (a + k) = true) :
    memWriteSeq p m a bs = (Memory.writeList m a bs, none) := by
  rcases memWriteSeq_cases p m a bs with ⟨heq, _⟩ | ⟨k, hk, _, hbad, _⟩
  · exact heq
  · rw [h k hk] at hbad; cases hbad

/-- The first refused address ends the sequence; the bytes before it are written (R174). -/
theorem memWriteSeq_of_refused {p : Platform} {m : Memory} {a : Nat} {bs : List Byte} {k : Nat}
    (hk : k < bs.length) (hok : ∀ j < k, accepts p .write (a + j) = true)
    (hbad : accepts p .write (a + k) = false) :
    memWriteSeq p m a bs = (Memory.writeList m a (bs.take k), some (a + k)) := by
  rcases memWriteSeq_cases p m a bs with ⟨_, hall⟩ | ⟨j, hj, heq, hbad', hall⟩
  · rw [hall k hk] at hbad; cases hbad
  · rcases Nat.lt_trichotomy j k with hlt | rfl | hgt
    · rw [hok j hlt] at hbad'; cases hbad'
    · exact heq
    · rw [hall k hgt] at hbad; cases hbad

end Sys2Proof.Machine
end

