-- ==== Sys2Proof/Laws/Operands.lean ====
section
/-! SUPPORT. Laws/Operands.lean: what the format table, the resolution check and the key's fields say, once. -/

namespace Sys2Proof.Machine

/-! ### The format table and CHECK's conditions (R120-R124) -/

@[simp] theorem elementBytes_one : elementBytes .one = 1 := rfl
@[simp] theorem elementBytes_two : elementBytes .two = 2 := rfl

theorem elementBytes_pos (w : ElementWidth) : 1 ≤ elementBytes w ∧ elementBytes w ≤ 2 := by
  cases w <;> decide

/-- The nine rows of the table are the tags 0 to 8. -/
theorem formatRow_isSome_iff (fmt : BitVec 4) : (formatRow fmt).isSome = true ↔ fmt.toNat ≤ 8 := by
  revert fmt; decide

theorem formatRow_eq_none_iff (fmt : BitVec 4) : formatRow fmt = none ↔ 8 < fmt.toNat := by
  rw [← Option.not_isSome_iff_eq_none, formatRow_isSome_iff]; omega

/-- A format has one, three or four channels. -/
theorem formatRow_depth {fmt : BitVec 4} {f : PixelFormat} (h : formatRow fmt = some f) :
    1 ≤ f.depth ∧ f.depth ≤ 4 := by
  have key : ∀ fmt : BitVec 4,
      (match formatRow fmt with
        | some g => decide (1 ≤ g.depth ∧ g.depth ≤ 4)
        | none => true) = true := by decide
  have := key fmt
  rw [h] at this
  exact of_decide_eq_true this

theorem legalDim_iff (v : Word) : legalDim v = true ↔ 1 ≤ v.toNat ∧ v.toNat ≤ 65535 := by
  simp [legalDim, show Config.maxDim = 65535 from rfl]

theorem legalResolution_iff (c : ConfigRegs) :
    legalResolution c = true ↔
      (1 ≤ c.width.toNat ∧ c.width.toNat ≤ 65535) ∧ 1 ≤ c.height.toNat ∧ c.height.toNat ≤ 65535 := by
  simp only [legalResolution, Bool.and_eq_true, legalDim_iff]

theorem legalFormat_some_iff (c : ConfigRegs) (f : PixelFormat) :
    legalFormat c = some f ↔ legalResolution c = true ∧ formatRow c.fmt = some f := by
  unfold legalFormat
  split <;> simp_all

/-- `512 + 2*T <= REQ_SIZE`: the bound lies past the tables. -/
theorem dataStart_le_sizeBound (f : PixelFormat) (width height : Nat) :
    dataStart f.depth height ≤ sizeBound f width height := by
  unfold dataStart sizeBound
  omega

/-- The pixel data starts past the header and both tables. -/
theorem dataStart_eq (depth height : Nat) : dataStart depth height = 512 + 2 * (4 * depth * height) := rfl

theorem sizeBound_eq (f : PixelFormat) (width height : Nat) :
    sizeBound f width height
      = 512 + 2 * (4 * f.depth * height) + f.depth * height * (2 * width + 1) * elementBytes f.width := rfl

/-! ### Lengths of what is written -/

@[simp] theorem be16_length (v : Half) : (be16 v).length = 2 := rfl
@[simp] theorem be32_length (v : Word) : (be32 v).length = 4 := rfl

@[simp] theorem put_length (w : ElementWidth) (v : Half) : (put w v).length = elementBytes w := by
  cases w <;> rfl

@[simp] theorem ctrl_length (w : ElementWidth) (k : RunKind) (n : BitVec 7) :
    (ctrl w k n).length = elementBytes w := put_length _ _

/-- A sequence of sample elements has `B` bytes for each sample. -/
theorem flatMap_put_length {α : Type} (w : ElementWidth) (g : α → Half) (vs : List α) :
    (vs.flatMap fun v => put w (g v)).length = vs.length * elementBytes w := by
  induction vs with
  | nil => simp
  | cons v vs ih => simp [ih, Nat.add_mul, Nat.add_comm]

@[simp] theorem keyBytes_length (key : BitVec 39) : (keyBytes key).length = 5 := rfl

/-! ### The fields of a key (R102) -/

/-- The bits of a key: data, offset, and bit 38. -/
theorem accessKey_getLsbD (b : Bool) (off : BitVec 6) (data : Word) (i : Nat) :
    (accessKey b off data).getLsbD i =
      if i < 32 then b && data.getLsbD i else if i < 38 then off.getLsbD (i - 32) else i == 38 && b := by
  have h : (accessKey b off data).getLsbD i =
      (BitVec.append (BitVec.append (BitVec.ofBool b) off) (if b then data else 0)).getLsbD i := rfl
  rw [h]
  change ((BitVec.ofBool b ++ off) ++ (if b then data else 0)).getLsbD i = _
  rw [BitVec.getLsbD_append, BitVec.getLsbD_append]
  split
  · cases b <;> simp
  · split
    · rw [if_pos (by omega)]
    · rw [if_neg (by omega), BitVec.getLsbD_ofBool]
      congr 1
      simp only [Bool.beq_eq_decide_eq]
      exact decide_eq_decide.2 (by omega)

@[simp] theorem keyOffset_accessKey (b : Bool) (off : BitVec 6) (data : Word) :
    keyOffset (accessKey b off data) = off := by
  apply BitVec.eq_of_getLsbD_eq
  intro i hi
  rw [keyOffset, BitVec.getLsbD_extractLsb', accessKey_getLsbD, if_neg (by omega), if_pos (by omega)]
  simp [hi]

@[simp] theorem keyData_accessKey_write (off : BitVec 6) (data : Word) :
    keyData (accessKey true off data) = data := by
  apply BitVec.eq_of_getLsbD_eq
  intro i hi
  rw [keyData, BitVec.getLsbD_extractLsb', accessKey_getLsbD, if_pos (by omega)]
  simp [hi]

theorem accessKey_write_bit (b : Bool) (off : BitVec 6) (data : Word) :
    (accessKey b off data).getLsbD 38 = b := by
  rw [accessKey_getLsbD]
  simp

/-- A row of the opcode table accepts the keys that have the row's bits under its mask. -/
theorem rowAccepts_iff {mask pattern key : BitVec 39} (h : pattern &&& mask = pattern) :
    rowAccepts mask pattern key = true ↔
      ∀ i < 39, mask.getLsbD i = true → key.getLsbD i = pattern.getLsbD i := by
  rw [rowAccepts, beq_iff_eq]
  constructor
  · intro he i hi hm
    have := congrArg (·.getLsbD i) he
    simpa [BitVec.getLsbD_and, hm] using this
  · intro hall
    apply BitVec.eq_of_getLsbD_eq
    intro i hi
    have hp := congrArg (·.getLsbD i) h
    simp only [BitVec.getLsbD_and] at hp ⊢
    cases hm : mask.getLsbD i with
    | false => rw [hm, Bool.and_false] at hp; simp [← hp]
    | true => simp [hall i hi hm]

/-- Every register has an offset of its own, a multiple of 4 (R21). -/
theorem ofOffset_offset (r : Reg) : Reg.ofOffset r.offset = some r := by cases r <;> rfl

theorem ofOffset_eq_none_iff (off : BitVec 6) : Reg.ofOffset off = none ↔ off.toNat % 4 ≠ 0 := by
  revert off; decide

end Sys2Proof.Machine
end

