-- ==== Sys2Proof/Laws/State.lean ====
section
/-! SUPPORT. Laws/State.lean: one lemma per field per named update of the state, so that no proof unfolds a
record update. -/

namespace Sys2Proof.Machine

/-! ### FAIL (R270) -/

section
variable (e : ErrorKind) (info : Nat) (s : State)

@[simp] theorem fail_cfg : (fail e info s).cfg = s.cfg := rfl
@[simp] theorem fail_status : (fail e info s).status = { done := false, err := true, keyframe := false, errCode := errorCode e } := rfl
@[simp] theorem fail_resultSize : (fail e info s).resultSize = 0 := rfl
@[simp] theorem fail_errInfo : (fail e info s).errInfo = BitVec.ofNat 32 info := rfl
@[simp] theorem fail_phase : (fail e info s).phase = .idle := rfl
@[simp] theorem fail_z : (fail e info s).z = s.z := rfl
@[simp] theorem fail_y : (fail e info s).y = s.y := rfl
@[simp] theorem fail_x : (fail e info s).x = s.x := rfl
@[simp] theorem fail_geom : (fail e info s).geom = s.geom := rfl
@[simp] theorem fail_dcur : (fail e info s).dcur = s.dcur := rfl
@[simp] theorem fail_rstart : (fail e info s).rstart = s.rstart := rfl
@[simp] theorem fail_sl : (fail e info s).sl = s.sl := rfl
@[simp] theorem fail_mem : (fail e info s).mem = memoryAfterRun s := rfl
@[simp] theorem fail_plat : (fail e info s).plat = s.plat := rfl
@[simp] theorem fail_script : (fail e info s).world.script = s.world.script := rfl
@[simp] theorem fail_turns : (fail e info s).world.turns = s.world.turns := rfl
@[simp] theorem fail_hostData : (fail e info s).world.hostData = s.world.hostData := rfl
@[simp] theorem fail_fresh : (fail e info s).world.fresh = s.world.fresh := rfl
@[simp] theorem fail_disturbed : (fail e info s).world.disturbed = s.world.disturbed := rfl
@[simp] theorem fail_spans : (fail e info s).world.spans = ⟨outAddr s.cfg Config.headerBytes, outAddr s.cfg s.cfg.outCap.toNat, true⟩ :: s.world.spans := rfl
@[simp] theorem fail_unseen : (fail e info s).world.unseen = s.world.unseen := rfl

end

/-! ### CMD_CLEAR's effect (R244) -/

section
variable (s : State)

@[simp] theorem clearResults_cfg : (clearResults s).cfg = s.cfg := rfl
@[simp] theorem clearResults_status : (clearResults s).status = .clear := rfl
@[simp] theorem clearResults_resultSize : (clearResults s).resultSize = 0 := rfl
@[simp] theorem clearResults_errInfo : (clearResults s).errInfo = 0 := rfl
@[simp] theorem clearResults_phase : (clearResults s).phase = s.phase := rfl
@[simp] theorem clearResults_z : (clearResults s).z = s.z := rfl
@[simp] theorem clearResults_y : (clearResults s).y = s.y := rfl
@[simp] theorem clearResults_x : (clearResults s).x = s.x := rfl
@[simp] theorem clearResults_geom : (clearResults s).geom = s.geom := rfl
@[simp] theorem clearResults_dcur : (clearResults s).dcur = s.dcur := rfl
@[simp] theorem clearResults_rstart : (clearResults s).rstart = s.rstart := rfl
@[simp] theorem clearResults_sl : (clearResults s).sl = s.sl := rfl
@[simp] theorem clearResults_mem : (clearResults s).mem = s.mem := rfl
@[simp] theorem clearResults_plat : (clearResults s).plat = s.plat := rfl
@[simp] theorem clearResults_world : (clearResults s).world = s.world := rfl

end

/-! ### CMD_START's effect (R243) -/

section
variable (s : State)

@[simp] theorem startRun_cfg : (startRun s).cfg = s.cfg := rfl
@[simp] theorem startRun_status : (startRun s).status = .clear := rfl
@[simp] theorem startRun_resultSize : (startRun s).resultSize = 0 := rfl
@[simp] theorem startRun_errInfo : (startRun s).errInfo = 0 := rfl
@[simp] theorem startRun_phase : (startRun s).phase = .check := rfl
@[simp] theorem startRun_z : (startRun s).z = s.z := rfl
@[simp] theorem startRun_y : (startRun s).y = s.y := rfl
@[simp] theorem startRun_x : (startRun s).x = s.x := rfl
@[simp] theorem startRun_geom : (startRun s).geom = s.geom := rfl
@[simp] theorem startRun_dcur : (startRun s).dcur = s.dcur := rfl
@[simp] theorem startRun_rstart : (startRun s).rstart = s.rstart := rfl
@[simp] theorem startRun_sl : (startRun s).sl = s.sl := rfl
@[simp] theorem startRun_mem : (startRun s).mem = s.mem := rfl
@[simp] theorem startRun_plat : (startRun s).plat = s.plat := rfl
@[simp] theorem startRun_script : (startRun s).world.script = s.world.script := rfl
@[simp] theorem startRun_turns : (startRun s).world.turns = s.world.turns := rfl
@[simp] theorem startRun_hostData : (startRun s).world.hostData = s.world.hostData := rfl
@[simp] theorem startRun_fresh : (startRun s).world.fresh = s.world.fresh := rfl
@[simp] theorem startRun_disturbed : (startRun s).world.disturbed = false := rfl
@[simp] theorem startRun_spans : (startRun s).world.spans = s.world.spans := rfl
@[simp] theorem startRun_unseen : (startRun s).world.unseen = s.world.unseen := rfl

end

/-! ### Reset (R290) -/

section
variable (s : State)

@[simp] theorem resetBlock_cfg : (resetBlock s).cfg = .reset := rfl
@[simp] theorem resetBlock_status : (resetBlock s).status = .clear := rfl
@[simp] theorem resetBlock_resultSize : (resetBlock s).resultSize = 0 := rfl
@[simp] theorem resetBlock_errInfo : (resetBlock s).errInfo = 0 := rfl
@[simp] theorem resetBlock_phase : (resetBlock s).phase = .idle := rfl
@[simp] theorem resetBlock_z : (resetBlock s).z = none := rfl
@[simp] theorem resetBlock_y : (resetBlock s).y = none := rfl
@[simp] theorem resetBlock_x : (resetBlock s).x = none := rfl
@[simp] theorem resetBlock_geom : (resetBlock s).geom = none := rfl
@[simp] theorem resetBlock_dcur : (resetBlock s).dcur = none := rfl
@[simp] theorem resetBlock_rstart : (resetBlock s).rstart = none := rfl
@[simp] theorem resetBlock_sl : (resetBlock s).sl = [] := rfl
@[simp] theorem resetBlock_mem : (resetBlock s).mem = memoryAfterReset s := rfl
@[simp] theorem resetBlock_plat : (resetBlock s).plat = s.plat := rfl
@[simp] theorem resetBlock_world : (resetBlock s).world = { (if busy s then voidOutput s.cfg s.world else s.world) with disturbed := false } := rfl

end

/-! ### One step accounted for -/

section
variable (s : State)

@[simp] theorem tick_cfg : (tick s).cfg = s.cfg := rfl
@[simp] theorem tick_status : (tick s).status = s.status := rfl
@[simp] theorem tick_resultSize : (tick s).resultSize = s.resultSize := rfl
@[simp] theorem tick_errInfo : (tick s).errInfo = s.errInfo := rfl
@[simp] theorem tick_phase : (tick s).phase = s.phase := rfl
@[simp] theorem tick_z : (tick s).z = s.z := rfl
@[simp] theorem tick_y : (tick s).y = s.y := rfl
@[simp] theorem tick_x : (tick s).x = s.x := rfl
@[simp] theorem tick_geom : (tick s).geom = s.geom := rfl
@[simp] theorem tick_dcur : (tick s).dcur = s.dcur := rfl
@[simp] theorem tick_rstart : (tick s).rstart = s.rstart := rfl
@[simp] theorem tick_sl : (tick s).sl = s.sl := rfl
@[simp] theorem tick_mem : (tick s).mem = s.mem := rfl
@[simp] theorem tick_plat : (tick s).plat = s.plat := rfl
@[simp] theorem tick_script : (tick s).world.script = s.world.script := rfl
@[simp] theorem tick_turns : (tick s).world.turns = s.world.turns.tail := rfl
@[simp] theorem tick_hostData : (tick s).world.hostData = s.world.hostData := rfl
@[simp] theorem tick_fresh : (tick s).world.fresh = s.world.fresh + 1 := rfl
@[simp] theorem tick_disturbed : (tick s).world.disturbed = s.world.disturbed := rfl
@[simp] theorem tick_spans : (tick s).world.spans = s.world.spans := rfl
@[simp] theorem tick_unseen : (tick s).world.unseen = s.world.unseen := rfl

end

/-! ### The host's script -/

section
variable (ops : List HostOp) (s : State)

@[simp] theorem withScript_cfg : (withScript ops s).cfg = s.cfg := rfl
@[simp] theorem withScript_status : (withScript ops s).status = s.status := rfl
@[simp] theorem withScript_resultSize : (withScript ops s).resultSize = s.resultSize := rfl
@[simp] theorem withScript_errInfo : (withScript ops s).errInfo = s.errInfo := rfl
@[simp] theorem withScript_phase : (withScript ops s).phase = s.phase := rfl
@[simp] theorem withScript_z : (withScript ops s).z = s.z := rfl
@[simp] theorem withScript_y : (withScript ops s).y = s.y := rfl
@[simp] theorem withScript_x : (withScript ops s).x = s.x := rfl
@[simp] theorem withScript_geom : (withScript ops s).geom = s.geom := rfl
@[simp] theorem withScript_dcur : (withScript ops s).dcur = s.dcur := rfl
@[simp] theorem withScript_rstart : (withScript ops s).rstart = s.rstart := rfl
@[simp] theorem withScript_sl : (withScript ops s).sl = s.sl := rfl
@[simp] theorem withScript_mem : (withScript ops s).mem = s.mem := rfl
@[simp] theorem withScript_plat : (withScript ops s).plat = s.plat := rfl
@[simp] theorem withScript_script : (withScript ops s).world.script = ops := rfl
@[simp] theorem withScript_turns : (withScript ops s).world.turns = s.world.turns := rfl
@[simp] theorem withScript_hostData : (withScript ops s).world.hostData = s.world.hostData := rfl
@[simp] theorem withScript_fresh : (withScript ops s).world.fresh = s.world.fresh := rfl
@[simp] theorem withScript_disturbed : (withScript ops s).world.disturbed = s.world.disturbed := rfl
@[simp] theorem withScript_spans : (withScript ops s).world.spans = s.world.spans := rfl
@[simp] theorem withScript_unseen : (withScript ops s).world.unseen = s.world.unseen := rfl

end

/-! ### A turn placed first -/

section
variable (t : Turn) (s : State)

@[simp] theorem withTurn_cfg : (withTurn t s).cfg = s.cfg := rfl
@[simp] theorem withTurn_status : (withTurn t s).status = s.status := rfl
@[simp] theorem withTurn_resultSize : (withTurn t s).resultSize = s.resultSize := rfl
@[simp] theorem withTurn_errInfo : (withTurn t s).errInfo = s.errInfo := rfl
@[simp] theorem withTurn_phase : (withTurn t s).phase = s.phase := rfl
@[simp] theorem withTurn_z : (withTurn t s).z = s.z := rfl
@[simp] theorem withTurn_y : (withTurn t s).y = s.y := rfl
@[simp] theorem withTurn_x : (withTurn t s).x = s.x := rfl
@[simp] theorem withTurn_geom : (withTurn t s).geom = s.geom := rfl
@[simp] theorem withTurn_dcur : (withTurn t s).dcur = s.dcur := rfl
@[simp] theorem withTurn_rstart : (withTurn t s).rstart = s.rstart := rfl
@[simp] theorem withTurn_sl : (withTurn t s).sl = s.sl := rfl
@[simp] theorem withTurn_mem : (withTurn t s).mem = s.mem := rfl
@[simp] theorem withTurn_plat : (withTurn t s).plat = s.plat := rfl
@[simp] theorem withTurn_script : (withTurn t s).world.script = s.world.script := rfl
@[simp] theorem withTurn_turns : (withTurn t s).world.turns = t :: s.world.turns := rfl
@[simp] theorem withTurn_hostData : (withTurn t s).world.hostData = s.world.hostData := rfl
@[simp] theorem withTurn_fresh : (withTurn t s).world.fresh = s.world.fresh := rfl
@[simp] theorem withTurn_disturbed : (withTurn t s).world.disturbed = s.world.disturbed := rfl
@[simp] theorem withTurn_spans : (withTurn t s).world.spans = s.world.spans := rfl
@[simp] theorem withTurn_unseen : (withTurn t s).world.unseen = s.world.unseen := rfl

end

/-! ### What the host may find of the output (R76, R296) -/

section
variable (lo hi : Nat) (w : World)

@[simp] theorem hideOutput_script : (hideOutput lo hi w).script = w.script := rfl
@[simp] theorem hideOutput_turns : (hideOutput lo hi w).turns = w.turns := rfl
@[simp] theorem hideOutput_hostData : (hideOutput lo hi w).hostData = w.hostData := rfl
@[simp] theorem hideOutput_fresh : (hideOutput lo hi w).fresh = w.fresh := rfl
@[simp] theorem hideOutput_disturbed : (hideOutput lo hi w).disturbed = w.disturbed := rfl
@[simp] theorem hideOutput_spans : (hideOutput lo hi w).spans = ⟨lo, hi, false⟩ :: w.spans := rfl
@[simp] theorem hideOutput_unseen : (hideOutput lo hi w).unseen = ⟨lo, hi, true⟩ :: w.unseen := rfl

@[simp] theorem seeOutput_script : (seeOutput w).script = w.script := rfl
@[simp] theorem seeOutput_turns : (seeOutput w).turns = w.turns := rfl
@[simp] theorem seeOutput_hostData : (seeOutput w).hostData = w.hostData := rfl
@[simp] theorem seeOutput_fresh : (seeOutput w).fresh = w.fresh := rfl
@[simp] theorem seeOutput_disturbed : (seeOutput w).disturbed = w.disturbed := rfl
@[simp] theorem seeOutput_spans : (seeOutput w).spans = w.spans := rfl
@[simp] theorem seeOutput_unseen : (seeOutput w).unseen = [] := rfl

end

section
variable {r : Reg} {s : State}

theorem worldAfterRead_of_idle (hb : busy s = false) : worldAfterRead .status s = seeOutput s.world := by
  simp [worldAfterRead, hb]

theorem worldAfterRead_of_not (h : ¬ (r = .status ∧ busy s = false)) : worldAfterRead r s = s.world := by
  rw [worldAfterRead, if_neg h]

variable (r s)

/-- A register read writes the mark of what the host has seen, and nothing else of the model's own. -/
theorem worldAfterRead_eq :
    worldAfterRead r s = { s.world with unseen := (worldAfterRead r s).unseen } := by
  unfold worldAfterRead
  split <;> rfl

@[simp] theorem worldAfterRead_script : (worldAfterRead r s).script = s.world.script := by
  rw [worldAfterRead_eq]
@[simp] theorem worldAfterRead_turns : (worldAfterRead r s).turns = s.world.turns := by
  rw [worldAfterRead_eq]
@[simp] theorem worldAfterRead_fresh : (worldAfterRead r s).fresh = s.world.fresh := by
  rw [worldAfterRead_eq]
@[simp] theorem worldAfterRead_disturbed : (worldAfterRead r s).disturbed = s.world.disturbed := by
  rw [worldAfterRead_eq]
@[simp] theorem worldAfterRead_spans : (worldAfterRead r s).spans = s.world.spans := by
  rw [worldAfterRead_eq]

end

/-! ### `advance` (R219) -/

/-- What `advance` can do: it writes `y`, `z` and the phase, and nothing else. -/
theorem advance_cases (depth : Nat) (z : BitVec 2) (y : BitVec 16) (s : State) :
    (y.toNat + 1 < s.cfg.height.toNat ∧ advance depth z y s
        = { s with y := some (BitVec.ofNat 16 (y.toNat + 1)), phase := .rowBegin }) ∨
      (¬ y.toNat + 1 < s.cfg.height.toNat ∧ z.toNat + 1 < depth ∧ advance depth z y s
        = { s with y := some 0, z := some (BitVec.ofNat 2 (z.toNat + 1)), phase := .rowBegin }) ∨
      (¬ y.toNat + 1 < s.cfg.height.toNat ∧ ¬ z.toNat + 1 < depth ∧
        advance depth z y s = { s with phase := .finish }) := by
  unfold advance
  split
  · exact .inl ⟨‹_›, rfl⟩
  · split
    · exact .inr (.inl ⟨‹_›, ‹_›, rfl⟩)
    · exact .inr (.inr ⟨‹_›, ‹_›, rfl⟩)

/-! ### BUSY is a function of the phase (R23) -/

@[simp] theorem busy_tick (s : State) : busy (tick s) = busy s := rfl

@[simp] theorem busy_withScript (ops : List HostOp) (s : State) : busy (withScript ops s) = busy s := rfl

@[simp] theorem busy_fail (e : ErrorKind) (info : Nat) (s : State) : busy (fail e info s) = false := rfl

@[simp] theorem busy_startRun (s : State) : busy (startRun s) = true := rfl

@[simp] theorem busy_clearResults (s : State) : busy (clearResults s) = busy s := rfl

@[simp] theorem busy_resetBlock (s : State) : busy (resetBlock s) = false := rfl

theorem busy_eq_false_iff (s : State) : busy s = false ↔ s.phase = .idle := by simp [busy]

theorem busy_eq_true_iff (s : State) : busy s = true ↔ s.phase ≠ .idle := by simp [busy]

end Sys2Proof.Machine
end

