-- ==== Sys2Proof/Laws/Ops.lean ====
section
/-! SUPPORT. Laws/Ops.lean: for each shared operation, once, everything it can do. -/

namespace Sys2Proof.Machine

/-! ### Registers that can hold no value -/

@[simp] theorem held_some {α : Type} (v : α) (l : Latch) (k : α → Result) :
    held (some v) l k = k v := rfl

@[simp] theorem held_none {α : Type} (l : Latch) (k : α → Result) :
    held (none : Option α) l k = .fault (.noValue l) := rfl

/-- A rule that reads a register and answers a next state found a value there. -/
theorem held_next {α : Type} {r : Option α} {l : Latch} {k : α → Result} {t : State}
    (h : held r l k = .next t) : ∃ v, r = some v ∧ k v = .next t := by
  cases r with
  | none => cases h
  | some v => exact ⟨v, rfl, h⟩

/-! ### Ranges of addresses -/

/-- Two ranges meet where some address that exists lies in both. -/
theorem rangesMeet_iff (lo hi lo' hi' : Nat) :
    rangesMeet lo hi lo' hi' = true ↔
      ∃ a < Config.addressSpace, (lo ≤ a ∧ a < hi) ∧ lo' ≤ a ∧ a < hi' := by
  simp only [rangesMeet, decide_eq_true_eq]
  constructor
  · intro h
    exact ⟨max lo lo', by omega, by omega, by omega⟩
  · rintro ⟨a, ha, h, h'⟩
    omega

/-- A row of the source meets a range where one of its rows does. -/
theorem someRowMeets_iff (c : ConfigRegs) (f : PixelFormat) (lo hi rows : Nat) :
    someRowMeets c f lo hi rows = true ↔
      ∃ r < rows,
        rangesMeet (rowAddr c r) (rowAddr c r + rowBytes f c.width.toNat) lo hi = true := by
  induction rows with
  | zero => simp [someRowMeets]
  | succ n ih =>
    rw [someRowMeets, Bool.or_eq_true, ih]
    constructor
    · rintro (h | ⟨r, hr, h⟩)
      · exact ⟨n, by omega, h⟩
      · exact ⟨r, by omega, h⟩
    · rintro ⟨r, hr, h⟩
      rcases Nat.lt_succ_iff_lt_or_eq.1 hr with hlt | rfl
      · exact .inr ⟨r, hlt, h⟩
      · exact .inl h

/-- The launch rule has two parts, and only the first depends on the capacity (R78). -/
theorem launchOverlaps_iff (p : Platform) (c : ConfigRegs) :
    launchOverlaps p c = true ↔ sourceInOutput c = true ∨ windowInBuffer p c = true := by
  simp [launchOverlaps]

/-! ### Memory when a run ends (R77, R270, R292) -/

theorem output_in_memory (c : ConfigRegs) (h : outputCount c ≠ 0) :
    outAddr c Config.headerBytes + outputCount c ≤ Config.addressSpace := by
  unfold outputCount at *
  omega

theorem mem_output_iff (c : ConfigRegs) (a : Nat) :
    (outAddr c Config.headerBytes ≤ a ∧ a < outAddr c Config.headerBytes + outputCount c) ↔
      inOutput c a = true ∧ a < Config.addressSpace := by
  simp only [inOutput, outputCount, Bool.and_eq_true, decide_eq_true_eq]
  omega

theorem memoryAfterRun_of_kept {s : State} (h : s.world.disturbed = false) :
    memoryAfterRun s = s.mem := by
  simp [memoryAfterRun, h]

theorem memoryAfterRun_of_check {s : State} (h : s.phase = .check) : memoryAfterRun s = s.mem := by
  simp [memoryAfterRun, h]

theorem wf_memoryAfterRun {s : State} (h : Memory.wf s.mem) : Memory.wf (memoryAfterRun s) := by
  unfold memoryAfterRun
  split
  · by_cases h0 : outputCount s.cfg = 0
    · simpa [h0, Memory.writeFree] using h
    · exact Memory.wf_writeFree (output_in_memory _ h0) h
  · exact h

/-- What memory reads when a run ends: free values in the output of a run that the host disturbed after
CHECK, what it held everywhere else. -/
theorem read_memoryAfterRun {s : State} (h : Memory.wf s.mem) (a : Nat) :
    Memory.read (memoryAfterRun s) a
      = if (s.world.disturbed = true ∧ s.phase ≠ .check) ∧ inOutput s.cfg a = true
            ∧ a < Config.addressSpace
        then Config.freeByte s.world.fresh a else Memory.read s.mem a := by
  unfold memoryAfterRun
  by_cases hd : s.world.disturbed = true ∧ s.phase ≠ .check
  · rw [if_pos (by simpa using hd)]
    by_cases h0 : outputCount s.cfg = 0
    · have hno := mem_output_iff s.cfg a
      rw [h0, Memory.writeFree, if_neg]
      rintro ⟨-, ho⟩
      have := hno.2 ho
      omega
    · rw [Memory.read_writeFree (output_in_memory _ h0) h]
      exact if_congr (by rw [mem_output_iff]; simp [hd]) rfl rfl
  · rw [if_neg (by simpa using hd), if_neg (fun hc => hd hc.1)]

theorem memoryAfterReset_of_idle {s : State} (h : busy s = false) : memoryAfterReset s = s.mem := by
  simp [memoryAfterReset, h]

theorem wf_memoryAfterReset {s : State} (h : Memory.wf s.mem) : Memory.wf (memoryAfterReset s) := by
  unfold memoryAfterReset
  split
  · refine wf_memoryAfterRun (s := { s with mem := memoryAfterAbandon s }) ?_
    show Memory.wf (memoryAfterAbandon s)
    unfold memoryAfterAbandon
    split
    · exact h
    · exact wf_memWriteSeq h
  · exact h

/-- An abandoned write touches no address outside the one it was making. -/
theorem read_memoryAfterAbandon {s : State} (h : Memory.wf s.mem) {a : Nat}
    (ha : ∀ b bs, pendingWrite s = some (b, bs) → ¬ (b ≤ a ∧ a < b + bs.length)) :
    Memory.read (memoryAfterAbandon s) a = Memory.read s.mem a := by
  unfold memoryAfterAbandon
  split
  · rfl
  · rename_i b bs hp
    have hlen : (abandonedBytes s.world.fresh (Config.freeCount s.world.fresh) b bs).length
        ≤ bs.length := by
      unfold abandonedBytes
      split
      · simp; omega
      · exact Nat.le_refl _
    have hout := ha b bs hp
    rcases memWriteSeq_cases s.plat s.mem b
        (abandonedBytes s.world.fresh (Config.freeCount s.world.fresh) b bs) with
      ⟨heq, hall⟩ | ⟨k, hk, heq, -, hall⟩
    · rw [heq]
      by_cases h0 : (abandonedBytes s.world.fresh (Config.freeCount s.world.fresh) b bs).length = 0
      · rw [List.length_eq_zero_iff.1 h0]; rfl
      · have := lt_of_accepts (hall _ (Nat.sub_lt (Nat.pos_of_ne_zero h0) Nat.one_pos))
        rw [Memory.read_writeList (by omega) h, if_neg (by omega)]
    · rw [heq]
      by_cases h0 : k = 0
      · subst h0; rfl
      · have := lt_of_accepts (hall (k - 1) (by omega))
        rw [Memory.read_writeList (by simp; omega) h, if_neg (by simp; omega)]

/-! ### Writing a sequence (R174) -/

/-- What `storeSeq` can do: all bytes are written and the rule goes on, or BusError is taken with the
bytes before the refused address written. -/
theorem storeSeq_cases (a : Nat) (bs : List Byte) (s : State) (k : State → Result) :
    (storeSeq a bs s k = k { s with mem := Memory.writeList s.mem a bs } ∧
        ∀ j < bs.length, accepts s.plat .write (a + j) = true) ∨
      ∃ j < bs.length,
        storeSeq a bs s k
          = .next (fail .busError (a + j) { s with mem := Memory.writeList s.mem a (bs.take j) }) ∧
        accepts s.plat .write (a + j) = false ∧ ∀ i < j, accepts s.plat .write (a + i) = true := by
  rcases memWriteSeq_cases s.plat s.mem a bs with ⟨heq, hall⟩ | ⟨j, hj, heq, hbad, hall⟩
  · exact .inl ⟨by simp [storeSeq, heq], hall⟩
  · exact .inr ⟨j, hj, by simp [storeSeq, heq], hbad, hall⟩

theorem storeSeq_of_accepts {a : Nat} {bs : List Byte} {s : State} {k : State → Result}
    (h : ∀ j < bs.length, accepts s.plat .write (a + j) = true) :
    storeSeq a bs s k = k { s with mem := Memory.writeList s.mem a bs } := by
  simp [storeSeq, memWriteSeq_of_accepts h]

theorem storeSeq_of_refused {a j : Nat} {bs : List Byte} {s : State} {k : State → Result}
    (hj : j < bs.length) (hok : ∀ i < j, accepts s.plat .write (a + i) = true)
    (hbad : accepts s.plat .write (a + j) = false) :
    storeSeq a bs s k
      = .next (fail .busError (a + j) { s with mem := Memory.writeList s.mem a (bs.take j) }) := by
  simp [storeSeq, memWriteSeq_of_refused hj hok hbad]

/-! ### The emitter (R172) -/

/-- What a packet's emission can do: OutputBufferExhausted with nothing written, or the write of its
bytes with everything after it. -/
theorem emitBytes_cases (bytes : List Byte) (need n : Nat) (dcur : Word) (x : BitVec 16) (s : State) :
    (exhausted s.cfg.outCap.toNat dcur.toNat need = true ∧
        emitBytes bytes need n dcur x s = .next (fail .outputBufferExhausted dcur.toNat s)) ∨
      (exhausted s.cfg.outCap.toNat dcur.toNat need = false ∧
        emitBytes bytes need n dcur x s
          = storeSeq (outAddr s.cfg dcur.toNat) bytes s fun t =>
              .next { t with
                dcur := some (BitVec.ofNat 32 (dcur.toNat + need))
                x := some (BitVec.ofNat 16 (x.toNat + n))
                phase := phaseAfter t.cfg.width.toNat (x.toNat + n) }) := by
  unfold emitBytes
  split
  · exact .inl ⟨‹_›, rfl⟩
  · rename_i h
    exact .inr ⟨by simpa using h, rfl⟩

/-- A packet's meaning that answers a next state was the packet the detector chose. -/
theorem whenChosen_next {i : Instr} {s t : State} {r : Result} (h : whenChosen i s r = .next t) :
    s.phase = .emit ∧ chosenPacket s = .ok i ∧ r = .next t := by
  unfold whenChosen at h
  split at h
  · rename_i hp
    split at h
    · rename_i j hj
      split at h
      · rename_i hji
        exact ⟨hp, hji ▸ hj, h⟩
      · cases h
    · cases h
  · cases h

theorem whenChosen_of_chosen {i : Instr} {s : State} {r : Result} (hp : s.phase = .emit)
    (hc : chosenPacket s = .ok i) : whenChosen i s r = r := by
  simp [whenChosen, hp, hc]

/-- What the detector's choice says of the registers it read (R150). -/
theorem chosenPacket_ok {s : State} {i : Instr} (h : chosenPacket s = .ok i) :
    ∃ g x, s.geom = some g ∧ s.x = some x ∧
      packetAt s.plat.policy s.sl g.width s.cfg.width.toNat x.toNat = some i := by
  unfold chosenPacket at h
  split at h
  · cases h
  · cases h
  · rename_i g x hg hx
    split at h
    · rename_i j hj
      refine ⟨g, x, hg, hx, ?_⟩
      rw [hj]
      exact congrArg some (by simpa using h)
    · cases h

/-! ### The host (R70, R77, R296) -/

/-- What the host finds at an address: any value while the run is BUSY with it, until the host has seen that the
run is over, or where a span says so; else what memory holds. -/
theorem hostByte_cases (s : State) (a : Nat) :
    (((busy s = true ∧ inOutput s.cfg a = true) ∨ isFree s.world.unseen a = true ∨ isFree s.world.spans a = true) ∧
        hostByte s a = Config.freeByte s.world.fresh a) ∨
      (¬ (busy s = true ∧ inOutput s.cfg a = true) ∧ isFree s.world.unseen a = false ∧
        isFree s.world.spans a = false ∧ hostByte s a = Memory.read s.mem a) := by
  unfold hostByte
  split
  · rename_i h
    exact .inl ⟨by simpa [or_assoc] using h, rfl⟩
  · rename_i h
    have h : (¬ (busy s = true ∧ inOutput s.cfg a = true) ∧ isFree s.world.unseen a = false) ∧
        isFree s.world.spans a = false := by simpa using h
    exact .inr ⟨h.1.1, h.1.2, h.2, rfl⟩

/-- What a host access to memory can do: stop at an address that does not exist or that is the register
window's, or go on. -/
theorem hostAccess_cases (a len : Nat) (s : State) (r : Result) :
    (Config.addressSpace < a + len ∧ hostAccess a len s r = .fault (.noSuchAddress (a + len - 1))) ∨
      (a + len ≤ Config.addressSpace ∧
        rangesMeet a (a + len) s.plat.regBase.toNat (windowEnd s.plat) = true ∧
        hostAccess a len s r = .refused .memoryAccessInWindow) ∨
      (a + len ≤ Config.addressSpace ∧
        rangesMeet a (a + len) s.plat.regBase.toNat (windowEnd s.plat) = false ∧
        hostAccess a len s r = r) := by
  unfold hostAccess
  split
  · exact .inl ⟨‹_›, rfl⟩
  · rename_i h
    split
    · exact .inr (.inl ⟨by omega, ‹_›, rfl⟩)
    · rename_i h'
      exact .inr (.inr ⟨by omega, by simpa using h', rfl⟩)

/-- What a register access can do: run the instruction of its key, or be refused (R70). -/
theorem registerAccess_cases (isWrite : Bool) (a : Nat) (w : AccessWidth) (data : Word) (s : State) :
    (∃ off i, windowOffset s.plat a = some off ∧ w = .word ∧
        decodeKey (accessKey isWrite off data) = .ok i ∧
        registerAccess isWrite a w data s = exec i s) ∨
      ∃ r, registerAccess isWrite a w data s = .refused r := by
  unfold registerAccess
  split
  · exact .inr ⟨_, rfl⟩
  · rename_i off hoff
    split
    · rename_i hw
      split
      · rename_i i hi
        exact .inl ⟨off, i, hoff, hw, hi, rfl⟩
      · exact .inr ⟨_, rfl⟩
    · exact .inr ⟨_, rfl⟩

/-! ### Whose step it is -/

theorem step_host {s : State} (h : nextTurn s = .host) : step s = hostTurn (tick s) := by
  simp [step, h]

theorem step_sequencer {s : State} (h : nextTurn s = .sequencer) :
    step s = sequencerTurn (tick s) := by
  simp [step, h]

theorem step_reset {s : State} (h : nextTurn s = .reset) :
    step s = .next (resetBlock (tick s)) := by
  simp [step, h]

theorem nextTurn_of_turns {s : State} {t : Turn} {rest : List Turn} (h : s.world.turns = t :: rest) :
    nextTurn s = t := by
  simp [nextTurn, h]

/-- What one step can do. -/
theorem step_cases (s : State) :
    (nextTurn s = .host ∧ step s = hostTurn (tick s)) ∨
      (nextTurn s = .sequencer ∧ step s = sequencerTurn (tick s)) ∨
      (nextTurn s = .reset ∧ step s = .next (resetBlock (tick s))) := by
  cases h : nextTurn s
  · exact .inl ⟨rfl, step_host h⟩
  · exact .inr (.inl ⟨rfl, step_sequencer h⟩)
  · exact .inr (.inr ⟨rfl, step_reset h⟩)

/-- What REG_WRITE can do (R241, R242). -/
theorem execRegWrite_cases (r : Reg) (v : Word) (s : State) :
    (r = .ctrl ∧ execRegWrite r v s = .refused .commandNotWrite) ∨
      (busy s = true ∧ execRegWrite r v s = .next s) ∨
      (busy s = false ∧ execRegWrite r v s = .next { s with cfg := writeConfig r v s.cfg }) := by
  unfold execRegWrite
  split
  · exact .inl ⟨‹_›, rfl⟩
  · split
    · exact .inr (.inl ⟨‹_›, rfl⟩)
    · rename_i h
      exact .inr (.inr ⟨by simpa using h, rfl⟩)

/-- What CMD_START can do (R243, R78). -/
theorem execCmdStart_cases (clear : Bool) (s : State) :
    (busy s = true ∧ execCmdStart clear s = .next s) ∨
      (busy s = false ∧ launchOverlaps s.plat s.cfg = true ∧
        execCmdStart clear s = .refused .overlappingLaunch) ∨
      (busy s = false ∧ launchOverlaps s.plat s.cfg = false ∧
        execCmdStart clear s = .next (startRun s)) := by
  unfold execCmdStart
  split
  · exact .inl ⟨‹_›, rfl⟩
  · rename_i h
    split
    · exact .inr (.inl ⟨by simpa using h, ‹_›, rfl⟩)
    · rename_i h'
      refine .inr (.inr ⟨by simpa using h, by simpa using h', ?_⟩)
      cases clear <;> rfl

/-- What CMD_CLEAR can do (R244). -/
theorem execCmdClear_cases (s : State) :
    (busy s = true ∧ execCmdClear s = .next s) ∨
      (busy s = false ∧ execCmdClear s = .next (clearResults s)) := by
  unfold execCmdClear
  split
  · exact .inl ⟨‹_›, rfl⟩
  · rename_i h
    exact .inr ⟨by simpa using h, rfl⟩

/-! ### CHECK (R127) -/

/-- What CHECK can do: one of its three errors, in their order, or the start of the first scanline. -/
theorem checkRun_cases (s : State) :
    (formatRow s.cfg.fmt = none ∧ checkRun s = .next (fail .unsupportedFormat 0 s)) ∨
      ∃ f, formatRow s.cfg.fmt = some f ∧
        ((legalResolution s.cfg = false ∧ checkRun s = .next (fail .unsupportedResolution 0 s)) ∨
          (legalResolution s.cfg = true ∧
            s.cfg.outCap.toNat < sizeBound f s.cfg.width.toNat s.cfg.height.toNat ∧
            checkRun s = .next (fail .outOfMemory 0 s)) ∨
          (legalResolution s.cfg = true ∧
            sizeBound f s.cfg.width.toNat s.cfg.height.toNat ≤ s.cfg.outCap.toNat ∧
            checkRun s = .next { s with
              geom := some ⟨f.depth, f.width, f.order, tableSize f.depth s.cfg.height.toNat⟩
              dcur := some (BitVec.ofNat 32 (dataStart f.depth s.cfg.height.toNat))
              z := some 0, y := some 0, sl := [], phase := .rowBegin })) := by
  cases hf : formatRow s.cfg.fmt with
  | none => exact .inl ⟨rfl, by simp [checkRun, hf]⟩
  | some f =>
    refine .inr ⟨f, rfl, ?_⟩
    by_cases hr : legalResolution s.cfg = true
    · by_cases hc : s.cfg.outCap.toNat < sizeBound f s.cfg.width.toNat s.cfg.height.toNat
      · exact .inr (.inl ⟨hr, hc, by simp [checkRun, hf, hr, hc]⟩)
      · exact .inr (.inr ⟨hr, by omega, by simp [checkRun, hf, hr, hc]⟩)
    · have hr' : legalResolution s.cfg = false := by simpa using hr
      exact .inl ⟨hr', by simp [checkRun, hf, hr']⟩

/-! ### FETCH (R195) -/

/-- FETCH writes as many entries as pixels it read; all of them where no read was refused. -/
theorem fetchSamples_length (g : Geometry) (row channel : Nat) (s : State) (count p : Nat) :
    (fetchSamples g row channel s count p).1.length ≤ count ∧
      ((fetchSamples g row channel s count p).2 = none →
        (fetchSamples g row channel s count p).1.length = count) := by
  induction count generalizing p with
  | zero => simp [fetchSamples]
  | succ n ih =>
    unfold fetchSamples
    split
    · simp
    · have h := ih (p + 1)
      constructor
      · simpa using h.1
      · intro hn; simpa using h.2 hn

end Sys2Proof.Machine
end

