-- ==== Sys2Proof/Laws/PerInstr.lean ====
section
/-! SUPPORT. Laws/PerInstr.lean: for each instruction, how many bytes its encoding has. -/

namespace Sys2Proof.Laws.EncodeLength

open Sys2Proof.Machine

/-- The length the table of R92 and R93 gives a packet; a register access is a key of five bytes
(log 20). -/
def Statement (i : Instr) : Prop :=
  i.wf = true → (encode i).length =
    match i with
    | .rep8 _ _ => 2
    | .lit8 n _ => 1 + n.toNat
    | .rep16 _ _ => 4
    | .lit16 n _ => (1 + n.toNat) * 2
    | .regRead _ => 5
    | .cmdStart _ => 5
    | .cmdClear => 5
    | .ctrlNop => 5
    | .regWrite _ _ => 5

theorem rep8 (n : BitVec 7) (v : Byte) : Statement (.rep8 n v) := fun _ => rfl

theorem lit8 (n : BitVec 7) (vs : List Byte) : Statement (.lit8 n vs) := by
  intro h
  have h : vs.length = n.toNat := by
    simp only [Instr.wf, literalCountOk, Bool.and_eq_true, beq_iff_eq] at h
    exact h.2
  simp [encode, flatMap_put_length .one, h]

theorem rep16 (n : BitVec 7) (v : Half) : Statement (.rep16 n v) := fun _ => rfl

theorem lit16 (n : BitVec 7) (vs : List Half) : Statement (.lit16 n vs) := by
  intro h
  have h : vs.length = n.toNat := by
    simp only [Instr.wf, literalCountOk, Bool.and_eq_true, beq_iff_eq] at h
    exact h.2
  have := flatMap_put_length .two id vs
  simp only [id] at this
  simp [encode, this, h, Nat.add_mul]

theorem regRead (r : Reg) : Statement (.regRead r) := fun _ => rfl
theorem cmdStart (clear : Bool) : Statement (.cmdStart clear) := fun _ => rfl
theorem cmdClear : Statement .cmdClear := fun _ => rfl
theorem ctrlNop : Statement .ctrlNop := fun _ => rfl
theorem regWrite (r : Reg) (v : Word) : Statement (.regWrite r v) := fun _ => rfl

end Sys2Proof.Laws.EncodeLength
end

