-- ==== Sys2Proof/Laws/Runs.lean ====
section
/-! SUPPORT. Laws/Runs.lean: writes and the end of a run, in the terms of Safety.lean. -/

namespace Sys2Proof.Machine

/-- Bytes written to addresses the bus accepts keep the canonical form. -/
theorem wf_writeList_of_accepts {p : Platform} {m : Memory} {a : Nat} {bs : List Byte} (h : Memory.wf m)
    (hok : acceptsWrites p a bs.length) : Memory.wf (Memory.writeList m a bs) := by
  by_cases h0 : bs = []
  · subst h0
    exact h
  · have hpos : 0 < bs.length := List.length_pos_iff.2 h0
    have hlt := lt_of_accepts (hok (bs.length - 1) (by omega))
    exact Memory.wf_writeList (by omega) h

/-- Bytes written to addresses the bus accepts are stored, and nothing else changes (R174). -/
theorem stores_writeList {p : Platform} {m : Memory} {a : Nat} {bs : List Byte} (h : Memory.wf m)
    (hok : acceptsWrites p a bs.length) : stores m (Memory.writeList m a bs) a bs := by
  by_cases h0 : bs = []
  · subst h0
    exact ⟨fun k b hb => by simp at hb, fun _ _ => rfl⟩
  · have hpos : 0 < bs.length := List.length_pos_iff.2 h0
    have hlt := lt_of_accepts (hok (bs.length - 1) (by omega))
    constructor
    · intro k b hb
      have hk : k < bs.length := (List.getElem?_eq_some_iff.1 hb).1
      rw [Memory.read_writeList (by omega) h, if_pos (by omega)]
      simp [List.getD, hb]
    · intro b hb
      rw [Memory.read_writeList (by omega) h, if_neg hb]

/-- The end of a run that has passed CHECK leaves memory as R77 says. -/
theorem leavesMemory_memoryAfterRun {s : State} (hp : s.phase ≠ .check) :
    leavesMemory s s.world.fresh s.mem (memoryAfterRun s) := by
  refine ⟨memoryAfterRun_of_kept, fun hd hw a => ?_⟩
  rw [read_memoryAfterRun hw]
  refine if_congr ?_ rfl rfl
  have hout : inOutput s.cfg a = true ↔
      s.cfg.outBase.toNat + 512 ≤ a ∧ a < s.cfg.outBase.toNat + s.cfg.outCap.toNat := by
    rw [inOutput, Bool.and_eq_true]
    exact and_congr decide_eq_true_iff decide_eq_true_iff
  rw [hout]
  exact ⟨fun h => ⟨h.2.1.1, h.2.1.2, h.2.2⟩, fun h => ⟨⟨hd, hp⟩, ⟨h.1, h.2.1⟩, h.2.2⟩⟩

/-- A write that the bus refuses at byte `k` stores the bytes before it and ends the run in BusError
(R174, R266, R270). -/
theorem storeSeq_refused {s : State} {a k : Nat} {bs : List Byte} {next : State → Result}
    (hp : s.phase ≠ .check) (hw : Memory.wf s.mem) (hk : k < bs.length) (h : refusesAt s.plat a k) :
    ∃ m t, storeSeq a bs s next = .next t ∧ Memory.wf m ∧ stores s.mem m a (bs.take k) ∧
      endsInBusError s t s.world.fresh (a + k) m := by
  have hok : acceptsWrites s.plat a (bs.take k).length := fun j hj => h.1 j (by simp at hj; omega)
  exact ⟨_, _, storeSeq_of_refused hk h.1 h.2, wf_writeList_of_accepts hw hok, stores_writeList hw hok, _, _, rfl,
    leavesMemory_memoryAfterRun (s := { s with mem := Memory.writeList s.mem a (bs.take k) }) hp⟩

end Sys2Proof.Machine
end

