-- ==== Sys2Proof/Tests/Slice0.lean ====
section
/-! SUPPORT. Tests/Slice0.lean: the author's tests, their expected values taken from the spec, and for each
statement with hypotheses a concrete state and operands that meet them. -/

namespace Sys2Proof.Machine.Tests

/-! ### WellFormed refuses an ill-formed term of each kind (R92, R93, R241) -/

theorem test_wf_repeat_one : Instr.wf (.rep8 1 0x42) = false := by decide
theorem test_wf_repeat16_zero : Instr.wf (.rep16 0 0x1234) = false := by decide
theorem test_wf_literal_empty : Instr.wf (.lit8 0 []) = false := by decide
theorem test_wf_literal_short : Instr.wf (.lit8 3 [1, 2]) = false := by decide
theorem test_wf_literal16_long : Instr.wf (.lit16 1 [1, 2]) = false := by decide
theorem test_wf_write_ctrl : Instr.wf (.regWrite .ctrl 1) = false := by decide
theorem test_wf_accepts :
    Instr.wf (.rep8 2 0) = true ∧ Instr.wf (.rep16 127 0) = true ∧ Instr.wf (.lit8 1 [9]) = true ∧
      Instr.wf (.lit16 2 [1, 2]) = true ∧ Instr.wf (.regRead .ctrl) = true ∧
      Instr.wf (.cmdStart true) = true ∧ Instr.wf .cmdClear = true ∧ Instr.wf .ctrlNop = true ∧
      Instr.wf (.regWrite .reserved3C 5) = true := by decide

/-! ### Words written out from the spec's encodings (R91-R93, R96, R100, R102) -/

/-- R176's worked example: control byte 0, 000 0010, then the sample. -/
theorem test_decode_rep8 :
    decode .ctrl8 [0b00000010, 0x42, 0x99] = .ok (.rep8 2 0x42, [0x99]) := by decide
/-- R177's worked example: control byte 1, 000 0011, then three samples. -/
theorem test_decode_lit8 : decode .ctrl8 [0b10000011, 1, 2, 3] = .ok (.lit8 3 [1, 2, 3], []) := by decide
/-- 95_test_vectors V14: the control word is big-endian. -/
theorem test_decode_rep16 :
    decode .ctrl16 [0b00000000, 0b00000010, 0x12, 0x34] = .ok (.rep16 2 0x1234, []) := by decide
/-- 95_test_vectors V16. -/
theorem test_decode_lit16 :
    decode .ctrl16 [0, 0b10000010, 0x00, 0x01, 0x01, 0x00] = .ok (.lit16 2 [0x0001, 0x0100], []) := by
  decide
/-- R102: bit 38 is 0, bits 37:32 are 0x30, the data is dropped. -/
theorem test_decode_regRead : decodeKey (0b0#1 ++ 0b110000#6 ++ 0xFFFFFFFF#32) = .ok (.regRead .resultSize) := by
  decide
/-- R100: data bits 31:2 are ignored. -/
theorem test_decode_cmdStart :
    decodeKey (0b1#1 ++ 0b000000#6 ++ 0xFFFFFFFD#32) = .ok (.cmdStart false) ∧
      decodeKey (0b1#1 ++ 0b000000#6 ++ 0x00000003#32) = .ok (.cmdStart true) := by decide
theorem test_decode_cmdClear : decodeKey (0b1#1 ++ 0b000000#6 ++ 0x00000006#32) = .ok .cmdClear := by decide
theorem test_decode_ctrlNop : decodeKey (0b1#1 ++ 0b000000#6 ++ 0x00000004#32) = .ok .ctrlNop := by decide
/-- Program P1 of 95_test_vectors: WR OUT_CAP, 538 is (0x20, 0x0000_021A). -/
theorem test_decode_regWrite :
    decodeKey (0b1#1 ++ 0b100000#6 ++ 0x0000021A#32) = .ok (.regWrite .outCap 538) := by decide
/-- The control values of R96 and the misaligned offset of R70 are no instruction. -/
theorem test_decode_refuses :
    decode .ctrl8 [0x00, 1] = .error .repeatCount ∧ decode .ctrl8 [0x01, 1] = .error .repeatCount ∧
      decode .ctrl8 [0x80, 1] = .error .emptyLiteral ∧
      decode .ctrl16 [0x01, 0x02, 1, 1] = .error .controlHighByte ∧
      decodeKey (0b1#1 ++ 0b000110#6 ++ 0#32) = .error .misalignedOffset := by decide
/-- The opcode table's own patterns, numbered as the table numbers them. -/
theorem test_decodeTableWord :
    decodeTableWord 8 0x02 = some (.rep8 2 0) ∧ decodeTableWord 8 0x81 = some (.lit8 1 [0]) ∧
      decodeTableWord 16 0x0002 = some (.rep16 2 0) ∧ decodeTableWord 16 0x0081 = some (.lit16 1 [0]) ∧
      decodeTableWord 40 0x4000000001 = some (.cmdStart false) ∧ decodeTableWord 8 0x00 = none := by decide

/-! ### The run detector and the emitter's bytes (95_test_vectors) -/

/-- V4: the two scan policies differ. -/
theorem test_V4 :
    encodeScanline .doc [1, 2, 2, 3] .one = [0x81, 1, 2, 2, 0x81, 3] ∧
      encodeScanline .upstream [1, 2, 2, 3] .one = [0x84, 1, 2, 2, 3] := by decide
/-- V12, V26. -/
theorem test_V12 :
    encodeScanline .doc [1, 1, 1, 2, 3, 3] .one = [3, 1, 0x81, 2, 2, 3] ∧
      encodeScanline .doc [7, 8, 8] .one = [0x81, 7, 2, 8] := by decide
/-- V18, third row: the literal stops at 126 under DOC, at 127 under UPSTREAM. -/
theorem test_V18 :
    let sl := (List.range 126).map (BitVec.ofNat 16) ++ [0xC8, 0xC8]
    detect .doc sl .one 128 0 = (.lit, 126) ∧ detect .upstream sl .one 128 0 = (.lit, 127) ∧
      detect .doc sl .one 128 126 = (.rep, 2) := by decide +kernel
/-- V29: a repeat packet of 127, then a literal packet of one, two bytes a sample. -/
theorem test_V29 :
    encodeScanline .doc (List.replicate 128 0xFFFF) .two
      = [0x00, 0x7F, 0xFF, 0xFF, 0x00, 0x81, 0xFF, 0xFF] := by decide +kernel
/-- V27: no absorption when `B = 2`. -/
theorem test_V27 :
    encodeScanline .upstream [1, 2, 2, 3, 3, 4] .one = [0x86, 1, 2, 2, 3, 3, 4] ∧
      encodeScanline .upstream [1, 2, 2, 3] .two = [0, 0x81, 0, 1, 0, 2, 0, 2, 0, 0x81, 0, 3] := by decide
/-- V15: the byte order at fetch. -/
theorem test_V15 : assemble .le 0x34 0x12 = 0x1234 ∧ assemble .be 0x34 0x12 = 0x3412 := by decide
/-- V19: the least and the greatest bound, and one of P2. -/
theorem test_V19 :
    sizeBound ⟨1, .one, .be⟩ 1 1 = 523 ∧ sizeBound ⟨4, .two, .be⟩ 65535 65535 = 68720001512 ∧
      sizeBound ⟨3, .one, .be⟩ 3 2 = 602 := by decide
/-- V21: RGB8, 3 x 2, channel 1 of source row 1. -/
theorem test_V21 :
    let c := { ConfigRegs.reset with srcBase := 0x1000, srcStride := 12 }
    srcAddr c 3 .one (sourceRow 2 0) 1 1 = 0x1010 := by decide
/-- V31: the room for a packet. -/
theorem test_V31 :
    exhausted 538 536 2 = false ∧ exhausted 538 537 2 = true ∧ exhausted 600 590 10 = false ∧
      exhausted 600 591 10 = true := by decide

/-! ### Small states -/

/-- The source's example V1 (GRAY8, 2 x 2, all samples 0x42) in its first scanline, in a given phase. -/
def grayCfg : ConfigRegs :=
  { fmt := 0, width := 2, height := 2, srcBase := 0x2000, srcStride := 2, outBase := 0x8000
    outCap := 538, intEn := true }

/-- V1's source bytes. -/
def grayMem : Memory := [(0x2000, 0x42), (0x2001, 0x42), (0x2002, 0x42), (0x2003, 0x42)]

/-- SL in a phase of a scanline of V1: no entry of it before FETCH nor after ROW_END (R36); in the other phases two
samples, in CHECK those of an earlier run. -/
def grayLine : Phase → List Half
  | .rowBegin => []
  | .fetch => []
  | .finish => []
  | .idle => [0x42, 0x42]
  | .check => [0x42, 0x42]
  | .emit => [0x42, 0x42]
  | .rowEnd => [0x42, 0x42]

/-- V1 in a phase, with the turns and the script given. -/
def gray (ph : Phase) (ts : List Turn) (ops : List HostOp) : State :=
  { State.reset with
    cfg := grayCfg, phase := ph, z := some 0, y := some 0, x := some 0
    geom := some ⟨1, .one, .be, 8⟩, dcur := some 528, rstart := some 528, sl := grayLine ph
    mem := grayMem, world := { World.initial with turns := ts, script := ops } }

/-- A scanline of two different 16-bit samples (V16) at its first packet. -/
def gray16 : State :=
  { gray .emit [.sequencer] [] with
    cfg := { grayCfg with fmt := 4, height := 1, outCap := 530 }
    geom := some ⟨1, .two, .be, 4⟩, dcur := some 520, rstart := some 520, sl := [0x0001, 0x0100] }

/-- V1 after an error with a code: idle. -/
def failed (code : BitVec 4) (ts : List Turn) : State :=
  { gray .idle ts [] with status := { done := false, err := true, keyframe := false, errCode := code } }

/-- A bus that refuses a write of one address. -/
def refusing (a : Nat) (s : State) : State :=
  { s with plat := { s.plat with holes := [⟨.write, a, a + 1⟩, ⟨.read, a, a + 1⟩] } }

/-- The host has broken R77 in this run. -/
def disturb (s : State) : State := { s with world := { s.world with disturbed := true } }

/-- With no hole every address that exists is accepted. -/
theorem accepts_open {p : Platform} (h : p.holes = []) {k : AccessKind} {a : Nat} (ha : a < 2 ^ 32) :
    accepts p k a = true := by
  simp only [accepts, admits, h, List.any_nil, Bool.not_false, Bool.and_true]
  exact decide_eq_true ha

theorem acceptsWrites_open {p : Platform} (h : p.holes = []) {a len : Nat} (ha : a + len ≤ 2 ^ 32) :
    acceptsWrites p a len := fun _ _ => accepts_open h (by omega)

/-! ### One step of each micro-operation and instruction (V22, V23, V25) -/

/-- V22 step 1. -/
theorem test_check :
    step (gray .check [.sequencer] []) = .next
      { gray .rowBegin [] [] with x := some 0, rstart := some 528
                                  world := { World.initial with fresh := 1 } } := by rfl
/-- V22 step 2: `00 00 02 10` at 512-515, the zero bytes as unlisted memory reads. -/
theorem test_rowBegin :
    step (gray .rowBegin [.sequencer] []) = .next
      { gray .fetch [] [] with mem := grayMem ++ [(0x8202, 0x02), (0x8203, 0x10)]
                               world := { World.initial with fresh := 1 } } := by rfl
/-- V22 step 4: `02 42` at 528-529, through REP8. -/
theorem test_rep8 :
    exec (.rep8 2 0x42) (gray .emit [] []) = .next
      { gray .rowEnd [] [] with mem := grayMem ++ [(0x8210, 0x02), (0x8211, 0x42)]
                                dcur := some 530, x := some 2 } := by rfl
/-- A packet the detector does not choose is not emitted. -/
theorem test_packet_not_chosen :
    exec (.lit8 2 [0x42, 0x42]) (gray .emit [] []) = .refused .packetNotChosen := by rfl
/-- V16: `00 82 00 01 01 00`. -/
theorem test_lit16 :
    exec (.lit16 2 [0x0001, 0x0100]) gray16 = .next
      { gray16 with mem := grayMem ++ [(0x8209, 0x82), (0x820B, 0x01), (0x820C, 0x01)]
                    dcur := some 526, x := some 2, phase := .rowEnd } := by rfl
/-- V14: `00 02 12 34`. -/
theorem test_rep16 :
    exec (.rep16 2 0x1234) { gray16 with sl := [0x1234, 0x1234] } = .next
      { gray16 with sl := [0x1234, 0x1234]
                    mem := grayMem ++ [(0x8209, 0x02), (0x820A, 0x12), (0x820B, 0x34)]
                    dcur := some 524, x := some 2, phase := .rowEnd } := by rfl
/-- V28: `82 01 02` for two different samples. -/
theorem test_lit8 :
    exec (.lit8 2 [1, 2]) { gray .emit [] [] with sl := [1, 2] } = .next
      { gray .rowEnd [] [] with sl := [1, 2]
                                mem := grayMem ++ [(0x8210, 0x82), (0x8211, 1), (0x8212, 2)]
                                dcur := some 531, x := some 2 } := by rfl
/-- V22 step 5: `00 00 00 02` at 520-523, then row 1. -/
theorem test_rowEnd :
    step { gray .rowEnd [.sequencer] [] with dcur := some 530 } = .next
      { gray .rowBegin [] [] with mem := grayMem ++ [(0x820B, 0x02)], y := some 1, dcur := some 530
                                  world := { World.initial with fresh := 1 } } := by rfl
/-- V22 step 10: STATUS is 0x0000_000A and `irq` 1. -/
theorem test_finish :
    ∃ t, step { gray .finish [.sequencer] [] with dcur := some 532 } = .next t ∧
      t.resultSize = 532 ∧ statusWord t = 0x0000000A ∧ irq t = true ∧ t.phase = .idle :=
  ⟨_, rfl, by decide, by decide, by decide, by decide⟩
/-- R76, R296: the output of the finished run is any value to the host until it reads STATUS with BUSY = 0; a read
of another register does not show it. -/
theorem test_output_unseen :
    ∃ t u v, step { gray .finish [.sequencer] [] with dcur := some 532 } = .next t ∧
      hostByte t 0x8213 = Config.freeByte 1 0x8213 ∧
      exec (.regRead .resultSize) t = .next u ∧ hostByte u 0x8213 = Config.freeByte 1 0x8213 ∧
      exec (.regRead .status) u = .next v ∧ hostByte v 0x8213 = 0x00 ∧ v.world.hostData = 0x0000000A :=
  ⟨_, _, _, rfl, rfl, rfl, rfl, rfl, rfl, rfl⟩
/-- R76: a STATUS read with BUSY = 0 shows the output after CLEAR too. -/
theorem test_output_seen_after_clear :
    ∃ t u v, step { gray .finish [.sequencer] [] with dcur := some 532 } = .next t ∧
      exec .cmdClear t = .next u ∧ hostByte u 0x8213 = Config.freeByte 1 0x8213 ∧
      exec (.regRead .status) u = .next v ∧ v.world.hostData = 0 ∧ hostByte v 0x8213 = 0x00 :=
  ⟨_, _, _, rfl, rfl, rfl, rfl, rfl, rfl⟩
/-- V25, second case: the first EMIT write is refused at 0x8210; STATUS is 0x0000_0504. -/
theorem test_emit_busError :
    ∃ t, exec (.rep8 2 0x42) (refusing 0x8210 (gray .emit [] [])) = .next t ∧
      statusWord t = 0x00000504 ∧ t.errInfo = 0x00008210 ∧ t.mem = grayMem ∧ t.dcur = some 528 :=
  ⟨_, rfl, by decide, by decide, by decide, by decide⟩
/-- V25, fourth case: the source address 2^32 does not exist; ERR_INFO is 0. -/
theorem test_fetch_busError :
    ∃ t, fetchLine { gray .fetch [] [] with cfg := { grayCfg with srcBase := 0xFFFFFFFE } } = .next t ∧
      statusWord t = 0x00000504 ∧ t.errInfo = 0 :=
  ⟨_, rfl, by decide, by decide⟩
/-- R270 and R77: after a run that failed, the block reads its old output as memory holds it. -/
theorem test_read_after_failure :
    memRead (fail .outOfMemory 0 (gray .check [] [])) 0x8200 = .ok 0x00 ∧
      memRead (fail .busError 0 { gray .emit [] [] with mem := [(0x8210, 0x02)] }) 0x8210 = .ok 0x02 :=
  ⟨by rfl, by rfl⟩
/-- V20: the format is checked first. -/
theorem test_check_format :
    ∃ t, checkRun { gray .check [] [] with cfg := { grayCfg with fmt := 15, width := 0 } } = .next t ∧
      statusWord t = 0x00000104 ∧ t.resultSize = 0 := ⟨_, rfl, by decide, by decide⟩
/-- V23: WR FORMAT, 0xFFFF_FFF3 then RD FORMAT answers 0x0000_0003. -/
theorem test_regWrite_format :
    ∃ t, exec (.regWrite .format 0xFFFFFFF3) State.reset = .next t ∧ regValue .format t = 3 :=
  ⟨_, rfl, by decide⟩
/-- V23: while BUSY, WR WIDTH is ignored. -/
theorem test_regWrite_busy :
    exec (.regWrite .width 5) (gray .fetch [] []) = .next (gray .fetch [] []) := by rfl
/-- V23: while BUSY, RD STATUS answers 0x0000_0001. -/
theorem test_regRead_status :
    ∃ t, exec (.regRead .status) (gray .fetch [] []) = .next t ∧ t.world.hostData = 1 :=
  ⟨_, rfl, by decide⟩
/-- P1: RD REQ_SIZE_LO answers 538. -/
theorem test_regRead_reqSize :
    ∃ t, exec (.regRead .reqSizeLo) (gray .idle [] []) = .next t ∧ t.world.hostData = 0x21A :=
  ⟨_, rfl, by decide⟩
/-- V23: WR CTRL, 0x3 leaves STATUS = 0x0000_0001. -/
theorem test_cmdStart :
    ∃ t, exec (.cmdStart true) (failed 2 []) = .next t ∧ statusWord t = 1 ∧ t.phase = .check :=
  ⟨_, rfl, by decide, by decide⟩
/-- V23: CLEAR with STATUS = 0x0000_0204 leaves 0. -/
theorem test_cmdClear :
    statusWord (failed 2 []) = 0x00000204 ∧
      ∃ t, exec .cmdClear (failed 2 []) = .next t ∧ statusWord t = 0 :=
  ⟨by decide, _, rfl, by decide⟩
/-- V23: WR CTRL, 0x0: nothing happens. -/
theorem test_ctrlNop : exec .ctrlNop (failed 2 []) = .next (failed 2 []) := by rfl

/-! ### withFetchWord -/

theorem test_fetchWord_packet :
    ∃ t, step (State.withFetchWord State.reset 8 0x02) = .next t ∧ t.dcur = some 522 ∧
      t.mem = [(520, 2)] := ⟨_, rfl, by decide, by decide⟩
theorem test_fetchWord_access :
    ∃ t, step (State.withFetchWord State.reset 40 0x4C00000002) = .next t ∧ t.cfg.width = 2 :=
  ⟨_, rfl, by decide⟩

/-! ### What each statement assumes is met: a concrete state and operands -/

theorem witness_DecodeEncodeRoundTrip :
    Instr.wf (.rep8 127 0xFF) = true ∧ Instr.wf (.rep16 2 0xFFFF) = true ∧
      Instr.wf (.lit8 127 (List.replicate 127 7)) = true ∧ Instr.wf (.lit16 1 [0xFFFF]) = true ∧
      Instr.wf (.regWrite .format 0xFFFFFFFF) = true := by decide +kernel

theorem witness_AccessKeyTable :
    ((0x00 : BitVec 6).toNat, Reg.ctrl) = (0x00, .ctrl) ∧
      ((0x3C : BitVec 6).toNat, Reg.reserved3C) = (0x3C, .reserved3C) ∧ Reg.reserved3C ≠ .ctrl ∧
      (0x01 : BitVec 6).toNat % 4 ≠ 0 ∧ (0x3F : BitVec 6).toNat % 4 ≠ 0 := by decide

theorem witness_NeverEmitsReservedControl :
    chosenPacket (gray .emit [] []) = .ok (.rep8 2 0x42) ∧
      (gray .emit [] []).geom = some ⟨1, .one, .be, 8⟩ ∧
      chosenPacket gray16 = .ok (.lit16 2 [0x0001, 0x0100]) ∧ gray16.geom = some ⟨1, .two, .be, 4⟩ :=
  ⟨rfl, rfl, rfl, rfl⟩

/-- The window's last register, and CTRL at its first address. -/
theorem witness_StepRunsHostAccess :
    let s := gray .idle [.host] [.wr 0x4000003C .word 5]
    let t := gray .idle [.host] [.rd 0x40000000 .word]
    (nextTurn s = .host ∧ windowOffset s.plat 0x4000003C = some 0x3C ∧
      s.world.script = [.wr 0x4000003C .word 5] ∧
      decodeKey (accessKey true 0x3C 5) = .ok (.regWrite .reserved3C 5)) ∧
    (nextTurn t = .host ∧ windowOffset t.plat 0x40000000 = some 0x00 ∧
      t.world.script = [.rd 0x40000000 .word] ∧
      decodeKey (accessKey false 0x00 0) = .ok (.regRead .ctrl)) := by
  refine ⟨⟨rfl, ?_, rfl, ?_⟩, rfl, ?_, rfl, ?_⟩ <;> decide

theorem witness_StepRunsChosenPacket :
    nextTurn gray16 = .sequencer ∧ gray16.phase = .emit ∧
      chosenPacket gray16 = .ok (.lit16 2 [0x0001, 0x0100]) := ⟨rfl, rfl, rfl⟩

theorem witness_PlacedAccessRunsNext :
    0x7C00000005 < 2 ^ 39 ∧ decodeTableWord 40 0x7C00000005 = some (.regWrite .reserved3C 5) ∧
      0 < 2 ^ 39 ∧ decodeTableWord 40 0 = some (.regRead .ctrl) := by decide

/-- A legal configuration at each end of each range, and one just past each. -/
theorem witness_ReqSizeReadsBound :
    let c := { grayCfg with fmt := 8, width := 65535, height := 1 }
    ((c.fmt.toNat, 4, 2) ∈ [(0, 1, 1), (1, 3, 1), (2, 4, 1), (3, 1, 2), (4, 1, 2), (5, 3, 2),
        (6, 3, 2), (7, 4, 2), (8, 4, 2)] ∧
      1 ≤ c.width.toNat ∧ c.width.toNat ≤ 65535 ∧ 1 ≤ c.height.toNat ∧ c.height.toNat ≤ 65535) ∧
    ¬ ({ c with fmt := 9 } : ConfigRegs).fmt.toNat ≤ 8 ∧
    ¬ ({ c with width := 65536 } : ConfigRegs).width.toNat ≤ 65535 ∧
    ¬ 1 ≤ ({ c with height := 0 } : ConfigRegs).height.toNat ∧
    State.reset.cfg = State.reset.cfg := by decide

theorem witness_SizeBoundRange :
    let big := { grayCfg with fmt := 8, width := 65535, height := 65535 }
    legalFormat grayCfg = some ⟨1, .one, .be⟩ ∧ legalFormat big = some ⟨4, .two, .be⟩ ∧
      2 ^ 32 - 1 < sizeBound ⟨4, .two, .be⟩ big.width.toNat big.height.toNat := by decide

theorem witness_ReservedReadsZero :
    exec (.regWrite .format 0xFFFFFFFF) State.reset
      = .next { State.reset with cfg := { ConfigRegs.reset with fmt := 15 } } := by rfl

/-- For RegWriteEffect, StartBeginsRun, ClearThenStart and ClearClearsResults, their idle clauses. -/
theorem witness_idle : busy (gray .idle [] []) = false ∧
    launchOverlaps (gray .idle [] []).plat (gray .idle [] []).cfg = false := by decide

/-- For the same four, their BUSY clauses. -/
theorem witness_busy : busy (gray .check [] []) = true ∧ busy (gray .finish [] []) = true := by decide

/-- A step while BUSY that answers a next state, not a reset. -/
theorem witness_ConfigFrozenWhileBusy :
    let s := gray .fetch [.host] [.wr 0x4000000C .word 5]
    busy s = true ∧ nextTurn s = .host ∧
      step s = .next { gray .fetch [] [] with world := { World.initial with fresh := 1 } } :=
  ⟨rfl, rfl, rfl⟩

theorem witness_StepKeepsPlatform :
    step (gray .idle [.sequencer] []) = .next
      { gray .idle [] [] with world := { World.initial with fresh := 1 } } := by rfl

/-- Each way to overlap is met: the source inside the output, the window in the output buffer (also where CHECK
would report the capacity or the format), and the window in the source. -/
theorem witness_OverlappingLaunchRefused :
    let launch := fun c : ConfigRegs => exec (.cmdStart false) { gray .idle [] [] with cfg := c }
    busy (gray .idle [] []) = false ∧
      launch { grayCfg with srcBase := 0x8200 } = .refused .overlappingLaunch ∧
      launch { grayCfg with outBase := 0x40000000 } = .refused .overlappingLaunch ∧
      launch { grayCfg with outBase := 0x4000003F, outCap := 1 } = .refused .overlappingLaunch ∧
      launch { grayCfg with outBase := 0x4000003F, fmt := 9 } = .refused .overlappingLaunch ∧
      launch { grayCfg with srcBase := 0x4000003F } = .refused .overlappingLaunch :=
  ⟨rfl, rfl, rfl, rfl, rfl, rfl⟩

/-- A byte access, and a word access at an address that is no multiple of 4. -/
theorem witness_OtherAccessesRefused :
    let s := gray .idle [.host] [.wr 0x40000000 .byte 1]
    let t := gray .idle [.host] [.rd 0x4000003F .word]
    (nextTurn s = .host ∧ inWindow s.plat 0x40000000 ∧ AccessWidth.byte ≠ .word ∧
      s.world.script = [.wr 0x40000000 .byte 1]) ∧
    (nextTurn t = .host ∧ inWindow t.plat 0x4000003F ∧
      (0x4000003F - t.plat.regBase.toNat) % 4 ≠ 0 ∧ t.world.script = [.rd 0x4000003F .word]) := by
  refine ⟨⟨rfl, ?_, ?_, rfl⟩, rfl, ?_, ?_, rfl⟩
  · exact ⟨by decide, by decide⟩
  · decide
  · exact ⟨by decide, by decide⟩
  · decide

/-- A host step, and a step that ends the run. -/
theorem witness_NoCommandStopsRun :
    (∃ t, step (gray .emit [.host] [.wr 0x40000000 .word 2]) = .next t ∧ busy t = true) ∧
      ∃ t, step (gray .finish [.sequencer] []) = .next t ∧ busy t = false :=
  ⟨⟨_, rfl, rfl⟩, _, rfl, rfl⟩

theorem witness_OnlyStartLeavesIdle :
    (gray .idle [.host] [.wr 0x40000000 .word 1]).phase = .idle ∧
      (∃ t, step (gray .idle [.host] [.wr 0x40000000 .word 1]) = .next t ∧ t.phase ≠ .idle) ∧
      ∃ t, nextTurn (gray .idle [.sequencer] []) = .sequencer ∧
        step (gray .idle [.sequencer] []) = .next t :=
  ⟨rfl, ⟨_, rfl, by decide⟩, _, rfl, rfl⟩

theorem witness_ErrorsOnlyFromRun :
    let s := { gray .check [.sequencer] [] with cfg := { grayCfg with fmt := 9 } }
    s.status.err = false ∧ ∃ t, step s = .next t ∧ t.status.err = true := ⟨rfl, _, rfl, rfl⟩

/-- A state of each phase of V1's first scanline is legal. -/
theorem inv_gray (ph : Phase) (hp : ph ≠ .rowEnd ∧ ph ≠ .finish) (ts : List Turn) (ops : List HostOp) :
    Inv (gray ph ts ops) where
  memory := by
    show Memory.wf grayMem
    decide
  status :=
    { busy_clear := fun _ => ⟨rfl, rfl⟩
      one_result := fun h => by cases h.1
      keyframe_done := rfl
      code_zero := fun _ => rfl
      code_named := fun h => by cases h }
  result := { size_zero := fun _ => rfl, info_zero := fun _ => rfl }
  run := by
    have frame : FrameLegal (gray ph ts ops) ⟨1, .one, .be⟩ 0 0 528 :=
      { format := by show legalFormat grayCfg = _; decide
        room := by show sizeBound _ grayCfg.width.toNat grayCfg.height.toNat ≤ grayCfg.outCap.toNat; decide
        geometry := rfl, z_held := rfl, y_held := rfl, dcur_held := rfl
        z_lt := by decide
        y_lt := by show _ < grayCfg.height.toNat; decide }
    have bounds : lineFloor grayCfg ⟨1, .one, .be⟩ 0 ≤ 528 ∧ 528 ≤ lineCeiling grayCfg ⟨1, .one, .be⟩ 0 := by
      decide
    have line : LineLegal (gray ph ts ops) ⟨1, .one, .be⟩ 0 528 := ⟨rfl, bounds.1, bounds.2⟩
    cases ph with
    | idle => exact .inl rfl
    | check => exact .inr (.inl rfl)
    | rowBegin => exact .inr (.inr ⟨_, _, _, _, frame, rfl, bounds⟩)
    | fetch => exact .inr (.inr ⟨_, _, _, _, frame, rfl, line⟩)
    | emit =>
      refine .inr (.inr ⟨_, _, _, _, frame, 528, 0, line, ?_⟩)
      exact
        { x_held := rfl, x_lt := by show _ < grayCfg.width.toNat; decide, line_written := rfl
          low_samples := fun _ => by show ∀ v ∈ ([0x42, 0x42] : List Half), v.toNat < 256; simp
          least := rfl, most := by decide }
    | rowEnd => exact absurd rfl hp.1
    | finish => exact absurd rfl hp.2

theorem witness_InterruptLevel :
    let s := { gray .check [.sequencer] [] with cfg := { grayCfg with fmt := 9 } }
    (Inv (gray .emit [] []) ∧ busy (gray .emit [] []) = true) ∧
    (Inv s ∧ busy s = true ∧ nextTurn s = .sequencer ∧ ∃ t, step s = .next t ∧ busy t = false) ∧
    (Inv (gray .idle [] []) ∧ busy (gray .idle [] []) = false ∧
      (∃ t, exec .cmdClear (gray .idle [] []) = .next t) ∧
      (∃ t, exec (.cmdStart false) (gray .idle [] []) = .next t) ∧
      ∃ t, exec (.regWrite .intEn 0) (gray .idle [] []) = .next t) := by
  intro s
  have h := inv_gray .check (by decide) [.sequencer] []
  exact ⟨⟨inv_gray .emit (by decide) _ _, rfl⟩,
    ⟨⟨h.memory, ⟨fun _ => ⟨rfl, rfl⟩, by decide, rfl, fun _ => rfl, fun h => by cases h⟩,
      ⟨fun _ => rfl, fun _ => rfl⟩, .inr (.inl rfl)⟩, rfl, rfl, _, rfl, rfl⟩,
    inv_gray .idle (by decide) _ _, rfl, ⟨_, rfl⟩, ⟨_, rfl⟩, _, rfl⟩

/-- Each failing clause, at the boundary of its range (V20). -/
theorem witness_CheckErrorPriority :
    nextTurn (gray .check [.sequencer] []) = .sequencer ∧ (gray .check [.sequencer] []).phase = .check ∧
      8 < (9 : BitVec 4).toNat ∧ ¬ 8 < (8 : BitVec 4).toNat ∧ 65535 < (65536 : Word).toNat ∧
      formatRow grayCfg.fmt = some ⟨1, .one, .be⟩ ∧
      (537 : Word).toNat < sizeBound ⟨1, .one, .be⟩ grayCfg.width.toNat grayCfg.height.toNat := by
  refine ⟨rfl, rfl, ?_, ?_, ?_, rfl, ?_⟩ <;> decide

/-- `OUT_CAP = req` passes. -/
theorem witness_CheckPasses :
    nextTurn (gray .check [.sequencer] []) = .sequencer ∧ (gray .check [.sequencer] []).phase = .check ∧
      (grayCfg.fmt.toNat, 1, ElementWidth.one) ∈ [(0, 1, .one), (1, 3, .one), (2, 4, .one), (3, 1, .two),
        (4, 1, .two), (5, 3, .two), (6, 3, .two), (7, 4, .two), (8, 4, .two)] ∧
      1 ≤ grayCfg.width.toNat ∧ grayCfg.width.toNat ≤ 65535 ∧
      1 ≤ grayCfg.height.toNat ∧ grayCfg.height.toNat ≤ 65535 ∧
      512 + 2 * (4 * 1 * grayCfg.height.toNat)
        + 1 * grayCfg.height.toNat * (2 * grayCfg.width.toNat + 1) * elementBytes .one
          = grayCfg.outCap.toNat := by
  refine ⟨rfl, rfl, ?_, ?_, ?_, ?_, ?_, ?_⟩ <;> decide

theorem witness_CheckTouchesNoMemory :
    let s := gray .check [.sequencer] []
    nextTurn s = .sequencer ∧ s.phase = .check ∧ ∃ t, step s = .next t ∧ t.phase = .rowBegin :=
  ⟨rfl, rfl, _, rfl, rfl⟩

theorem witness_RowBeginWritesOffset :
    let s := gray .rowBegin [.sequencer] []
    nextTurn s = .sequencer ∧ s.phase = .rowBegin ∧ Memory.wf s.mem ∧ s.z = some 0 ∧ s.y = some 0 ∧
      s.dcur = some 528 ∧ acceptsWrites s.plat (s.cfg.outBase.toNat + (512 + 4 * (0 * 2 + 0))) 4 := by
  refine ⟨rfl, rfl, ?_, rfl, rfl, rfl, acceptsWrites_open rfl (by decide)⟩
  show Memory.wf grayMem
  decide

/-- A refused first byte and a refused last byte of an entry. -/
theorem witness_entry_refused :
    refusesAt (refusing 0x8200 (gray .rowBegin [.sequencer] [])).plat (0x8000 + 512) 0 ∧
      refusesAt (refusing 0x820B (gray .rowEnd [.sequencer] [])).plat (0x8000 + 520) 3 := by
  refine ⟨⟨fun k hk => absurd hk (Nat.not_lt_zero k), ?_⟩, ?_, ?_⟩
  · decide
  · show ∀ k < 3, accepts _ .write (0x8208 + k) = true
    decide
  · decide

/-- For RowBeginWritesOffset, RowEndWritesLength and PacketBusErrorIsPrecise: a refused byte in a run that the host
has disturbed. -/
theorem witness_disturbed_refused :
    let b := disturb (refusing 0x8202 (gray .rowBegin [.sequencer] []))
    let e := disturb (refusing 0x820B { gray .rowEnd [.sequencer] [] with dcur := some 530 })
    let p := disturb (refusing 0x8211 (gray .emit [] []))
    (b.world.disturbed = true ∧ nextTurn b = .sequencer ∧ b.phase = .rowBegin ∧ Memory.wf b.mem ∧
      b.z = some 0 ∧ b.y = some 0 ∧ b.dcur = some 528 ∧ 2 < 4 ∧ refusesAt b.plat (0x8000 + 512) 2) ∧
    (e.world.disturbed = true ∧ nextTurn e = .sequencer ∧ e.phase = .rowEnd ∧ Memory.wf e.mem ∧
      e.geom = some ⟨1, .one, .be, 8⟩ ∧ e.z = some 0 ∧ e.y = some 0 ∧ e.dcur = some 530 ∧
      e.rstart = some 528 ∧ 3 < 4 ∧ refusesAt e.plat (0x8000 + 520) 3) ∧
    (p.world.disturbed = true ∧ p.phase = .emit ∧ Memory.wf p.mem ∧
      chosenPacket p = .ok (.rep8 2 0x42) ∧ p.dcur = some 528 ∧ refusesAt p.plat (0x8000 + 528) 1) := by
  have wf : Memory.wf grayMem := by decide
  refine ⟨⟨rfl, rfl, rfl, wf, rfl, rfl, rfl, by decide, ?_, by decide⟩,
    ⟨rfl, rfl, rfl, wf, rfl, rfl, rfl, rfl, rfl, by decide, ?_, by decide⟩,
    rfl, rfl, wf, rfl, rfl, ?_, by decide⟩
  · show ∀ k < 2, accepts _ .write (0x8200 + k) = true
    decide
  · show ∀ k < 3, accepts _ .write (0x8208 + k) = true
    decide
  · show ∀ k < 1, accepts _ .write (0x8210 + k) = true
    decide

/-- The three ways on: another row, another channel, the end. -/
theorem witness_RowEndWritesLength :
    let s := { gray .rowEnd [.sequencer] [] with dcur := some 530 }
    (nextTurn s = .sequencer ∧ s.phase = .rowEnd ∧ Memory.wf s.mem ∧ s.geom = some ⟨1, .one, .be, 8⟩ ∧
      s.z = some 0 ∧ s.y = some 0 ∧ s.dcur = some 530 ∧ s.rstart = some 528 ∧
      (528 : Word).toNat ≤ (530 : Word).toNat ∧ s.cfg.height.toNat ≤ 65535 ∧ 1 ≤ 4 ∧
      acceptsWrites s.plat (s.cfg.outBase.toNat + (512 + 8 + 4 * (0 * 2 + 0))) 4) ∧
    (0 : BitVec 16).toNat + 1 < s.cfg.height.toNat ∧
    (¬ (1 : BitVec 16).toNat + 1 < s.cfg.height.toNat ∧ (1 : BitVec 2).toNat + 1 < 3) ∧
    ¬ (3 : BitVec 2).toNat + 1 < 4 := by
  refine ⟨⟨rfl, rfl, ?_, rfl, rfl, rfl, rfl, rfl, ?_, ?_, ?_, acceptsWrites_open rfl (by decide)⟩,
    ?_, ?_, ?_⟩
  · show Memory.wf grayMem
    decide
  all_goals decide

theorem witness_FetchReadsScanline :
    let s := gray .fetch [.sequencer] []
    nextTurn s = .sequencer ∧ s.phase = .fetch ∧ s.geom = some ⟨1, .one, .be, 8⟩ ∧ s.z = some 0 ∧
      s.y = some 0 ∧ s.world.disturbed = false ∧
      ∀ p < s.cfg.width.toNat, ∀ k < elementBytes .one,
        accepts s.plat .read (s.cfg.srcBase.toNat + (s.cfg.height.toNat - 1 - 0) * s.cfg.srcStride.toNat
          + (p * 1 + 0) * elementBytes .one + k) = true := by
  refine ⟨rfl, rfl, rfl, rfl, rfl, rfl, ?_⟩
  show ∀ p < 2, ∀ k < 1, accepts initialPlatform .read (0x2000 + 1 * 2 + (p * 1 + 0) * 1 + k) = true
  decide

/-- V25, fifth case: the second sample is refused. -/
theorem witness_FetchBusError :
    let s := refusing 0x2003 (gray .fetch [.sequencer] [])
    let addr := fun q => srcAddr s.cfg 1 .one (s.cfg.height.toNat - 1 - 0) q 0
    nextTurn s = .sequencer ∧ s.phase = .fetch ∧ s.geom = some ⟨1, .one, .be, 8⟩ ∧ s.z = some 0 ∧
      s.y = some 0 ∧ 1 < s.cfg.width.toNat ∧ 0 < elementBytes .one ∧
      (∀ q < 1, ∀ j < elementBytes .one, accepts s.plat .read (addr q + j) = true) ∧
      (∀ j < 0, accepts s.plat .read (addr 1 + j) = true) ∧
      accepts s.plat .read (addr 1 + 0) = false := by
  refine ⟨rfl, rfl, rfl, rfl, rfl, ?_, ?_, ?_, ?_, ?_⟩ <;> decide

theorem witness_FinishReportsSize :
    let s := { gray .finish [.sequencer] [] with dcur := some 532 }
    nextTurn s = .sequencer ∧ s.phase = .finish ∧ s.dcur = some 532 := ⟨rfl, rfl, rfl⟩

/-- REP8 and REP16, each chosen, with room and an open bus. -/
theorem witness_EmitRepeatStoresPacket :
    let s := gray .emit [] []
    let t := { gray16 with sl := [0x1234, 0x1234] }
    (s.phase = .emit ∧ Memory.wf s.mem ∧ s.dcur = some 528 ∧ s.x = some 0 ∧
      chosenPacket s = .ok (.rep8 2 0x42) ∧ (528 : Word).toNat + 2 ≤ s.cfg.outCap.toNat ∧
      acceptsWrites s.plat (s.cfg.outBase.toNat + (528 : Word).toNat) 2) ∧
    (t.phase = .emit ∧ Memory.wf t.mem ∧ t.dcur = some 520 ∧ t.x = some 0 ∧
      chosenPacket t = .ok (.rep16 2 0x1234) ∧ (520 : Word).toNat + 4 ≤ t.cfg.outCap.toNat ∧
      acceptsWrites t.plat (t.cfg.outBase.toNat + (520 : Word).toNat) 4) := by
  refine ⟨⟨rfl, ?_, rfl, rfl, rfl, ?_, acceptsWrites_open rfl (by decide)⟩, rfl, ?_, rfl, rfl, rfl, ?_,
    acceptsWrites_open rfl (by decide)⟩
  · show Memory.wf grayMem
    decide
  · decide
  · show Memory.wf grayMem
    decide
  · decide

/-- LIT8 and LIT16, each chosen, with room and an open bus. -/
theorem witness_EmitLiteralStoresPacket :
    let s := { gray .emit [] [] with sl := [1, 2] }
    (s.phase = .emit ∧ Memory.wf s.mem ∧ s.dcur = some 528 ∧ s.x = some 0 ∧
      chosenPacket s = .ok (.lit8 2 [1, 2]) ∧
      (528 : Word).toNat + (1 + (2 : BitVec 7).toNat) ≤ s.cfg.outCap.toNat ∧
      acceptsWrites s.plat (s.cfg.outBase.toNat + (528 : Word).toNat) (1 + (2 : BitVec 7).toNat)) ∧
    (gray16.phase = .emit ∧ Memory.wf gray16.mem ∧ gray16.dcur = some 520 ∧ gray16.x = some 0 ∧
      chosenPacket gray16 = .ok (.lit16 2 [0x0001, 0x0100]) ∧
      (520 : Word).toNat + (1 + (2 : BitVec 7).toNat) * 2 ≤ gray16.cfg.outCap.toNat ∧
      acceptsWrites gray16.plat (gray16.cfg.outBase.toNat + (520 : Word).toNat)
        ((1 + (2 : BitVec 7).toNat) * 2)) := by
  refine ⟨⟨rfl, ?_, rfl, rfl, rfl, ?_, acceptsWrites_open rfl (by decide)⟩, rfl, ?_, rfl, rfl, rfl, ?_,
    acceptsWrites_open rfl (by decide)⟩
  · show Memory.wf grayMem
    decide
  · decide
  · show Memory.wf grayMem
    decide
  · decide

/-- V31: one byte short of room. -/
theorem witness_PacketExhaustsBuffer :
    let s := { gray .emit [] [] with dcur := some 537 }
    s.phase = .emit ∧ chosenPacket s = .ok (.rep8 2 0x42) ∧ s.dcur = some 537 ∧
      s.cfg.outCap.toNat < (537 : Word).toNat + (encode (.rep8 2 0x42)).length := by
  refine ⟨rfl, rfl, rfl, ?_⟩
  decide

/-- The second byte of the packet is refused. -/
theorem witness_PacketBusErrorIsPrecise :
    let s := refusing 0x8211 (gray .emit [] [])
    s.phase = .emit ∧ Memory.wf s.mem ∧ chosenPacket s = .ok (.rep8 2 0x42) ∧ s.dcur = some 528 ∧
      (528 : Word).toNat + (encode (.rep8 2 0x42)).length ≤ s.cfg.outCap.toNat ∧
      1 < (encode (.rep8 2 0x42)).length ∧
      refusesAt s.plat (s.cfg.outBase.toNat + (528 : Word).toNat) 1 := by
  refine ⟨rfl, ?_, rfl, rfl, ?_, ?_, ?_, ?_⟩
  · show Memory.wf grayMem
    decide
  · decide
  · decide
  · show ∀ k < 1, accepts _ .write (0x8210 + k) = true
    decide
  · decide

/-- A run longer than a packet, and the last sample. -/
theorem witness_CountRepeatIsLongest :
    0 < (List.replicate 200 (9 : Half)).length ∧
      countRepeat (List.replicate 200 9) 200 0 = min 127 (200 - 0) ∧
      countRepeat [1, 1, 2] 3 0 < min 127 (3 - 0) := by decide +kernel

/-- The literal before a run, and one to the end of the scanline. -/
theorem witness_CountLiteralDocStopsAtRun :
    (0 < ([1, 2, 2, 3] : List Half).length ∧ countRepeat [1, 2, 2, 3] 4 0 < 2 ∧
      countLiteralDoc [1, 2, 2, 3] 4 0 < min 127 (4 - 0)) ∧
    (countRepeat [1, 2] 2 0 < 2 ∧ countLiteralDoc [1, 2] 2 0 = min 127 (2 - 0)) := by decide

/-- The literal that stops, at both widths, and the one that absorbs a pair. -/
theorem witness_CountLiteralUpstreamStops :
    (countRepeat [1, 2, 2, 2] 4 0 < 2 ∧ countLiteralUpstream [1, 2, 2, 2] .one 4 0 < min 127 4) ∧
    (countRepeat [1, 2, 2, 3] 4 0 < 2 ∧ countLiteralUpstream [1, 2, 2, 3] .two 4 0 < min 127 4) ∧
    countLiteralUpstream [1, 2, 2, 3] .one 4 0 = min 127 4 := by decide

/-- A short repeat packet and a short literal packet, each before the end of the scanline, and a literal
packet of 127 before the end. -/
theorem witness_DocPacketProperties :
    0 < ([7, 7, 8] : List Half).length ∧ detect .doc [7, 7, 8] .one 3 0 = (.rep, 2) ∧
      detect .doc [7, 8, 8] .one 3 0 = (.lit, 1) ∧
      detect .doc ((List.range 128).map (BitVec.ofNat 16)) .two 128 0 = (.lit, 127) := by decide +kernel

theorem witness_EncodedLineReadsBack : ∀ v ∈ ([0x00, 0xFF] : List Half), v.toNat < 256 := by simp

theorem witness_EncodedLineLength : ([5] : List Half) ≠ [] := by decide

theorem witness_EncodedLineLengthLaws :
    1 ≤ 1 ∧ ([1, 2, 1] : List Half) ≠ [] ∧
      ∀ j, j + 1 < ([1, 2, 1] : List Half).length →
        ([1, 2, 1] : List Half)[j]? ≠ ([1, 2, 1] : List Half)[j + 1]? := by
  refine ⟨by decide, by decide, ?_⟩
  intro j hj
  have : j = 0 ∨ j = 1 := by simp at hj; omega
  rcases this with rfl | rfl <;> decide

/-- A reset in IDLE, one inside a packet's write, and an address outside that write. -/
theorem witness_ResetRestoresRegisters :
    nextTurn (gray .emit [.reset] []) = .reset ∧ busy (gray .idle [.reset] []) = false ∧
      (gray .emit [.reset] []).world.disturbed = false ∧ Inv (gray .emit [.reset] []) ∧
      pendingWrite (gray .emit [.reset] []) = some (0x8210, [0x02, 0x42]) ∧
      ¬ (0x8210 ≤ 0x8212 ∧ 0x8212 < 0x8210 + [(0x02 : Byte), 0x42].length) ∧
      ¬ (0x8000 + 512 ≤ 0x81FF) :=
  ⟨rfl, rfl, rfl, inv_gray .emit (by decide) _ _, rfl, by decide, by decide⟩

/-- R77, R247: the header and the memory between the source and the output are the host's to write while BUSY; the
last source byte and the output byte at offset 512 are not. -/
theorem test_liberty_while_busy :
    protectedRange (gray .fetch [] []) 0x81FF 0x8200 = false ∧
      protectedRange (gray .fetch [] []) 0x2004 0x8200 = false ∧
      protectedRange (gray .fetch [] []) 0x81FF 0x8201 = true ∧
      protectedRange (gray .fetch [] []) 0x2003 0x2004 = true := by decide

/-- A byte in IDLE, and the first output byte the block may write while BUSY. -/
theorem witness_OutputReadWhileBusyIsFree :
    let s := gray .emit [.host] [.peek 0x8200]
    let i := gray .idle [.host] [.peek 0x2000]
    (nextTurn i = .host ∧ i.world.script = [.peek 0x2000] ∧ 0x2000 < 2 ^ 32 ∧ ¬ inWindow i.plat 0x2000) ∧
    nextTurn s = .host ∧ busy s = true ∧ s.world.script = [.peek 0x8200] ∧ 0x8200 < 2 ^ 32 ∧
      ¬ inWindow s.plat 0x8200 ∧ s.cfg.outBase.toNat + 512 ≤ 0x8200 ∧
      0x8200 < s.cfg.outBase.toNat + s.cfg.outCap.toNat := by
  refine ⟨⟨rfl, rfl, by decide, ?_⟩, rfl, rfl, rfl, by decide, ?_, by decide, by decide⟩ <;>
  · rintro ⟨h, -⟩
    exact absurd h (by decide)

/-- Both a run left undisturbed and one that was not; V22's run after its end, at an RD of STATUS that shows the
host its output, and at a WAIT on it. -/
theorem witness_OutputReadableAfterDone :
    let s := { gray .finish [.sequencer] [] with dcur := some 532 }
    let d := disturb s
    let v := fun op =>
      { gray .idle [.host] [op] with
        status := { done := true, err := false, keyframe := true, errCode := 0 }
        world := hideOutput 0x8200 0x8214 (gray .idle [.host] [op]).world }
    let q := gray .idle [.sequencer] []
    (q.phase = .idle ∧ q.world.unseen = [] ∧ isFree q.world.spans 0x8213 = false ∧
        ∃ q', step q = .next q' ∧ q'.phase = .idle) ∧
    (∀ op ∈ [HostOp.rd 0x40000004 .word, .wait .status 1 0], (v op).phase = .idle ∧
      ∃ v', step (v op) = .next v' ∧ v'.phase = .idle ∧
        v'.world.unseen ≠ (v op).world.unseen ∧ isFree (v op).world.spans 0x8213 = false ∧
        isFree v'.world.spans 0x8213 = false) ∧
    (nextTurn s = .sequencer ∧ s.phase = .finish ∧ s.dcur = some 532 ∧ Memory.wf s.mem ∧
      s.world.disturbed = false ∧ (∃ t, step s = .next t) ∧ s.cfg.outBase.toNat + 512 ≤ 0x8213 ∧
      0x8213 < s.cfg.outBase.toNat + (532 : Word).toNat) ∧
    (nextTurn d = .sequencer ∧ d.phase = .finish ∧ d.world.disturbed = true ∧ (∃ t, step d = .next t) ∧
      (532 : Word).toNat ≤ d.cfg.outCap.toNat ∧ 0x8213 < 2 ^ 32) := by
  refine ⟨⟨rfl, rfl, rfl, _, rfl, rfl⟩, ?_,
    ⟨rfl, rfl, rfl, ?_, rfl, ⟨_, rfl⟩, by decide, by decide⟩, rfl, rfl, rfl, ⟨_, rfl⟩,
    by decide, by decide⟩
  · intro op hop
    simp only [List.mem_cons, List.not_mem_nil, or_false] at hop
    rcases hop with rfl | rfl <;>
      exact ⟨rfl, _, rfl, rfl, (by simp : ([] : List Span) ≠ [_]), rfl, rfl⟩
  · show Memory.wf grayMem
    decide

/-- After an error, and after a reset while BUSY. -/
theorem witness_OutputFreeAfterAbort :
    let s := { gray .check [.sequencer] [] with cfg := { grayCfg with fmt := 9 } }
    let r := gray .emit [.reset] []
    (∃ t, step s = .next t ∧ busy s = true ∧ busy t = false ∧ t.status.done = false) ∧
    (∃ t, step r = .next t ∧ busy r = true ∧ busy t = false ∧ t.status.done = false) ∧
    s.cfg.outBase.toNat + 512 ≤ 0x8200 ∧ 0x8200 < s.cfg.outBase.toNat + s.cfg.outCap.toNat :=
  ⟨⟨_, rfl, rfl, rfl, rfl⟩, ⟨_, rfl, rfl, rfl, rfl⟩, by decide, by decide⟩

/-- A source byte, an output byte, and the run that goes on. -/
theorem witness_ForbiddenWriteFreesReads :
    let s := gray .fetch [.host] [.mem 0x2003 [7]]
    let d := { gray .fetch [.sequencer] [] with
      world := { World.initial with turns := [.sequencer], disturbed := true } }
    (nextTurn s = .host ∧ busy s = true ∧ s.world.script = [.mem 0x2003 [7]] ∧ 0x2003 < 2 ^ 32 ∧
      ¬ inWindow s.plat 0x2003 ∧ legalFormat s.cfg = some ⟨1, .one, .be⟩ ∧
      isFrameByte s.cfg ⟨1, .one, .be⟩ 0x2003) ∧
    (s.cfg.outBase.toNat + 512 ≤ 0x8200 ∧ 0x8200 < s.cfg.outBase.toNat + s.cfg.outCap.toNat) ∧
    (d.world.disturbed = true ∧ accepts d.plat .read 0x2003 = true ∧ busy d = true ∧
      nextTurn d ≠ .reset ∧ ∃ u, step d = .next u) := by
  refine ⟨⟨rfl, rfl, rfl, by decide, ?_, ?_, 1, by decide, 0, by decide, 1, by decide, 0, by decide,
    by decide⟩, ⟨by decide, by decide⟩, rfl, by decide, rfl, by decide, _, rfl⟩
  · rintro ⟨h, -⟩
    exact absurd h (by decide)
  · show legalFormat grayCfg = _
    decide

theorem witness_HostWriteStoresBytes :
    let l := gray .fetch [.host] [.mem 0x81FF [7]]
    (nextTurn l = .host ∧ busy l = true ∧ Memory.wf l.mem ∧ l.world.script = [.mem 0x81FF [7]] ∧
      ∀ b, 0x81FF ≤ b → b < 0x81FF + [(7 : Byte)].length →
        ¬ inWindow l.plat b ∧ (∀ f, legalFormat l.cfg = some f → ¬ isFrameByte l.cfg f b) ∧
        ¬ (l.cfg.outBase.toNat + 512 ≤ b ∧ b < l.cfg.outBase.toNat + l.cfg.outCap.toNat)) ∧
    let s := gray .idle [.host] [.mem 0xFFFFFFFE [1, 2]]
    nextTurn s = .host ∧ Memory.wf s.mem ∧ s.world.script = [.mem 0xFFFFFFFE [1, 2]] ∧
      0xFFFFFFFE + [(1 : Byte), 2].length ≤ 2 ^ 32 ∧
      ∀ b, 0xFFFFFFFE ≤ b → b < 0xFFFFFFFE + [(1 : Byte), 2].length → ¬ inWindow s.plat b := by
  refine ⟨⟨rfl, rfl, ?_, rfl, ?_⟩, rfl, ?_, rfl, by decide, ?_⟩
  · show Memory.wf grayMem
    decide
  · intro b hb hb'
    obtain rfl : b = 0x81FF := by simp at hb'; omega
    refine ⟨fun h => absurd h.1 (by decide), ?_, by decide⟩
    rintro f hf ⟨row, hrow, channel, hch, p, hp, k, hk, h⟩
    obtain rfl : (⟨1, .one, .be⟩ : PixelFormat) = f := Option.some.inj hf
    have hrow : row < 2 := hrow
    have hch : channel < 1 := hch
    have hp : p < 2 := hp
    have hk : k < 1 := hk
    have h : 0x81FF = 0x2000 + row * 2 + (p * 1 + channel) * 1 + k := h
    omega
  · show Memory.wf grayMem
    decide
  · rintro b hb - ⟨-, h⟩
    have : windowEnd initialPlatform = 0x40000040 := by decide
    have h : b < windowEnd initialPlatform := h
    omega

theorem witness_StepKeepsInv :
    Inv (gray .emit [.sequencer] []) ∧ ∃ t, step (gray .emit [.sequencer] []) = .next t :=
  ⟨inv_gray .emit (by decide) _ _, _, rfl⟩

theorem witness_SequencerNeverStops :
    Inv (gray .emit [.sequencer] []) ∧ nextTurn (gray .emit [.sequencer] []) = .sequencer :=
  ⟨inv_gray .emit (by decide) _ _, rfl⟩

/-- ERRCODE 4 is a legal value of the register, reached by no step. -/
theorem witness_BoundNeverExhausted :
    Inv (failed 4 [.sequencer]) ∧
      ∃ t, step (failed 4 [.sequencer]) = .next t ∧ t.status.errCode = 4 := by
  have h := inv_gray .idle (by decide) [.sequencer] []
  exact ⟨⟨h.memory, ⟨fun h => (by cases h), fun h => (by cases h.1), rfl, fun h => (by cases h),
    fun _ => ⟨by decide, by decide⟩⟩, ⟨fun _ => rfl, fun _ => rfl⟩, .inl rfl⟩, _, rfl, rfl⟩

theorem witness_BlockWritesOnlyOutput :
    Inv (gray .emit [.sequencer] []) ∧ nextTurn (gray .emit [.sequencer] []) = .sequencer ∧
      (∃ t, step (gray .emit [.sequencer] []) = .next t) ∧ ¬ (0x8000 + 512 ≤ 0x81FF) :=
  ⟨inv_gray .emit (by decide) _ _, rfl, ⟨_, rfl⟩, by decide⟩

/-- Two states in phase CHECK that differ in every register CHECK and the run write before reading. -/
theorem witness_UnwrittenRegistersUnread :
    let s := gray .check [.sequencer] []
    let t := { s with z := none, y := none, x := none, geom := none, dcur := none, rstart := none, sl := [] }
    SameLive s t ∧ s ≠ t := by
  refine ⟨⟨rfl, rfl, rfl, rfl, rfl, rfl, rfl, rfl, ?_, ?_, ?_, ?_, ?_, ?_, ?_⟩, ?_⟩
  · exact fun h => by cases h
  · exact fun h => by cases h
  · exact fun h => by cases h
  · exact fun h => by cases h
  · exact fun h => by cases h
  · exact fun h => by cases h
  · exact fun h => by cases h
  · exact fun h => by have := congrArg State.z h; cases this

theorem witness_RunTerminates :
    Inv (gray .check [] []) ∧ (gray .check [] []).phase = .check := ⟨inv_gray .check (by decide) _ _, rfl⟩

theorem witness_EmitStepsWriteLine :
    let s := gray .emit [] []
    s.phase = .emit ∧ Memory.wf s.mem ∧ s.geom = some ⟨1, .one, .be, 8⟩ ∧ s.x = some 0 ∧
      s.dcur = some 528 ∧ s.sl.length = s.cfg.width.toNat ∧ 1 ≤ s.cfg.width.toNat ∧
      s.cfg.width.toNat ≤ 65535 ∧
      (528 : Word).toNat + (encodeScanline s.plat.policy s.sl .one).length ≤ s.cfg.outCap.toNat ∧
      acceptsWrites s.plat (s.cfg.outBase.toNat + (528 : Word).toNat)
        (encodeScanline s.plat.policy s.sl .one).length := by
  refine ⟨rfl, ?_, rfl, rfl, rfl, rfl, by decide, by decide, by decide,
    acceptsWrites_open rfl (by decide)⟩
  show Memory.wf grayMem
  decide

/-- V1's whole run. -/
theorem witness_RunWritesContainer :
    let s := gray .check [] []
    s.phase = .check ∧ Memory.wf s.mem ∧ s.world.disturbed = false ∧ legalFormat s.cfg = some ⟨1, .one, .be⟩ ∧
      sizeBound ⟨1, .one, .be⟩ s.cfg.width.toNat s.cfg.height.toNat ≤ s.cfg.outCap.toNat ∧
      launchOverlaps s.plat s.cfg = false ∧
      (∀ a, isFrameByte s.cfg ⟨1, .one, .be⟩ a → accepts s.plat .read a = true) ∧
      acceptsWrites s.plat (s.cfg.outBase.toNat + 512)
        (sizeBound ⟨1, .one, .be⟩ s.cfg.width.toNat s.cfg.height.toNat - 512) := by
  refine ⟨rfl, ?_, rfl, rfl, by decide, by decide, ?_,
    acceptsWrites_open rfl (by decide)⟩
  · show Memory.wf grayMem
    decide
  · rintro a ⟨row, hrow, channel, hch, p, hp, k, hk, rfl⟩
    apply accepts_open rfl
    have hrow : row < 2 := hrow
    have hch : channel < 1 := hch
    have hp : p < 2 := hp
    have hk : k < 1 := hk
    show 0x2000 + row * 2 + (p * 1 + channel) * 1 + k < 2 ^ 32
    omega

end Sys2Proof.Machine.Tests
end

