-- ==== Sys2Proof/Proofs/Platform.lean ====
section
/-! PROOF. The platform's parameters (R6) are arguments of the model: no operation of the block or of the
host changes them. -/

namespace Sys2Proof.Machine

/-- A result that, where it has a next state, leaves the platform `p` in it. -/
def LeavesPlatform (p : Platform) (r : Result) : Prop := ∀ t : State, r = .next t → t.plat = p

@[simp] theorem leavesPlatform_next {p : Platform} {t : State} :
    LeavesPlatform p (.next t) ↔ t.plat = p :=
  ⟨fun h => h t rfl, fun h _ heq => by cases heq; exact h⟩

@[simp] theorem leavesPlatform_fault (p : Platform) (f : Fault) : LeavesPlatform p (.fault f) :=
  fun _ h => by cases h

@[simp] theorem leavesPlatform_refused (p : Platform) (r : Refusal) : LeavesPlatform p (.refused r) :=
  fun _ h => by cases h

/-! ### The operations that take the rest of a rule -/

theorem leavesPlatform_held {α : Type} {p : Platform} {r : Option α} {l : Latch} {k : α → Result}
    (hk : ∀ v, LeavesPlatform p (k v)) : LeavesPlatform p (held r l k) := by
  cases r with
  | none => exact leavesPlatform_fault p _
  | some v => exact hk v

theorem leavesPlatform_storeSeq {a : Nat} {bs : List Byte} {s : State} {k : State → Result}
    (hk : ∀ m, LeavesPlatform s.plat (k { s with mem := m })) :
    LeavesPlatform s.plat (storeSeq a bs s k) := by
  obtain ⟨heq, -⟩ | ⟨_, -, heq, -⟩ := storeSeq_cases a bs s k <;> rw [heq]
  · exact hk _
  · simp

theorem leavesPlatform_whenChosen {p : Platform} {i : Instr} {s : State} {r : Result}
    (hr : LeavesPlatform p r) : LeavesPlatform p (whenChosen i s r) :=
  fun t h => hr t (whenChosen_next h).2.2

theorem leavesPlatform_hostAccess {p : Platform} {a len : Nat} {s : State} {r : Result}
    (hr : LeavesPlatform p r) : LeavesPlatform p (hostAccess a len s r) := by
  obtain ⟨-, heq⟩ | ⟨-, -, heq⟩ | ⟨-, -, heq⟩ := hostAccess_cases a len s r <;> rw [heq]
  · exact leavesPlatform_fault p _
  · exact leavesPlatform_refused p _
  · exact hr

/-! ### The instructions -/

theorem leavesPlatform_emitBytes {bytes : List Byte} {need n : Nat} {dcur : Word} {x : BitVec 16}
    {s : State} : LeavesPlatform s.plat (emitBytes bytes need n dcur x s) := by
  obtain ⟨-, heq⟩ | ⟨-, heq⟩ := emitBytes_cases bytes need n dcur x s <;> rw [heq]
  · simp
  · exact leavesPlatform_storeSeq fun _ => by simp

theorem leavesPlatform_emitRepeat {w : ElementWidth} {n : BitVec 7} {v : Half} {s : State} :
    LeavesPlatform s.plat (emitRepeat w n v s) :=
  leavesPlatform_held fun _ => leavesPlatform_held fun _ => leavesPlatform_emitBytes

theorem leavesPlatform_emitLiteral {w : ElementWidth} {n : BitVec 7} {vs : List Half} {s : State} :
    LeavesPlatform s.plat (emitLiteral w n vs s) :=
  leavesPlatform_held fun _ => leavesPlatform_held fun _ => leavesPlatform_emitBytes

theorem leavesPlatform_execRegWrite (r : Reg) (v : Word) (s : State) :
    LeavesPlatform s.plat (execRegWrite r v s) := by
  obtain ⟨-, heq⟩ | ⟨-, heq⟩ | ⟨-, heq⟩ := execRegWrite_cases r v s <;> simp [heq]

theorem leavesPlatform_execCmdStart (clear : Bool) (s : State) :
    LeavesPlatform s.plat (execCmdStart clear s) := by
  obtain ⟨-, heq⟩ | ⟨-, -, heq⟩ | ⟨-, -, heq⟩ := execCmdStart_cases clear s <;> simp [heq]

theorem leavesPlatform_execCmdClear (s : State) : LeavesPlatform s.plat (execCmdClear s) := by
  obtain ⟨-, heq⟩ | ⟨-, heq⟩ := execCmdClear_cases s <;> simp [heq]

theorem leavesPlatform_exec (i : Instr) (s : State) : LeavesPlatform s.plat (exec i s) := by
  cases i with
  | rep8 n v => exact leavesPlatform_whenChosen leavesPlatform_emitRepeat
  | lit8 n vs => exact leavesPlatform_whenChosen leavesPlatform_emitLiteral
  | rep16 n v => exact leavesPlatform_whenChosen leavesPlatform_emitRepeat
  | lit16 n vs => exact leavesPlatform_whenChosen leavesPlatform_emitLiteral
  | regRead r => exact leavesPlatform_next.2 rfl
  | cmdStart clear => exact leavesPlatform_execCmdStart clear s
  | cmdClear => exact leavesPlatform_execCmdClear s
  | ctrlNop => exact leavesPlatform_next.2 rfl
  | regWrite r v => exact leavesPlatform_execRegWrite r v s

/-! ### The micro-operations that have no encoding (R101) -/

theorem leavesPlatform_checkRun (s : State) : LeavesPlatform s.plat (checkRun s) := by
  obtain ⟨-, heq⟩ | ⟨f, -, ⟨-, heq⟩ | ⟨-, -, heq⟩ | ⟨-, -, heq⟩⟩ := checkRun_cases s <;> simp [heq]

theorem leavesPlatform_rowBegin (s : State) : LeavesPlatform s.plat (rowBegin s) :=
  leavesPlatform_held fun _ => leavesPlatform_held fun _ => leavesPlatform_held fun _ =>
    leavesPlatform_storeSeq fun _ => leavesPlatform_next.2 rfl

theorem leavesPlatform_fetchLine (s : State) : LeavesPlatform s.plat (fetchLine s) := by
  refine leavesPlatform_held fun _ => leavesPlatform_held fun _ => leavesPlatform_held fun _ => ?_
  dsimp only
  split
  · exact leavesPlatform_next.2 rfl
  · exact leavesPlatform_next.2 rfl

@[simp] theorem advance_plat (depth : Nat) (z : BitVec 2) (y : BitVec 16) (s : State) :
    (advance depth z y s).plat = s.plat := by
  obtain ⟨-, heq⟩ | ⟨-, -, heq⟩ | ⟨-, -, heq⟩ := advance_cases depth z y s <;> rw [heq]

theorem leavesPlatform_rowEnd (s : State) : LeavesPlatform s.plat (rowEnd s) :=
  leavesPlatform_held fun _ => leavesPlatform_held fun _ => leavesPlatform_held fun _ =>
    leavesPlatform_held fun _ => leavesPlatform_held fun _ =>
      leavesPlatform_storeSeq fun _ => leavesPlatform_next.2 (advance_plat ..)

theorem leavesPlatform_finishRun (s : State) : LeavesPlatform s.plat (finishRun s) :=
  leavesPlatform_held fun _ => leavesPlatform_next.2 rfl

/-! ### The agents (R20) -/

theorem leavesPlatform_registerAccess (isWrite : Bool) (a : Nat) (w : AccessWidth) (data : Word)
    (s : State) : LeavesPlatform s.plat (registerAccess isWrite a w data s) := by
  obtain ⟨_, i, -, -, -, heq⟩ | ⟨_, heq⟩ := registerAccess_cases isWrite a w data s <;> rw [heq]
  · exact leavesPlatform_exec i s
  · exact leavesPlatform_refused _ _

theorem leavesPlatform_hostTurn (s : State) : LeavesPlatform s.plat (hostTurn s) := by
  unfold hostTurn
  cases s.world.script with
  | nil => exact leavesPlatform_next.2 rfl
  | cons op rest =>
    cases op with
    | rd a w => exact leavesPlatform_registerAccess false a w 0 (withScript rest s)
    | wr a w data => exact leavesPlatform_registerAccess true a w data (withScript rest s)
    | wait r mask value => dsimp only; split <;> exact leavesPlatform_exec (.regRead r) _
    | waitIrq => dsimp only; split <;> exact leavesPlatform_next.2 rfl
    | mem a bs => exact leavesPlatform_hostAccess (leavesPlatform_next.2 rfl)
    | peek a => exact leavesPlatform_hostAccess (leavesPlatform_next.2 rfl)

theorem leavesPlatform_sequencerTurn (s : State) : LeavesPlatform s.plat (sequencerTurn s) := by
  unfold sequencerTurn
  cases s.phase with
  | idle => exact leavesPlatform_next.2 rfl
  | check => exact leavesPlatform_checkRun s
  | rowBegin => exact leavesPlatform_rowBegin s
  | fetch => exact leavesPlatform_fetchLine s
  | emit =>
    cases chosenPacket s with
    | ok i => exact leavesPlatform_exec i s
    | error l => exact leavesPlatform_fault _ _
  | rowEnd => exact leavesPlatform_rowEnd s
  | finish => exact leavesPlatform_finishRun s

theorem leavesPlatform_step (s : State) : LeavesPlatform s.plat (step s) := by
  obtain ⟨-, heq⟩ | ⟨-, heq⟩ | ⟨-, heq⟩ := step_cases s <;> rw [heq]
  · exact leavesPlatform_hostTurn (tick s)
  · exact leavesPlatform_sequencerTurn (tick s)
  · exact leavesPlatform_next.2 (by simp)

/-- Settles O15: each agent's turn leaves the platform, shown operation by operation. -/
theorem stepKeepsPlatform : Obligations.StepKeepsPlatform := leavesPlatform_step

end Sys2Proof.Machine
end

section
/-! PROOF. Register accesses: what a key stands for (R100, R102), how a step reaches the instruction, and what a
read of each register answers (R22-R32, R240). -/

namespace Sys2Proof.Machine

/-! ### Keys (R100, R102) -/

theorem append_eq_append_iff {m n : Nat} {a c : BitVec m} {b d : BitVec n} :
    a ++ b = c ++ d ↔ a = c ∧ b = d := by
  constructor
  · intro h
    have hhigh := congrArg (BitVec.extractLsb' n m) h
    have hlow := congrArg (BitVec.extractLsb' 0 n) h
    simpa [BitVec.extractLsb'_append_eq_of_le, BitVec.extractLsb'_append_eq_of_add_le] using
      And.intro hhigh hlow
  · rintro ⟨rfl, rfl⟩
    rfl

/-- A row of the table looks at the direction and the offset of a key on one side, at its data on the other. -/
theorem rowAccepts_accessKey (mhigh phigh : BitVec 7) (mlow plow : Word) (b : Bool) (off : BitVec 6)
    (data : Word) :
    rowAccepts (mhigh ++ mlow) (phigh ++ plow) (accessKey b off data) = true ↔
      (BitVec.ofBool b ++ off) &&& mhigh = phigh ∧ (if b then data else 0) &&& mlow = plow := by
  have hkey : accessKey b off data &&& (mhigh ++ mlow)
      = ((BitVec.ofBool b ++ off) &&& mhigh) ++ ((if b then data else 0) &&& mlow) :=
    BitVec.and_append
  rw [rowAccepts, beq_iff_eq, hkey, append_eq_append_iff]

/-- The REG_READ row accepts the keys of reads. -/
theorem rowAccepts_read_iff (b : Bool) (off : BitVec 6) (data : Word) :
    rowAccepts 0x4000000000 0x0000000000 (accessKey b off data) = true ↔ b = false := by
  have hhigh : ∀ (b : Bool) (off : BitVec 6),
      (BitVec.ofBool b ++ off) &&& 0x40#7 = 0#7 ↔ b = false := by decide
  rw [← hhigh b off]
  simpa using rowAccepts_accessKey 0x40#7 0#7 0#32 0#32 b off data

/-- A CTRL row accepts the keys of writes at offset 0 whose masked data is the row's (R100). -/
theorem rowAccepts_ctrl_iff (off : BitVec 6) (data mask pattern : Word) :
    rowAccepts (0x7F#7 ++ mask) (0x40#7 ++ pattern) (accessKey true off data) = true ↔
      off = 0 ∧ data &&& mask = pattern := by
  have hhigh : ∀ off : BitVec 6, (BitVec.ofBool true ++ off) &&& 0x7F#7 = 0x40#7 ↔ off = 0 := by
    decide
  rw [rowAccepts_accessKey, hhigh, if_pos rfl]

/-- A bit of the data under its own mask. -/
theorem and_twoPow_eq_iff (data : Word) {i : Nat} (hi : i < 32) :
    data &&& BitVec.twoPow 32 i = BitVec.twoPow 32 i ↔ data.getLsbD i = true := by
  have hbit : (BitVec.twoPow 32 i).getLsbD i = true := by simp [hi]
  constructor
  · intro h
    have := congrArg (·.getLsbD i) h
    simpa [hbit] using this
  · intro h
    rw [BitVec.and_twoPow, if_pos h]

/-- Data with both command bits 0. -/
theorem and_three_eq_zero {data : Word} (h0 : data.getLsbD 0 = false) (h1 : data.getLsbD 1 = false) :
    data &&& 3#32 = 0 := by
  have hmask : 3#32 = BitVec.twoPow 32 0 ||| BitVec.twoPow 32 1 := by decide
  rw [hmask, BitVec.and_or_distrib_left, BitVec.and_twoPow, BitVec.and_twoPow, h0, h1]
  rfl

/-- The CMD_START row accepts a CTRL write by data bit 0, whatever the others are (R100). -/
theorem rowAccepts_start_iff (off : BitVec 6) (data : Word) :
    rowAccepts 0x7F00000001 0x4000000001 (accessKey true off data) = true ↔
      off = 0 ∧ data.getLsbD 0 = true := by
  rw [← and_twoPow_eq_iff data (by decide)]
  exact rowAccepts_ctrl_iff off data 1#32 1#32

theorem rowAccepts_clear_iff (off : BitVec 6) (data : Word) :
    rowAccepts 0x7F00000002 0x4000000002 (accessKey true off data) = true ↔
      off = 0 ∧ data.getLsbD 1 = true := by
  rw [← and_twoPow_eq_iff data (by decide)]
  exact rowAccepts_ctrl_iff off data 2#32 2#32

theorem rowAccepts_nop_iff (off : BitVec 6) (data : Word) :
    rowAccepts 0x7F00000003 0x4000000000 (accessKey true off data) = true ↔
      off = 0 ∧ data &&& 3#32 = 0 :=
  rowAccepts_ctrl_iff off data 3#32 0#32

/-- The instruction of a read key: the register at its offset, whatever the data (R102). -/
theorem decodeKey_read {off : BitVec 6} {r : Reg} (h : Reg.ofOffset off = some r) (data : Word) :
    decodeKey (accessKey false off data) = .ok (.regRead r) := by
  rw [decodeKey, if_pos ((rowAccepts_read_iff ..).2 rfl), keyOffset_accessKey, h]

/-- The instruction of a write key at CTRL: a command by data bits 0 and 1 (R100). -/
theorem decodeKey_ctrl (data : Word) :
    decodeKey (accessKey true 0 data) = .ok
      (if data.getLsbD 0 = true then .cmdStart (data.getLsbD 1)
        else if data.getLsbD 1 = true then .cmdClear else .ctrlNop) := by
  have hbit : (accessKey true 0 data).getLsbD 1 = data.getLsbD 1 := by
    rw [accessKey_getLsbD, if_pos (by decide), Bool.true_and]
  simp only [decodeKey, rowAccepts_read_iff, rowAccepts_start_iff, rowAccepts_clear_iff,
    rowAccepts_nop_iff, hbit, true_and, Bool.true_eq_false, if_false]
  split
  · rfl
  · split
    · rfl
    · rw [if_pos (and_three_eq_zero (Bool.eq_false_of_not_eq_true ‹_›)
        (Bool.eq_false_of_not_eq_true ‹_›))]

/-- A write key at another offset is none of CTRL's three. -/
theorem rowAccepts_write {off : BitVec 6} (hoff : off ≠ 0) (data : Word) :
    rowAccepts 0x4000000000 0x0000000000 (accessKey true off data) = false ∧
      rowAccepts 0x7F00000001 0x4000000001 (accessKey true off data) = false ∧
      rowAccepts 0x7F00000002 0x4000000002 (accessKey true off data) = false ∧
      rowAccepts 0x7F00000003 0x4000000000 (accessKey true off data) = false := by
  simp only [← Bool.not_eq_true, rowAccepts_read_iff, rowAccepts_start_iff, rowAccepts_clear_iff,
    rowAccepts_nop_iff, hoff, false_and]
  decide

/-- The instruction of a write key at another offset: a write of the register there (R102). -/
theorem decodeKey_write {off : BitVec 6} {r : Reg} (hoff : off ≠ 0) (h : Reg.ofOffset off = some r)
    (data : Word) : decodeKey (accessKey true off data) = .ok (.regWrite r data) := by
  obtain ⟨hread, hstart, hclear, hnop⟩ := rowAccepts_write hoff data
  simp only [decodeKey, hread, hstart, hclear, hnop, keyOffset_accessKey, keyData_accessKey_write, h,
    Bool.false_eq_true, if_false]

/-- A key whose offset is no register's stands for nothing (R70). -/
theorem decodeKey_misaligned {off : BitVec 6} (h : Reg.ofOffset off = none) (b : Bool) (data : Word) :
    decodeKey (accessKey b off data) = .error .misalignedOffset := by
  have hoff : off ≠ 0 := by rintro rfl; cases h
  cases b with
  | false => rw [decodeKey, if_pos ((rowAccepts_read_iff ..).2 rfl), keyOffset_accessKey, h]
  | true =>
    obtain ⟨hread, hstart, hclear, hnop⟩ := rowAccepts_write hoff data
    simp only [decodeKey, hread, hstart, hclear, hnop, keyOffset_accessKey, h,
      Bool.false_eq_true, if_false]

/-- R21's table of offsets, as the model has it. -/
theorem offset_eq_of_mem {off : BitVec 6} {r : Reg}
    (h : (off.toNat, r) ∈ [(0x00, .ctrl), (0x04, .status), (0x08, .format), (0x0C, .width),
      (0x10, .height), (0x14, .srcBase), (0x18, .srcStride), (0x1C, .outBase), (0x20, .outCap),
      (0x24, .intEn), (0x28, .reqSizeLo), (0x2C, .reqSizeHi), (0x30, .resultSize),
      (0x34, .errInfo), (0x38, .reserved38), (0x3C, .reserved3C)]) : r.offset = off := by
  apply BitVec.eq_of_toNat_eq
  cases r <;> simpa [Reg.offset, eq_comm] using h

theorem offset_ne_zero {r : Reg} (h : r ≠ .ctrl) : r.offset ≠ 0 := by
  intro h0
  have hctrl : Reg.ofOffset 0 = some r := h0 ▸ ofOffset_offset r
  exact h (Option.some.inj hctrl).symm

/-- Settles O3: a read, a command at CTRL, or a write, by the row of the table that accepts the key. -/
theorem accessKeyTable : Obligations.AccessKeyTable := by
  intro off data
  refine ⟨fun r hr => ?_, decodeKey_ctrl data, fun hoff b => ?_⟩
  · obtain rfl := offset_eq_of_mem hr
    refine ⟨rfl, ?_, fun hctrl => ?_⟩
    · exact decodeKey_read (ofOffset_offset r) data
    · exact decodeKey_write (offset_ne_zero hctrl) (ofOffset_offset r) data
  · exact decodeKey_misaligned ((ofOffset_eq_none_iff off).2 hoff) b data

/-! ### A step runs the instruction (R20) -/

theorem registerAccess_of_key {isWrite : Bool} {a : Nat} {data : Word} {s : State} {off : BitVec 6}
    {i : Instr} (hoff : windowOffset s.plat a = some off)
    (hkey : decodeKey (accessKey isWrite off data) = .ok i) :
    registerAccess isWrite a .word data s = exec i s := by
  simp only [registerAccess, hoff, hkey, if_true]

/-- Settles O5. -/
theorem stepRunsHostAccess : Obligations.StepRunsHostAccess := by
  intro s a data rest off i hturn hoff
  rw [step_host hturn]
  constructor <;> intro hscript hkey
  · simp only [hostTurn, tick_script, hscript]
    exact registerAccess_of_key hoff hkey
  · simp only [hostTurn, tick_script, hscript]
    exact registerAccess_of_key hoff hkey

/-- Settles O6. -/
theorem stepRunsChosenPacket : Obligations.StepRunsChosenPacket := by
  intro s i hturn hp hc
  have hc' : chosenPacket (tick s) = .ok i := hc
  rw [step_sequencer hturn]
  simp only [sequencerTurn, tick_phase, hp, hc']

/-! ### The meanings of the register instructions (R22, R240-R244) -/

@[simp] theorem exec_regRead (r : Reg) (s : State) : exec (.regRead r) s = execRegRead r s := rfl

@[simp] theorem exec_regWrite (r : Reg) (v : Word) (s : State) :
    exec (.regWrite r v) s = execRegWrite r v s := rfl

@[simp] theorem exec_cmdStart (clear : Bool) (s : State) :
    exec (.cmdStart clear) s = execCmdStart clear s := rfl

@[simp] theorem exec_cmdClear (s : State) : exec .cmdClear s = execCmdClear s := rfl

@[simp] theorem exec_ctrlNop (s : State) : exec .ctrlNop s = .next s := rfl

/-- A read of a register other than STATUS marks nothing of what the host has seen. -/
theorem execRegRead_of_ne_status {r : Reg} (h : r ≠ .status) (s : State) :
    execRegRead r s = .next { s with world := { s.world with hostData := regValue r s } } := by
  rw [execRegRead, worldAfterRead_of_not fun hr => h hr.1]

/-- A write changes nothing at a register that has nothing to write. -/
theorem execRegWrite_ignored {r : Reg} {v : Word} {s : State} (hr : r ≠ .ctrl)
    (hw : writeConfig r v s.cfg = s.cfg) : execRegWrite r v s = .next s := by
  obtain ⟨hctrl, -⟩ | ⟨-, heq⟩ | ⟨-, heq⟩ := execRegWrite_cases r v s
  · exact absurd hctrl hr
  · exact heq
  · rw [heq, hw]

theorem regValue_intEn (s : State) : regValue .intEn s = if s.cfg.intEn = true then 1 else 0 := by
  unfold regValue
  cases s.cfg.intEn <;> rfl

/-- Settles O8. -/
theorem regReadAnswersValue : Obligations.RegReadAnswersValue := by
  intro r s
  refine ⟨regValue r s, worldAfterRead r s, rfl, worldAfterRead_eq r s, fun h => ?_, ?_, ?_, ?_⟩
  · rw [← busy_eq_false_iff] at h
    exact worldAfterRead_of_not h
  · rintro (rfl | rfl | rfl) <;> rfl
  · rintro rfl
    have := s.cfg.fmt.isLt
    simp only [regValue, BitVec.toNat_setWidth]
    omega
  · refine ⟨?_, ?_, ?_, ?_, ?_, ?_, ?_, ?_, ?_⟩ <;> rintro rfl
    case refine_7 => exact regValue_intEn s
    all_goals rfl

/-- Settles O19. -/
theorem ctrlNopDoesNothing : Obligations.CtrlNopDoesNothing :=
  fun s => ⟨exec_ctrlNop s, execRegRead_of_ne_status (by decide) s⟩

/-- Settles O46: each register of the window is 0 in the reset state. -/
theorem resetReadsZero : Obligations.ResetReadsZero := by
  refine ⟨rfl, rfl, fun r => ?_⟩
  cases r <;> rfl

/-! ### STATUS (R23) -/

/-- The fields of a word laid out as R23 lays out STATUS. -/
theorem statusLayout_getLsbD (code : BitVec 4) (keyframe err done busy : Bool) :
    let v := (0 : BitVec 20) ++ code ++ (0 : BitVec 4) ++ BitVec.ofBool keyframe
      ++ BitVec.ofBool err ++ BitVec.ofBool done ++ BitVec.ofBool busy
    v.getLsbD 0 = busy ∧ v.getLsbD 1 = done ∧ v.getLsbD 2 = err ∧ v.getLsbD 3 = keyframe ∧
      v.extractLsb' 4 4 = 0 ∧ v.extractLsb' 8 4 = code ∧ v.extractLsb' 12 20 = 0 := by
  revert code keyframe err done busy
  decide

theorem statusWord_fields (s : State) :
    (statusWord s).getLsbD 0 = busy s ∧ (statusWord s).getLsbD 1 = s.status.done ∧
      (statusWord s).getLsbD 2 = s.status.err ∧ (statusWord s).getLsbD 3 = s.status.keyframe ∧
      (statusWord s).extractLsb' 4 4 = 0 ∧ (statusWord s).extractLsb' 8 4 = s.status.errCode ∧
      (statusWord s).extractLsb' 12 20 = 0 :=
  statusLayout_getLsbD s.status.errCode s.status.keyframe s.status.err s.status.done (busy s)

/-- Settles O9. -/
theorem statusWordFields : Obligations.StatusWordFields := by
  intro s
  obtain ⟨hbusy, hfields⟩ := statusWord_fields s
  refine ⟨statusWord s, worldAfterRead .status s, rfl, ?_, hfields⟩
  rw [hbusy, busy_eq_true_iff]

/-! ### Reserved bits and offsets (R32) -/

theorem fmt_reserved (fmt : BitVec 4) : (fmt.setWidth 32).extractLsb' 4 28 = 0 := by
  revert fmt; decide

theorem intEn_reserved (en : Bool) : ((BitVec.ofBool en).setWidth 32).extractLsb' 1 31 = 0 := by
  revert en; decide

/-- The command of a CTRL write depends on data bits 1:0 alone (R100). -/
theorem decodeKey_ctrl_low {v v' : Word} (h : v.extractLsb' 0 2 = v'.extractLsb' 0 2) :
    decodeKey (accessKey true 0 v) = decodeKey (accessKey true 0 v') := by
  have hbit : ∀ i < 2, v.getLsbD i = v'.getLsbD i := fun i hi => by
    simpa [BitVec.getLsbD_extractLsb', hi] using congrArg (·.getLsbD i) h
  rw [decodeKey_ctrl, decodeKey_ctrl, hbit 0 (by decide), hbit 1 (by decide)]

/-- Settles O12. -/
theorem reservedReadsZero : Obligations.ReservedReadsZero := by
  intro s t r v v'
  refine ⟨?_, fun _ => ?_, execRegRead_of_ne_status (by decide) s, decodeKey_ctrl_low⟩
  · rintro (rfl | rfl)
    · exact ⟨execRegRead_of_ne_status (by decide) s, execRegWrite_ignored (by decide) rfl⟩
    · exact ⟨execRegRead_of_ne_status (by decide) s, execRegWrite_ignored (by decide) rfl⟩
  · obtain ⟨-, -, -, -, hlow, -, hhigh⟩ := statusWord_fields t
    exact ⟨regValue .format t, regValue .intEn t, statusWord t, worldAfterRead .status t,
      execRegRead_of_ne_status (by decide) t, execRegRead_of_ne_status (by decide) t, rfl,
      fmt_reserved t.cfg.fmt, intEn_reserved t.cfg.intEn, hlow, hhigh⟩

/-! ### REQ_SIZE (R29) -/

/-- The table of R120 without the source order: `FMT`, `D` and `B`. -/
def formatColumns : List (Nat × Nat × ElementWidth) :=
  [(0, 1, .one), (1, 3, .one), (2, 4, .one), (3, 1, .two), (4, 1, .two), (5, 3, .two), (6, 3, .two),
    (7, 4, .two), (8, 4, .two)]

/-- The format of a row of the table, with the source order of the two-byte formats (R120). -/
theorem formatRow_of_columns {fmt : BitVec 4} {D : Nat} {B : ElementWidth}
    (h : (fmt.toNat, D, B) ∈ formatColumns) :
    ∃ order, formatRow fmt = some ⟨D, B, order⟩ ∧ (fmt.toNat ∈ [3, 5, 7] → order = .le) ∧
      (fmt.toNat ∈ [4, 6, 8] → order = .be) := by
  simp only [formatColumns, List.mem_cons, Prod.mk.injEq, List.not_mem_nil, or_false] at h
  obtain ⟨hfmt, rfl, rfl⟩ | ⟨hfmt, rfl, rfl⟩ | ⟨hfmt, rfl, rfl⟩ | ⟨hfmt, rfl, rfl⟩ | ⟨hfmt, rfl, rfl⟩ |
    ⟨hfmt, rfl, rfl⟩ | ⟨hfmt, rfl, rfl⟩ | ⟨hfmt, rfl, rfl⟩ | ⟨hfmt, rfl, rfl⟩ := h <;>
    simp [formatRow, hfmt]

theorem legalFormat_of_columns {c : ConfigRegs} {D : Nat} {B : ElementWidth}
    (h : (c.fmt.toNat, D, B) ∈ formatColumns) (hwidth : 1 ≤ c.width.toNat ∧ c.width.toNat ≤ 65535)
    (hheight : 1 ≤ c.height.toNat ∧ c.height.toNat ≤ 65535) :
    ∃ order, legalFormat c = some ⟨D, B, order⟩ := by
  obtain ⟨order, hrow, -⟩ := formatRow_of_columns h
  exact ⟨order, (legalFormat_some_iff _ _).2 ⟨(legalResolution_iff c).2 ⟨hwidth, hheight⟩, hrow⟩⟩

theorem legalFormat_eq_none {c : ConfigRegs}
    (h : ¬ (c.fmt.toNat ≤ 8 ∧ 1 ≤ c.width.toNat ∧ c.width.toNat ≤ 65535 ∧
        1 ≤ c.height.toNat ∧ c.height.toNat ≤ 65535)) : legalFormat c = none := by
  rw [Option.eq_none_iff_forall_ne_some]
  intro f hf
  obtain ⟨hres, hrow⟩ := (legalFormat_some_iff c f).1 hf
  obtain ⟨⟨hw, hw'⟩, hh, hh'⟩ := (legalResolution_iff c).1 hres
  exact h ⟨(formatRow_isSome_iff _).1 (by rw [hrow]; rfl), hw, hw', hh, hh'⟩

/-- The bound of the largest configuration (R125). -/
theorem sizeBound_le {f : PixelFormat} {width height : Nat} (hdepth : f.depth ≤ 4)
    (hwidth : width ≤ 65535) (hheight : height ≤ 65535) :
    sizeBound f width height ≤ 68720001512 := by
  have hB := (elementBytes_pos f.width).2
  have hlines : f.depth * height ≤ 4 * 65535 := Nat.mul_le_mul hdepth hheight
  have hdata : f.depth * height * (2 * width + 1) * elementBytes f.width
      ≤ 4 * 65535 * (2 * 65535 + 1) * 2 :=
    Nat.mul_le_mul (Nat.mul_le_mul hlines (by omega)) hB
  rw [sizeBound_eq, Nat.mul_assoc 4]
  omega

/-- The two halves of a 64-bit value. -/
theorem halves_toNat (v : BitVec 64) :
    2 ^ 32 * (v.extractLsb' 32 32).toNat + (v.extractLsb' 0 32).toNat = v.toNat := by
  have := v.isLt
  simp only [BitVec.extractLsb'_toNat, Nat.shiftRight_eq_div_pow]
  omega

/-- Settles O10. -/
theorem reqSizeReadsBound : Obligations.ReqSizeReadsBound := by
  intro s
  have hzero : legalFormat s.cfg = none →
      regValue .reqSizeLo s = 0 ∧ regValue .reqSizeHi s = 0 := fun h => by
    simp [regValue, reqSize, h]
  refine ⟨regValue .reqSizeLo s, regValue .reqSizeHi s, execRegRead_of_ne_status (by decide) s,
    execRegRead_of_ne_status (by decide) s, fun D B hmem hw hw' hh hh' => ?_,
    fun h => hzero (legalFormat_eq_none h), fun h => hzero ?_, fun v =>
      ⟨execRegWrite_ignored (by decide) rfl, execRegWrite_ignored (by decide) rfl⟩⟩
  · obtain ⟨⟨fmt, D', w⟩, hcol, heq⟩ :
        ∃ row ∈ formatColumns, (row.1, row.2.1, elementBytes row.2.2) = (s.cfg.fmt.toNat, D, B) :=
      List.mem_map.1 hmem
    obtain ⟨rfl, rfl, rfl⟩ : fmt = s.cfg.fmt.toNat ∧ D' = D ∧ elementBytes w = B := by
      simpa using heq
    obtain ⟨order, hlegal⟩ := legalFormat_of_columns hcol ⟨hw, hw'⟩ ⟨hh, hh'⟩
    have hbound := sizeBound_le (f := ⟨D', w, order⟩)
      (formatRow_depth ((legalFormat_some_iff _ _).1 hlegal).2).2 hw' hh'
    have hreq : (reqSize s.cfg).toNat
        = sizeBound ⟨D', w, order⟩ s.cfg.width.toNat s.cfg.height.toNat := by
      simp only [reqSize, hlegal, BitVec.toNat_ofNat]
      omega
    have hvalue : 2 ^ 32 * (regValue .reqSizeHi s).toNat + (regValue .reqSizeLo s).toNat
        = sizeBound ⟨D', w, order⟩ s.cfg.width.toNat s.cfg.height.toNat :=
      (halves_toNat _).trans hreq
    rw [hvalue]
    exact ⟨rfl, hbound⟩
  · rw [h]
    rfl

end Sys2Proof.Machine
end

section
/-! PROOF. The invariant of the machine (Safety.lean) holds after reset and every step keeps it: shown operation
by operation, as a claim about the next state where the operation answers one. -/

namespace Sys2Proof.Machine

/-- `P` holds of the next state, where the rule answers one. -/
def Answers (P : State → Prop) (r : Result) : Prop := ∀ t : State, r = .next t → P t

section
variable {P : State → Prop}

@[simp] theorem answers_next {t : State} : Answers P (.next t) ↔ P t :=
  ⟨fun h => h t rfl, fun h _ heq => by cases heq; exact h⟩

@[simp] theorem answers_fault (f : Fault) : Answers P (.fault f) := fun _ h => by cases h

@[simp] theorem answers_refused (r : Refusal) : Answers P (.refused r) := fun _ h => by cases h

/-- A write sequence is followed by the rest of the rule, or by BusError, over some canonical memory. -/
theorem answers_storeSeq {a : Nat} {bs : List Byte} {s : State} {k : State → Result}
    (hw : Memory.wf s.mem) (hk : ∀ m, Memory.wf m → Answers P (k { s with mem := m }))
    (hfail : ∀ m bad, Memory.wf m → P (fail .busError bad { s with mem := m })) :
    Answers P (storeSeq a bs s k) := by
  have hm : Memory.wf (memWriteSeq s.plat s.mem a bs).1 := wf_memWriteSeq hw
  unfold storeSeq
  split
  · rename_i m heq
    exact hk m (by simpa [heq] using hm)
  · rename_i m bad heq
    exact answers_next.2 (hfail m bad (by simpa [heq] using hm))

theorem answers_hostAccess {a len : Nat} {s : State} {r : Result}
    (hr : a + len ≤ Config.addressSpace → Answers P r) : Answers P (hostAccess a len s r) := by
  obtain ⟨-, heq⟩ | ⟨-, -, heq⟩ | ⟨hlen, -, heq⟩ := hostAccess_cases a len s r <;> rw [heq]
  · exact answers_fault _
  · exact answers_refused _
  · exact hr hlen

end

/-! ### The packet the detector chose, as the emitter performs it (R155, R176, R177) -/

/-- A packet that answers a next state was performed in phase EMIT, and was the one chosen. -/
theorem exec_packet_next {i : Instr} {s t : State} (hi : formatOf i ≠ .mmio32)
    (h : exec i s = .next t) : s.phase = .emit ∧ chosenPacket s = .ok i := by
  cases i with
  | rep8 n v => exact ⟨(whenChosen_next h).1, (whenChosen_next h).2.1⟩
  | lit8 n vs => exact ⟨(whenChosen_next h).1, (whenChosen_next h).2.1⟩
  | rep16 n v => exact ⟨(whenChosen_next h).1, (whenChosen_next h).2.1⟩
  | lit16 n vs => exact ⟨(whenChosen_next h).1, (whenChosen_next h).2.1⟩
  | regRead | cmdStart | cmdClear | ctrlNop | regWrite => exact absurd rfl hi

/-- The meaning of the chosen packet is EMIT_REPEAT or EMIT_LITERAL of its count. -/
theorem exec_packetOf {s : State} {w : ElementWidth} {k : RunKind} {n : Nat} {v : Half}
    {vs : List Half} (hp : s.phase = .emit) (hc : chosenPacket s = .ok (packetOf w k n v vs)) :
    (∃ u, exec (packetOf w k n v vs) s = emitRepeat w (BitVec.ofNat 7 n) u s) ∨
      ∃ us, exec (packetOf w k n v vs) s = emitLiteral w (BitVec.ofNat 7 n) us s := by
  cases w <;> cases k
  · exact .inl ⟨_, whenChosen_of_chosen hp hc⟩
  · exact .inr ⟨_, whenChosen_of_chosen hp hc⟩
  · exact .inl ⟨_, whenChosen_of_chosen hp hc⟩
  · exact .inr ⟨_, whenChosen_of_chosen hp hc⟩

/-- The count of the chosen packet is at least 1 and stays within the scanline (R150, R155). -/
theorem exec_chosen_cases {i : Instr} {s : State} {g : Geometry} {x : BitVec 16}
    (hp : s.phase = .emit) (hc : chosenPacket s = .ok i) (hg : s.geom = some g) (hx : s.x = some x) :
    ∃ n : BitVec 7, 1 ≤ n.toNat ∧ x.toNat + n.toNat ≤ s.cfg.width.toNat ∧
      ((∃ v, exec i s = emitRepeat g.width n v s) ∨
        ∃ vs, exec i s = emitLiteral g.width n vs s) := by
  obtain ⟨g', x', hg', hx', hpacket⟩ := chosenPacket_ok hc
  obtain rfl : g = g' := by simpa [hg] using hg'
  obtain rfl : x = x' := by simpa [hx] using hx'
  obtain ⟨hlt, -, v, -, rfl⟩ := packetAt_some hpacket
  obtain ⟨hpos, hle, -⟩ := detect_bounds s.plat.policy s.sl g.width hlt
  obtain ⟨hmax, hrest⟩ := runLimit_le s.cfg.width.toNat x.toNat
  have h127 : Config.maxRun = 127 := rfl
  have hn : (BitVec.ofNat 7 (detect s.plat.policy s.sl g.width s.cfg.width.toNat x.toNat).2).toNat
      = (detect s.plat.policy s.sl g.width s.cfg.width.toNat x.toNat).2 := by
    rw [BitVec.toNat_ofNat, Nat.mod_eq_of_lt (by omega)]
  exact ⟨_, by omega, by omega, exec_packetOf hp hc⟩

/-! ### The invariant, phase by phase -/

section
variable {s : State} {f : PixelFormat} {z : BitVec 2} {y : BitVec 16} {d : Word}

theorem phaseLegal_rowBegin (hp : s.phase = .rowBegin) :
    PhaseLegal s f z y d ↔
      s.sl = [] ∧ lineFloor s.cfg f (tableIndex s.cfg.height.toNat z.toNat y.toNat) ≤ d.toNat ∧
        d.toNat ≤ lineCeiling s.cfg f (tableIndex s.cfg.height.toNat z.toNat y.toNat) := by
  simp only [PhaseLegal, hp]

theorem phaseLegal_fetch (hp : s.phase = .fetch) :
    PhaseLegal s f z y d ↔
      s.sl = [] ∧ LineLegal s f (tableIndex s.cfg.height.toNat z.toNat y.toNat) d := by
  simp only [PhaseLegal, hp]

theorem phaseLegal_emit (hp : s.phase = .emit) :
    PhaseLegal s f z y d ↔
      ∃ r x, LineLegal s f (tableIndex s.cfg.height.toNat z.toNat y.toNat) r ∧
        EmitLegal s f x r d := by
  simp only [PhaseLegal, hp]

theorem phaseLegal_rowEnd (hp : s.phase = .rowEnd) :
    PhaseLegal s f z y d ↔
      s.sl.length = s.cfg.width.toNat ∧
      ∃ r, LineLegal s f (tableIndex s.cfg.height.toNat z.toNat y.toNat) r ∧
        r.toNat + 2 * elementBytes f.width ≤ d.toNat ∧
        d.toNat ≤ r.toNat + 2 * elementBytes f.width * s.cfg.width.toNat := by
  simp only [PhaseLegal, hp]

theorem phaseLegal_finish (hp : s.phase = .finish) :
    PhaseLegal s f z y d ↔
      s.sl = [] ∧ lineFloor s.cfg f (f.depth * s.cfg.height.toNat) ≤ d.toNat ∧
        d.toNat ≤ lineCeiling s.cfg f (f.depth * s.cfg.height.toNat) := by
  simp only [PhaseLegal, hp]

/-- After CHECK a legal run has its frame. -/
theorem RunLegal.frame (h : RunLegal s) (hidle : s.phase ≠ .idle) (hcheck : s.phase ≠ .check) :
    ∃ f z y d, FrameLegal s f z y d ∧ PhaseLegal s f z y d :=
  (h.resolve_left hidle).resolve_left hcheck

theorem RunLegal.of_idle (h : s.phase = .idle) : RunLegal s := .inl h

theorem RunLegal.of_frame (hf : FrameLegal s f z y d) (hl : PhaseLegal s f z y d) : RunLegal s :=
  .inr (.inr ⟨f, z, y, d, hf, hl⟩)

/-- A frame whose indices and cursor move stays legal where they stay in range. -/
theorem FrameLegal.move {t : State} {z' : BitVec 2} {y' : BitVec 16} {d' : Word}
    (h : FrameLegal s f z y d) (hcfg : t.cfg = s.cfg) (hgeom : t.geom = s.geom)
    (hz : t.z = some z') (hy : t.y = some y') (hd : t.dcur = some d')
    (hzlt : z'.toNat < f.depth) (hylt : y'.toNat < s.cfg.height.toNat) : FrameLegal t f z' y' d' :=
  { format := hcfg ▸ h.format
    room := hcfg ▸ h.room
    geometry := by rw [hgeom, hcfg]; exact h.geometry
    z_held := hz
    y_held := hy
    dcur_held := hd
    z_lt := hzlt
    y_lt := hcfg ▸ hylt }

theorem LineLegal.of_eq {t : State} {i : Nat} {r : Word} (h : LineLegal s f i r)
    (hcfg : t.cfg = s.cfg) (hrstart : t.rstart = s.rstart) : LineLegal t f i r :=
  { rstart_held := hrstart.trans h.rstart_held
    floor := hcfg ▸ h.floor
    ceiling := hcfg ▸ h.ceiling }

theorem FrameLegal.resolution (h : FrameLegal s f z y d) :
    (1 ≤ s.cfg.width.toNat ∧ s.cfg.width.toNat ≤ 65535) ∧
      1 ≤ s.cfg.height.toNat ∧ s.cfg.height.toNat ≤ 65535 :=
  (legalResolution_iff _).1 ((legalFormat_some_iff _ _).1 h.format).1

theorem FrameLegal.depth (h : FrameLegal s f z y d) : 1 ≤ f.depth ∧ f.depth ≤ 4 :=
  formatRow_depth ((legalFormat_some_iff _ _).1 h.format).2

end

/-! ### Memory and the outside world are no part of the run -/

section
variable {s : State} (m : Memory) (w : World)

theorem PhaseLegal.withOutside {f : PixelFormat} {z : BitVec 2} {y : BitVec 16} {d : Word}
    (h : PhaseLegal s f z y d) : PhaseLegal { s with mem := m, world := w } f z y d := by
  cases hp : s.phase with
  | idle | check => trivial
  | rowBegin => exact (phaseLegal_rowBegin rfl).2 ((phaseLegal_rowBegin hp).1 h)
  | fetch =>
    obtain ⟨hsl, hline⟩ := (phaseLegal_fetch hp).1 h
    exact (phaseLegal_fetch rfl).2 ⟨hsl, hline.of_eq rfl rfl⟩
  | emit =>
    obtain ⟨r, x, hline, hemit⟩ := (phaseLegal_emit hp).1 h
    exact (phaseLegal_emit rfl).2 ⟨r, x, hline.of_eq rfl rfl, hemit.x_held, hemit.x_lt,
      hemit.line_written, hemit.low_samples, hemit.least, hemit.most⟩
  | rowEnd =>
    obtain ⟨hsl, r, hline, hbounds⟩ := (phaseLegal_rowEnd hp).1 h
    exact (phaseLegal_rowEnd rfl).2 ⟨hsl, r, hline.of_eq rfl rfl, hbounds⟩
  | finish => exact (phaseLegal_finish rfl).2 ((phaseLegal_finish hp).1 h)

theorem RunLegal.withOutside (h : RunLegal s) : RunLegal { s with mem := m, world := w } := by
  obtain hidle | hcheck | ⟨f, z, y, d, hf, hl⟩ := h
  · exact .inl hidle
  · exact .inr (.inl hcheck)
  · exact .of_frame (hf.move rfl rfl hf.z_held hf.y_held hf.dcur_held hf.z_lt hf.y_lt)
      (hl.withOutside m w)

variable {m}

/-- The invariant asks of memory only its canonical form, and nothing of the outside world. -/
theorem Inv.withOutside (h : Inv s) (hm : Memory.wf m) : Inv { s with mem := m, world := w } :=
  { memory := hm
    status := ⟨h.status.busy_clear, h.status.one_result, h.status.keyframe_done,
      h.status.code_zero, h.status.code_named⟩
    result := ⟨h.result.size_zero, h.result.info_zero⟩
    run := h.run.withOutside m w }

theorem Inv.withWorld (h : Inv s) : Inv { s with world := w } := h.withOutside w h.memory

theorem Inv.withScript (h : Inv s) (ops : List HostOp) : Inv (withScript ops s) := h.withWorld _

theorem Inv.tick (h : Inv s) : Inv (tick s) := h.withWorld _

end

/-! ### What a run in progress may change, and how it ends -/

/-- While BUSY the status and the results stand cleared (R23, R30, R31, R243). -/
theorem Inv.cleared {s : State} (h : Inv s) (hb : busy s = true) :
    s.status.done = false ∧ s.status.err = false ∧ s.status.errCode = 0 ∧ s.resultSize = 0 ∧
      s.errInfo = 0 := by
  obtain ⟨hdone, herr⟩ := h.status.busy_clear hb
  have hcode := h.status.code_zero herr
  exact ⟨hdone, herr, hcode, h.result.size_zero hdone, h.result.info_zero (by rw [hcode]; decide)⟩

/-- A micro-operation that goes on leaves the status and the results as they are. -/
theorem Inv.goesOn {s t : State} (h : Inv s) (hb : busy s = true) (hstatus : t.status = s.status)
    (hsize : t.resultSize = s.resultSize) (hinfo : t.errInfo = s.errInfo) (hm : Memory.wf t.mem)
    (hrun : RunLegal t) : Inv t := by
  obtain ⟨hdone, herr, hcode, hsize0, hinfo0⟩ := h.cleared hb
  have hkey := h.status.keyframe_done
  refine ⟨hm, ⟨?_, ?_, ?_, ?_, ?_⟩, ⟨?_, ?_⟩, hrun⟩ <;> simp [*]

/-- FAIL leaves a legal machine: its code is one of R261's, and ERR_INFO is 0 with a code below 4 (R31). -/
theorem inv_fail {e : ErrorKind} {info : Nat} {s : State} (hm : Memory.wf s.mem)
    (hinfo : 4 ≤ (errorCode e).toNat ∨ info = 0) : Inv (fail e info s) := by
  have hcode : 1 ≤ (errorCode e).toNat ∧ (errorCode e).toNat ≤ 5 := by cases e <;> decide
  refine ⟨wf_memoryAfterRun hm, ⟨?_, ?_, ?_, ?_, ?_⟩, ⟨?_, ?_⟩, .of_idle rfl⟩
  case refine_7 =>
    intro hlt
    obtain hge | rfl := hinfo
    · exact absurd hlt (by simpa using hge)
    · rfl
  all_goals simp [hcode]

/-- The machine is legal wherever it is idle or about to check with the results cleared. -/
theorem inv_of_cleared {s : State} (hm : Memory.wf s.mem) (hstatus : s.status = .clear)
    (hsize : s.resultSize = 0) (hinfo : s.errInfo = 0) (hrun : RunLegal s) : Inv s := by
  refine ⟨hm, ⟨?_, ?_, ?_, ?_, ?_⟩, ⟨?_, ?_⟩, hrun⟩ <;> simp [hstatus, hsize, hinfo, Status.clear]

/-- Settles O52. -/
theorem invAtReset : Obligations.InvAtReset :=
  inv_of_cleared (by decide) rfl rfl rfl (.of_idle rfl)

theorem inv_resetBlock {s : State} (h : Inv s) : Inv (resetBlock s) :=
  inv_of_cleared (wf_memoryAfterReset h.memory) rfl rfl rfl (.of_idle rfl)

/-! ### CHECK, ROW_BEGIN, FETCH (R127, R216, R195) -/

/-- The pixel data starts at a 32-bit offset where there is room for the bound. -/
theorem toNat_ofNat_dataStart {f : PixelFormat} {c : ConfigRegs}
    (hroom : sizeBound f c.width.toNat c.height.toNat ≤ c.outCap.toNat) :
    (BitVec.ofNat 32 (dataStart f.depth c.height.toNat)).toNat
      = dataStart f.depth c.height.toNat := by
  have hle := dataStart_le_sizeBound f c.width.toNat c.height.toNat
  have hcap := c.outCap.isLt
  rw [BitVec.toNat_ofNat, Nat.mod_eq_of_lt (by omega)]

theorem inv_checkRun {s : State} (h : Inv s) (hp : s.phase = .check) :
    Answers Inv (checkRun s) := by
  have hb : busy s = true := by simp [busy_eq_true_iff, hp]
  obtain ⟨-, heq⟩ | ⟨f, hf, ⟨-, heq⟩ | ⟨-, -, heq⟩ | ⟨hres, hroom, heq⟩⟩ := checkRun_cases s <;>
    rw [heq, answers_next]
  · exact inv_fail h.memory (.inr rfl)
  · exact inv_fail h.memory (.inr rfl)
  · exact inv_fail h.memory (.inr rfl)
  · have hd := toNat_ofNat_dataStart hroom
    refine h.goesOn hb rfl rfl rfl h.memory (.of_frame (f := f) (z := 0) (y := 0)
      (d := BitVec.ofNat 32 (dataStart f.depth s.cfg.height.toNat)) ?_ ?_)
    · exact
        { format := (legalFormat_some_iff _ _).2 ⟨hres, hf⟩
          room := hroom
          geometry := rfl
          z_held := rfl
          y_held := rfl
          dcur_held := rfl
          z_lt := (formatRow_depth hf).1
          y_lt := ((legalResolution_iff _).1 hres).2.1 }
    · rw [phaseLegal_rowBegin rfl, hd]
      simp [lineFloor, lineCeiling, tableIndex]

theorem inv_rowBegin {s : State} (h : Inv s) (hp : s.phase = .rowBegin) :
    Answers Inv (rowBegin s) := by
  have hb : busy s = true := by simp [busy_eq_true_iff, hp]
  obtain ⟨f, z, y, d, hf, hl⟩ := h.run.frame (by simp [hp]) (by simp [hp])
  obtain ⟨hsl, hfloor, hceiling⟩ := (phaseLegal_rowBegin hp).1 hl
  simp only [rowBegin, hf.z_held, hf.y_held, hf.dcur_held, held_some]
  refine answers_storeSeq h.memory (fun m hm => answers_next.2 ?_)
    (fun m bad hm => inv_fail hm (.inl (by decide)))
  exact h.goesOn hb rfl rfl rfl hm
    (.of_frame (hf.move rfl rfl hf.z_held hf.y_held hf.dcur_held hf.z_lt hf.y_lt)
      ((phaseLegal_fetch rfl).2 ⟨hsl, rfl, hfloor, hceiling⟩))

/-- A one-byte sample leaves the high byte of its entry 0 (R36, R192). -/
theorem readSample_low {o : ByteOrder} {a : Nat} {s : State} {v : Half}
    (h : readSample .one o a s = .ok v) : v.toNat < 256 := by
  unfold readSample at h
  split at h
  · cases h
  · rename_i b _
    obtain rfl : b.setWidth 16 = v := by simpa using h
    have := b.isLt
    simp only [BitVec.toNat_setWidth]
    omega

theorem fetchSamples_low {g : Geometry} (hg : g.width = .one) (row channel : Nat) (s : State)
    (count p : Nat) : ∀ v ∈ (fetchSamples g row channel s count p).1, v.toNat < 256 := by
  induction count generalizing p with
  | zero => simp [fetchSamples]
  | succ n ih =>
    unfold fetchSamples
    split
    · simp
    · rename_i v hv
      simp only [List.forall_mem_cons]
      exact ⟨readSample_low (hg ▸ hv), ih (p + 1)⟩

theorem inv_fetchLine {s : State} (h : Inv s) (hp : s.phase = .fetch) :
    Answers Inv (fetchLine s) := by
  have hb : busy s = true := by simp [busy_eq_true_iff, hp]
  obtain ⟨f, z, y, d, hf, hl⟩ := h.run.frame (by simp [hp]) (by simp [hp])
  obtain ⟨-, hline⟩ := (phaseLegal_fetch hp).1 hl
  simp only [fetchLine, hf.z_held, hf.y_held, hf.geometry, held_some]
  split
  · exact answers_next.2 (inv_fail h.memory (.inl (by decide)))
  · rename_i vs heq
    have hlen := (fetchSamples_length _ _ _ _ _ _).2 (congrArg Prod.snd heq)
    have hlow := fun hw : f.width = .one => fetchSamples_low (g := ⟨f.depth, f.width, f.order,
      tableSize f.depth s.cfg.height.toNat⟩) hw (sourceRow s.cfg.height.toNat y.toNat) z.toNat s
        s.cfg.width.toNat 0
    rw [heq] at hlen hlow
    refine answers_next.2 (h.goesOn hb rfl rfl rfl h.memory (.of_frame
      (hf.move rfl hf.geometry.symm rfl rfl hf.dcur_held hf.z_lt hf.y_lt)
      ((phaseLegal_emit rfl).2 ⟨d, 0, hline.of_eq rfl rfl, ?_⟩)))
    exact
      { x_held := rfl
        x_lt := hf.resolution.1.1
        line_written := hlen
        low_samples := hlow
        least := rfl
        most := Nat.le_add_right _ _ }

/-! ### The packets (R172, R176, R177) -/

/-- A packet of `n` samples takes between `2*B` and `2*B*n` bytes, so that the cursor stays within the bounds
of its scanline (R128, R130). -/
theorem inv_emitBytes {s : State} {f : PixelFormat} {z : BitVec 2} {y x : BitVec 16} {d r : Word}
    {bytes : List Byte} {need n : Nat} (h : Inv s) (hp : s.phase = .emit)
    (hf : FrameLegal s f z y d)
    (hline : LineLegal s f (tableIndex s.cfg.height.toNat z.toNat y.toNat) r)
    (hemit : EmitLegal s f x r d) (hn : 1 ≤ n) (hx : x.toNat + n ≤ s.cfg.width.toNat)
    (hleast : 2 * elementBytes f.width ≤ need) (hmost : need ≤ 2 * elementBytes f.width * n) :
    Answers Inv (emitBytes bytes need n d x s) := by
  have hb : busy s = true := by simp [busy_eq_true_iff, hp]
  obtain ⟨-, heq⟩ | ⟨hroom, heq⟩ := emitBytes_cases bytes need n d x s <;> rw [heq]
  · exact answers_next.2 (inv_fail h.memory (.inl (by decide)))
  have hB := elementBytes_pos f.width
  have hcap := s.cfg.outCap.isLt
  have hwidth := hf.resolution.1.2
  have hroom : ¬ s.cfg.outCap.toNat - d.toNat < need := by simpa [exhausted] using hroom
  have hd : (BitVec.ofNat 32 (d.toNat + need)).toNat = d.toNat + need := by
    rw [BitVec.toNat_ofNat, Nat.mod_eq_of_lt (by omega)]
  have hx' : (BitVec.ofNat 16 (x.toNat + n)).toNat = x.toNat + n := by
    rw [BitVec.toNat_ofNat, Nat.mod_eq_of_lt (by omega)]
  have hmost' : d.toNat + need ≤ r.toNat + 2 * elementBytes f.width * (x.toNat + n) := by
    rw [Nat.mul_add]
    have := hemit.most
    omega
  have hleast' : r.toNat + 2 * elementBytes f.width ≤ d.toNat + need := by
    have := hemit.least
    split at this
    · subst this; omega
    · omega
  refine answers_storeSeq h.memory (fun m hm => answers_next.2 ?_)
    (fun m bad hm => inv_fail hm (.inl (by decide)))
  refine h.goesOn hb rfl rfl rfl hm (.of_frame
    (hf.move rfl rfl hf.z_held hf.y_held rfl hf.z_lt hf.y_lt) ?_)
  by_cases hend : x.toNat + n = s.cfg.width.toNat
  · rw [phaseLegal_rowEnd (by simp [phaseAfter, hend]), hd]
    exact ⟨hemit.line_written, r, hline.of_eq rfl rfl, hleast',
      hend ▸ hmost'⟩
  · rw [phaseLegal_emit (by simp [phaseAfter, hend])]
    refine ⟨r, BitVec.ofNat 16 (x.toNat + n), hline.of_eq rfl rfl, ?_⟩
    exact
      { x_held := rfl
        x_lt := by rw [hx']; show _ < s.cfg.width.toNat; omega
        line_written := hemit.line_written
        low_samples := hemit.low_samples
        least := by rw [if_neg (by omega), hd]; exact hleast'
        most := by rw [hx', hd]; exact hmost' }

theorem inv_chosenPacket {i : Instr} {s : State} (h : Inv s) (hp : s.phase = .emit)
    (hc : chosenPacket s = .ok i) : Answers Inv (exec i s) := by
  obtain ⟨f, z, y, d, hf, hl⟩ := h.run.frame (by simp [hp]) (by simp [hp])
  obtain ⟨r, x, hline, hemit⟩ := (phaseLegal_emit hp).1 hl
  obtain ⟨n, hn, hx, ⟨v, heq⟩ | ⟨vs, heq⟩⟩ := exec_chosen_cases hp hc hf.geometry hemit.x_held
  · rw [heq]
    simp only [emitRepeat, hf.dcur_held, hemit.x_held, held_some]
    exact inv_emitBytes h hp hf hline hemit hn hx (Nat.le_refl _) (Nat.le_mul_of_pos_right _ hn)
  · rw [heq]
    simp only [emitLiteral, hf.dcur_held, hemit.x_held, held_some]
    refine inv_emitBytes h hp hf hline hemit hn hx (Nat.mul_le_mul_right _ (by omega)) ?_
    rw [Nat.mul_right_comm]
    exact Nat.mul_le_mul_right _ (by omega)

/-! ### ROW_END and FINISH (R218, R219, R222) -/

/-- The bounds of a scanline's start move by the bounds of one scanline (R128, R130). -/
theorem lineFloor_succ (c : ConfigRegs) (f : PixelFormat) (i : Nat) :
    lineFloor c f (i + 1) = lineFloor c f i + 2 * elementBytes f.width := by
  simp only [lineFloor, Nat.mul_succ, Nat.add_assoc]

theorem lineCeiling_succ (c : ConfigRegs) (f : PixelFormat) (i : Nat) :
    lineCeiling c f (i + 1)
      = lineCeiling c f i + 2 * elementBytes f.width * c.width.toNat := by
  simp only [lineCeiling, Nat.mul_succ, Nat.add_assoc]

theorem tableIndex_next_row (height z y : Nat) :
    tableIndex height z (y + 1) = tableIndex height z y + 1 := rfl

theorem tableIndex_next_channel {height z y : Nat} (h : y + 1 = height) :
    tableIndex height (z + 1) 0 = tableIndex height z y + 1 := by
  simp only [tableIndex, Nat.succ_mul]
  omega

/-- After the last scanline of a channel the index is the next channel's first (R211, R219). -/
theorem inv_advance {s : State} {f : PixelFormat} {z : BitVec 2} {y : BitVec 16} {d : Word}
    {m : Memory} (h : Inv s) (hb : busy s = true) (hf : FrameLegal s f z y d) (hm : Memory.wf m)
    (hfloor : lineFloor s.cfg f (tableIndex s.cfg.height.toNat z.toNat y.toNat + 1) ≤ d.toNat)
    (hceiling : d.toNat
      ≤ lineCeiling s.cfg f (tableIndex s.cfg.height.toNat z.toNat y.toNat + 1)) :
    Inv (advance f.depth z y { s with mem := m, sl := [] }) := by
  have hheight := hf.resolution.2.2
  have hdepth := hf.depth.2
  have hy := hf.y_lt
  have hz := hf.z_lt
  obtain ⟨hrow, heq⟩ | ⟨hrow, hchannel, heq⟩ | ⟨hrow, hchannel, heq⟩ :=
    advance_cases f.depth z y { s with mem := m, sl := [] } <;> rw [heq] <;> dsimp only at hrow
  · have hy' : (BitVec.ofNat 16 (y.toNat + 1)).toNat = y.toNat + 1 := by
      rw [BitVec.toNat_ofNat, Nat.mod_eq_of_lt (by omega)]
    refine h.goesOn hb rfl rfl rfl hm (.of_frame
      (hf.move rfl rfl hf.z_held rfl hf.dcur_held hf.z_lt (by omega)) ?_)
    rw [phaseLegal_rowBegin rfl, hy', tableIndex_next_row]
    exact ⟨rfl, hfloor, hceiling⟩
  · have hlast : y.toNat + 1 = s.cfg.height.toNat := by omega
    have hz' : (BitVec.ofNat 2 (z.toNat + 1)).toNat = z.toNat + 1 := by
      rw [BitVec.toNat_ofNat, Nat.mod_eq_of_lt (by omega)]
    refine h.goesOn hb rfl rfl rfl hm (.of_frame
      (hf.move rfl rfl rfl rfl hf.dcur_held (by omega) (Nat.zero_lt_of_lt hy)) ?_)
    rw [phaseLegal_rowBegin rfl, hz', show BitVec.toNat (0 : BitVec 16) = 0 from rfl,
      tableIndex_next_channel hlast]
    exact ⟨rfl, hfloor, hceiling⟩
  · have hlast : tableIndex s.cfg.height.toNat z.toNat y.toNat + 1
        = f.depth * s.cfg.height.toNat := by
      rw [← tableIndex_next_channel (by omega), show z.toNat + 1 = f.depth by omega]
      rfl
    refine h.goesOn hb rfl rfl rfl hm (.of_frame
      (hf.move rfl rfl hf.z_held hf.y_held hf.dcur_held hf.z_lt hf.y_lt) ?_)
    rw [phaseLegal_finish rfl]
    exact ⟨rfl, hlast ▸ hfloor, hlast ▸ hceiling⟩

theorem inv_rowEnd {s : State} (h : Inv s) (hp : s.phase = .rowEnd) : Answers Inv (rowEnd s) := by
  have hb : busy s = true := by simp [busy_eq_true_iff, hp]
  obtain ⟨f, z, y, d, hf, hl⟩ := h.run.frame (by simp [hp]) (by simp [hp])
  obtain ⟨-, r, hline, hleast, hmost⟩ := (phaseLegal_rowEnd hp).1 hl
  have hfloor := hline.floor
  have hceiling := hline.ceiling
  simp only [rowEnd, hf.z_held, hf.y_held, hf.geometry, hf.dcur_held, hline.rstart_held, held_some]
  refine answers_storeSeq h.memory (fun m hm => answers_next.2 ?_)
    (fun m bad hm => inv_fail hm (.inl (by decide)))
  exact inv_advance (s := s) h hb hf hm (by rw [lineFloor_succ]; omega)
    (by rw [lineCeiling_succ]; omega)

theorem inv_finishRun {s : State} (h : Inv s) (hp : s.phase = .finish) :
    Answers Inv (finishRun s) := by
  have hb : busy s = true := by simp [busy_eq_true_iff, hp]
  obtain ⟨f, z, y, d, hf, -⟩ := h.run.frame (by simp [hp]) (by simp [hp])
  obtain ⟨-, -, -, -, hinfo⟩ := h.cleared hb
  simp only [finishRun, hf.dcur_held, held_some, answers_next]
  refine ⟨wf_memoryAfterRun h.memory, ⟨?_, ?_, ?_, ?_, ?_⟩, ⟨?_, ?_⟩, .of_idle rfl⟩ <;>
    simp [busy, hinfo]

/-! ### The instructions -/

theorem inv_exec {s : State} (h : Inv s) (i : Instr) : Answers Inv (exec i s) := by
  cases i with
  | rep8 | lit8 | rep16 | lit16 =>
    intro t ht
    obtain ⟨hp, hc⟩ := exec_packet_next (by simp [formatOf]) ht
    exact inv_chosenPacket h hp hc t ht
  | regRead r => exact answers_next.2 (h.withWorld _)
  | cmdStart clear =>
    obtain ⟨-, heq⟩ | ⟨-, -, heq⟩ | ⟨-, -, heq⟩ := execCmdStart_cases clear s <;>
      rw [exec_cmdStart, heq]
    · exact answers_next.2 h
    · exact answers_refused _
    · exact answers_next.2 (inv_of_cleared h.memory rfl rfl rfl (.inr (.inl rfl)))
  | cmdClear =>
    obtain ⟨-, heq⟩ | ⟨hb, heq⟩ := execCmdClear_cases s <;>
      rw [exec_cmdClear, heq, answers_next]
    · exact h
    · exact inv_of_cleared h.memory rfl rfl rfl (.of_idle ((busy_eq_false_iff s).1 hb))
  | ctrlNop => exact answers_next.2 h
  | regWrite r v =>
    obtain ⟨-, heq⟩ | ⟨-, heq⟩ | ⟨hb, heq⟩ := execRegWrite_cases r v s <;>
      rw [exec_regWrite, heq]
    · exact answers_refused _
    · exact answers_next.2 h
    · have hstatus := h.status
      exact answers_next.2 ⟨h.memory, ⟨hstatus.busy_clear, hstatus.one_result,
        hstatus.keyframe_done, hstatus.code_zero, hstatus.code_named⟩,
        ⟨h.result.size_zero, h.result.info_zero⟩, .of_idle ((busy_eq_false_iff s).1 hb)⟩

/-! ### The agents (R20) -/

theorem inv_registerAccess {s : State} (h : Inv s) (isWrite : Bool) (a : Nat) (w : AccessWidth)
    (data : Word) : Answers Inv (registerAccess isWrite a w data s) := by
  obtain ⟨_, i, -, -, -, heq⟩ | ⟨_, heq⟩ := registerAccess_cases isWrite a w data s <;> rw [heq]
  · exact inv_exec h i
  · exact answers_refused _

theorem inv_hostTurn {s : State} (h : Inv s) : Answers Inv (hostTurn s) := by
  unfold hostTurn
  cases s.world.script with
  | nil => exact answers_next.2 h
  | cons op rest =>
    have hrest : Inv (withScript rest s) := h.withScript rest
    cases op with
    | rd a w => exact inv_registerAccess hrest false a w 0
    | wr a w data => exact inv_registerAccess hrest true a w data
    | wait r mask value =>
      dsimp only
      split
      · exact inv_exec hrest _
      · exact inv_exec h _
    | waitIrq =>
      dsimp only
      split
      · exact answers_next.2 hrest
      · exact answers_next.2 h
    | mem a bs =>
      exact answers_hostAccess fun hlen =>
        answers_next.2 (hrest.withOutside _ (Memory.wf_writeList hlen hrest.memory))
    | peek a => exact answers_hostAccess fun _ => answers_next.2 (hrest.withWorld _)

theorem inv_sequencerTurn {s : State} (h : Inv s) : Answers Inv (sequencerTurn s) := by
  unfold sequencerTurn
  cases hp : s.phase with
  | idle => exact answers_next.2 h
  | check => exact inv_checkRun h hp
  | rowBegin => exact inv_rowBegin h hp
  | fetch => exact inv_fetchLine h hp
  | emit =>
    cases hc : chosenPacket s with
    | ok i => exact inv_chosenPacket h hp hc
    | error l => exact answers_fault _
  | rowEnd => exact inv_rowEnd h hp
  | finish => exact inv_finishRun h hp

theorem inv_step {s : State} (h : Inv s) : Answers Inv (step s) := by
  obtain ⟨-, heq⟩ | ⟨-, heq⟩ | ⟨-, heq⟩ := step_cases s <;> rw [heq]
  · exact inv_hostTurn h.tick
  · exact inv_sequencerTurn h.tick
  · exact answers_next.2 (inv_resetBlock h.tick)

/-- Settles O53: each agent's turn keeps the invariant, shown operation by operation. -/
theorem stepKeepsInv : Obligations.StepKeepsInv := fun _ t h => inv_step h t

end Sys2Proof.Machine
end

section
/-! PROOF. The micro-operations CHECK and ROW_END in full: what they write where they succeed (R127, R218, R219), and
how ROW_END ends where the bus refuses a byte (R266, R270). -/

namespace Sys2Proof.Machine

/-! ### CHECK passes (R127) -/

theorem checkRun_passes {s : State} {f : PixelFormat} (hf : formatRow s.cfg.fmt = some f)
    (hres : legalResolution s.cfg = true)
    (hroom : sizeBound f s.cfg.width.toNat s.cfg.height.toNat ≤ s.cfg.outCap.toNat) :
    checkRun s = .next { s with
      geom := some ⟨f.depth, f.width, f.order, tableSize f.depth s.cfg.height.toNat⟩
      dcur := some (BitVec.ofNat 32 (dataStart f.depth s.cfg.height.toNat))
      z := some 0, y := some 0, sl := [], phase := .rowBegin } := by
  obtain ⟨hnone, -⟩ | ⟨f', hf', hcase⟩ := checkRun_cases s
  · rw [hf] at hnone
    cases hnone
  · obtain rfl : f = f' := Option.some.inj (hf.symm.trans hf')
    obtain ⟨hbad, -⟩ | ⟨-, hsmall, -⟩ | ⟨-, -, heq⟩ := hcase
    · rw [hres] at hbad
      cases hbad
    · omega
    · exact heq

/-- Settles O27. -/
theorem checkPasses : Obligations.CheckPasses := by
  intro s D B hturn hp hmem hw hw' hh hh' hroom
  obtain ⟨order, hrow, hle, hbe⟩ := formatRow_of_columns hmem
  have hres := (legalResolution_iff s.cfg).2 ⟨⟨hw, hw'⟩, hh, hh'⟩
  have hroom : sizeBound ⟨D, B, order⟩ s.cfg.width.toNat s.cfg.height.toNat
      ≤ s.cfg.outCap.toNat := hroom
  have hstep : step s = checkRun (tick s) := by
    rw [step_sequencer hturn]
    simp only [sequencerTurn, tick_phase, hp]
  rw [hstep, checkRun_passes (s := tick s) hrow hres hroom]
  exact ⟨_, order, toNat_ofNat_dataStart hroom, hle, hbe, rfl⟩

/-! ### ROW_END (R218, R219) -/

/-- ROW_END with its registers held: the length entry, then `advance`. -/
theorem rowEnd_held {s : State} {g : Geometry} {z : BitVec 2} {y : BitVec 16} {d r : Word}
    (hg : s.geom = some g) (hz : s.z = some z) (hy : s.y = some y) (hd : s.dcur = some d)
    (hr : s.rstart = some r) :
    rowEnd s = storeSeq
      (outAddr s.cfg (lengthEntry g.tableBytes (tableIndex s.cfg.height.toNat z.toNat y.toNat)))
      (be32 (d - r)) s fun t => .next (advance g.depth z y { t with sl := [] }) := by
  simp only [rowEnd, hg, hz, hy, hd, hr, held_some]

/-- `advance` in the terms of its next indices and phase, where the indices are in range (R219). -/
theorem advance_eq {s : State} {depth : Nat} {z : BitVec 2} {y : BitVec 16} (hz : s.z = some z)
    (hy : s.y = some y) (hdepth : depth ≤ 4) (hheight : s.cfg.height.toNat ≤ 65535) :
    ∃ (z' : BitVec 2) (y' : BitVec 16) (ph : Phase),
      advance depth z y s = { s with z := some z', y := some y', phase := ph } ∧
      (y.toNat + 1 < s.cfg.height.toNat → z' = z ∧ y'.toNat = y.toNat + 1 ∧ ph = .rowBegin) ∧
      (¬ y.toNat + 1 < s.cfg.height.toNat → z.toNat + 1 < depth →
        z'.toNat = z.toNat + 1 ∧ y' = 0 ∧ ph = .rowBegin) ∧
      (¬ y.toNat + 1 < s.cfg.height.toNat → ¬ z.toNat + 1 < depth →
        z' = z ∧ y' = y ∧ ph = .finish) := by
  obtain ⟨hrow, heq⟩ | ⟨hrow, hchannel, heq⟩ | ⟨hrow, hchannel, heq⟩ := advance_cases depth z y s
  · refine ⟨z, BitVec.ofNat 16 (y.toNat + 1), .rowBegin, by rw [heq, hz], fun _ => ⟨rfl, ?_, rfl⟩,
      fun h => absurd hrow h, fun h => absurd hrow h⟩
    rw [BitVec.toNat_ofNat, Nat.mod_eq_of_lt (by omega)]
  · refine ⟨BitVec.ofNat 2 (z.toNat + 1), 0, .rowBegin, heq, fun h => absurd h hrow,
      fun _ _ => ⟨?_, rfl, rfl⟩, fun _ h => absurd hchannel h⟩
    rw [BitVec.toNat_ofNat, Nat.mod_eq_of_lt (by omega)]
  · exact ⟨z, y, .finish, by rw [heq, hz, hy], fun h => absurd h hrow,
      fun _ h => absurd h hchannel, fun _ _ => ⟨rfl, rfl, rfl⟩⟩

/-- Settles O30. -/
theorem rowEndWritesLength : Obligations.RowEndWritesLength := by
  intro s g z y d r hturn hp hmem hg hz hy hd hr hrd hheight hdepth a
  have hstep : step s = storeSeq a (be32 (d - r)) (tick s) fun t =>
      .next (advance g.depth z y { t with sl := [] }) := by
    rw [step_sequencer hturn]
    simp only [sequencerTurn, tick_phase, hp]
    exact rowEnd_held (s := tick s) hg hz hy hd hr
  refine ⟨d - r, BitVec.toNat_sub_of_le (BitVec.le_def.2 hrd), fun hok => ?_, fun k hk hbad => ?_⟩
  · obtain ⟨z', y', ph, heq, hnext⟩ := advance_eq (depth := g.depth) (z := z) (y := y)
      (s := { tick s with mem := Memory.writeList s.mem a (be32 (d - r)), sl := [] }) hz hy hdepth
      hheight
    refine ⟨_, z', y', ph, ?_, stores_writeList hmem hok, hnext⟩
    rw [hstep, storeSeq_of_accepts (s := tick s) (bs := be32 (d - r)) hok]
    exact congrArg Host.Outcome.next heq
  · rw [hstep]
    exact storeSeq_refused (s := tick s) (by simp [hp]) hmem hk hbad

end Sys2Proof.Machine
end

section
/-! PROOF. No rule reads a register that the run has not written (R290): two states that agree on the live registers
answer every step alike, and agree again after it. -/

namespace Sys2Proof.Machine

theorem SameLive.refl (s : State) : SameLive s s :=
  ⟨rfl, rfl, rfl, rfl, rfl, rfl, rfl, rfl, fun _ => rfl, fun _ => rfl, fun _ => rfl, fun _ => rfl,
    fun _ => rfl, fun _ => rfl, fun _ => rfl⟩

/-- Where no register is live, states that share the rest agree. -/
theorem SameLive.of_dead {s t : State} (hdead : ∀ l, live s.phase l ≠ true) (hcfg : t.cfg = s.cfg)
    (hstatus : t.status = s.status) (hsize : t.resultSize = s.resultSize)
    (hinfo : t.errInfo = s.errInfo) (hphase : t.phase = s.phase) (hmem : t.mem = s.mem)
    (hplat : t.plat = s.plat) (hworld : t.world = s.world) : SameLive s t :=
  ⟨hcfg, hstatus, hsize, hinfo, hphase, hmem, hplat, hworld, (absurd · (hdead _)),
    (absurd · (hdead _)), (absurd · (hdead _)), (absurd · (hdead _)), (absurd · (hdead _)),
    (absurd · (hdead _)), (absurd · (hdead _))⟩

/-- In EMIT every register is live. -/
theorem SameLive.eq_of_emit {s t : State} (h : SameLive s t) (hp : s.phase = .emit) : t = s := by
  have hlive : ∀ l, live s.phase l = true := fun l => by rw [hp]; rfl
  obtain ⟨hcfg, hstatus, hsize, hinfo, hphase, hmem, hplat, hworld, hz, hy, hx, hgeom, hdcur,
    hrstart, hsl⟩ := h
  cases s
  cases t
  simp only [hlive, true_implies] at *
  simp only [*]

/-- In the phases that write or read for a scanline its indices, the geometry and the cursor are live. -/
theorem SameLive.frame {s t : State} (h : SameLive s t)
    (hp : s.phase = .rowBegin ∨ s.phase = .fetch ∨ s.phase = .rowEnd) :
    t.z = s.z ∧ t.y = s.y ∧ t.geom = s.geom ∧ t.dcur = s.dcur := by
  obtain hp | hp | hp := hp <;>
    exact ⟨h.z (by rw [hp]; rfl), h.y (by rw [hp]; rfl), h.geom (by rw [hp]; rfl),
      h.dcur (by rw [hp]; rfl)⟩

/-! ### Answers that agree -/

theorem sameResult_next {s t : State} : SameResult (.next s) (.next t) ↔ SameLive s t := Iff.rfl

theorem SameResult.of_eq {r r' : Result} (h : r = r') : SameResult r r' := by
  subst h
  cases r with
  | next s => exact SameLive.refl s
  | fault | refused => rfl

theorem sameResult_held {α : Type} {r r' : Option α} {l : Latch} {k k' : α → Result}
    (hr : r' = r) (hk : ∀ v, SameResult (k v) (k' v)) :
    SameResult (held r l k) (held r' l k') := by
  subst hr
  cases r' with
  | none => rfl
  | some v => exact hk v

section
variable {s t : State}

/-- Memory and the outside world may change alike. -/
theorem SameLive.withOutside (h : SameLive s t) (m : Memory) (w : World) :
    SameLive { s with mem := m, world := w } { t with mem := m, world := w } :=
  { h with mem := rfl, world := rfl }

theorem SameLive.withMemory (h : SameLive s t) (m : Memory) :
    SameLive { s with mem := m } { t with mem := m } :=
  { h with mem := rfl }

theorem SameLive.withWorld (h : SameLive s t) (w : World) :
    SameLive { s with world := w } { t with world := w } :=
  { h with world := rfl }

theorem SameLive.withScript (h : SameLive s t) (ops : List HostOp) :
    SameLive (withScript ops s) (withScript ops t) :=
  { h with world := by simp only [Machine.withScript, h.world] }

theorem SameLive.tick (h : SameLive s t) : SameLive (tick s) (tick t) :=
  { h with world := by simp only [Machine.tick, h.world] }

/-! ### What is read of the shared registers -/

theorem SameLive.busy (h : SameLive s t) : busy t = busy s := by
  simp only [Machine.busy, h.phase]

theorem SameLive.irq (h : SameLive s t) : irq t = irq s := by
  simp only [Machine.irq, h.cfg, h.status]

theorem SameLive.nextTurn (h : SameLive s t) : nextTurn t = nextTurn s := by
  simp only [Machine.nextTurn, h.world]

theorem SameLive.regValue (h : SameLive s t) (r : Reg) : regValue r t = regValue r s := by
  cases r <;> simp only [Machine.regValue, statusWord, h.busy, h.status, h.cfg, h.resultSize, h.errInfo]

theorem SameLive.worldAfterRead (h : SameLive s t) (r : Reg) :
    worldAfterRead r t = worldAfterRead r s := by
  simp only [Machine.worldAfterRead, h.busy, h.world]

theorem SameLive.hostByte (h : SameLive s t) (a : Nat) : hostByte t a = hostByte s a := by
  simp only [Machine.hostByte, h.busy, h.cfg, h.world, h.mem]

theorem SameLive.protectedRange (h : SameLive s t) (lo hi : Nat) :
    protectedRange t lo hi = protectedRange s lo hi := by
  simp only [Machine.protectedRange, h.cfg]

theorem SameLive.memRead (h : SameLive s t) (a : Nat) : memRead t a = memRead s a := by
  simp only [Machine.memRead, blockByte, h.plat, h.world, h.mem]

theorem SameLive.memoryAfterRun (h : SameLive s t) : memoryAfterRun t = memoryAfterRun s := by
  simp only [Machine.memoryAfterRun, h.world, h.phase, h.mem, h.cfg]

/-! ### Shared operations -/

theorem SameLive.fail (h : SameLive s t) (e : ErrorKind) (info : Nat) :
    SameLive (fail e info s) (fail e info t) := by
  refine .of_dead (fun _ => Bool.false_ne_true) h.cfg rfl rfl rfl rfl h.memoryAfterRun h.plat ?_
  simp only [Machine.fail, h.cfg, h.world]

theorem SameLive.storeSeq (h : SameLive s t) {a a' : Nat} {bs : List Byte} {k k' : State → Result}
    (ha : a' = a) (hk : ∀ m, SameResult (k { s with mem := m }) (k' { t with mem := m })) :
    SameResult (storeSeq a bs s k) (storeSeq a' bs t k') := by
  have hwrites : memWriteSeq t.plat t.mem a bs = memWriteSeq s.plat s.mem a bs := by
    rw [h.plat, h.mem]
  unfold Machine.storeSeq
  rw [ha, hwrites]
  split
  · exact hk _
  · exact sameResult_next.2 ((h.withMemory _).fail _ _)

theorem SameLive.hostAccess (h : SameLive s t) {a len : Nat} {r r' : Result}
    (hr : SameResult r r') : SameResult (hostAccess a len s r) (hostAccess a len t r') := by
  simp only [Machine.hostAccess, h.plat]
  split
  · rfl
  · split
    · rfl
    · exact hr

/-- The results are cleared in both. -/
theorem SameLive.clearResults (h : SameLive s t) : SameLive (clearResults s) (clearResults t) :=
  { h with status := rfl, resultSize := rfl, errInfo := rfl }

theorem SameLive.startRun (h : SameLive s t) : SameLive (startRun s) (startRun t) := by
  refine .of_dead (fun _ => Bool.false_ne_true) h.cfg rfl rfl rfl rfl h.mem h.plat ?_
  simp only [Machine.startRun, h.world]

/-! ### The instructions -/

/-- A packet's meaning reads the registers in phase EMIT alone, where all are live. -/
theorem SameLive.packet (h : SameLive s t) {i : Instr} (hi : formatOf i ≠ .mmio32) :
    SameResult (exec i s) (exec i t) := by
  by_cases hp : s.phase = .emit
  · rw [h.eq_of_emit hp]
    exact .of_eq rfl
  · have hp' : t.phase ≠ .emit := h.phase ▸ hp
    cases i with
    | rep8 | lit8 | rep16 | lit16 =>
      simp only [exec, execRep8, execLit8, execRep16, execLit16, whenChosen, if_neg hp, if_neg hp']
      rfl
    | regRead | cmdStart | cmdClear | ctrlNop | regWrite => exact absurd rfl hi

theorem SameLive.exec (h : SameLive s t) (i : Instr) : SameResult (exec i s) (exec i t) := by
  cases i with
  | rep8 | lit8 | rep16 | lit16 => exact h.packet (by simp [formatOf])
  | regRead r =>
    simp only [exec_regRead, execRegRead, h.regValue, h.worldAfterRead]
    exact h.withWorld _
  | cmdStart clear =>
    simp only [exec_cmdStart, execCmdStart, h.busy, h.plat, h.cfg]
    split
    · exact h
    · split
      · rfl
      · cases clear
        · exact h.startRun
        · exact h.clearResults.startRun
  | cmdClear =>
    simp only [exec_cmdClear, execCmdClear, h.busy]
    split
    · exact h
    · exact h.clearResults
  | ctrlNop => exact h
  | regWrite r v =>
    simp only [exec_regWrite, execRegWrite, h.busy, h.cfg]
    split
    · rfl
    · split
      · exact h
      · exact { h with cfg := rfl }

/-! ### The micro-operations that have no encoding (R101) -/

/-- CHECK reads no register that can hold no value, and writes those that ROW_BEGIN needs (R127). -/
theorem SameLive.checkRun (h : SameLive s t) : SameResult (checkRun s) (checkRun t) := by
  simp only [Machine.checkRun, h.cfg]
  split
  · exact h.fail _ _
  · split
    · exact h.fail _ _
    · split
      · exact h.fail _ _
      · exact { h with
          cfg := rfl, phase := rfl, z := fun _ => rfl, y := fun _ => rfl, geom := fun _ => rfl
          dcur := fun _ => rfl, x := nofun, rstart := nofun, sl := nofun }

theorem SameLive.rowBegin (h : SameLive s t) (hp : s.phase = .rowBegin) :
    SameResult (rowBegin s) (rowBegin t) := by
  obtain ⟨hz, hy, hgeom, hdcur⟩ := h.frame (.inl hp)
  refine sameResult_held hz fun z => sameResult_held hy fun y => sameResult_held hdcur fun d =>
    h.storeSeq (by simp only [h.cfg]) fun m => sameResult_next.2 ?_
  exact { h with
    phase := rfl, mem := rfl, z := fun _ => hz, y := fun _ => hy, geom := fun _ => hgeom
    dcur := fun _ => hdcur, rstart := fun _ => rfl, x := nofun, sl := nofun }

theorem SameLive.fetchSamples (h : SameLive s t) (g : Geometry) (row channel count p : Nat) :
    fetchSamples g row channel t count p = fetchSamples g row channel s count p := by
  induction count generalizing p with
  | zero => rfl
  | succ n ih => simp only [Machine.fetchSamples, readSample, h.memRead, h.cfg, ih]

/-- FETCH writes `SL` and `x`, which are live from then on (R195). -/
theorem SameLive.fetchLine (h : SameLive s t) (hp : s.phase = .fetch) :
    SameResult (fetchLine s) (fetchLine t) := by
  obtain ⟨hz, hy, hgeom, hdcur⟩ := h.frame (.inr (.inl hp))
  have hrstart := h.rstart (by rw [hp]; rfl)
  refine sameResult_held hz fun z => sameResult_held hy fun y => sameResult_held hgeom fun g => ?_
  simp only [h.cfg, h.fetchSamples]
  split
  · rename_i vs bad _
    have hsl : SameLive { s with sl := vs } { t with cfg := s.cfg, sl := vs } :=
      { h with cfg := rfl, sl := fun _ => rfl }
    exact sameResult_next.2 (hsl.fail _ _)
  · exact { h with
      cfg := rfl, phase := rfl, z := fun _ => hz, y := fun _ => hy, geom := fun _ => hgeom
      dcur := fun _ => hdcur, rstart := fun _ => hrstart, x := fun _ => rfl, sl := fun _ => rfl }

theorem SameLive.rowEnd (h : SameLive s t) (hp : s.phase = .rowEnd) :
    SameResult (rowEnd s) (rowEnd t) := by
  obtain ⟨hz, hy, hgeom, hdcur⟩ := h.frame (.inr (.inr hp))
  have hrstart := h.rstart (by rw [hp]; rfl)
  refine sameResult_held hz fun z => sameResult_held hy fun y => sameResult_held hgeom fun g =>
    sameResult_held hdcur fun d => sameResult_held hrstart fun r =>
      h.storeSeq (by simp only [h.cfg]) fun m => sameResult_next.2 ?_
  simp only [advance, h.cfg]
  split
  · exact { h with
      cfg := rfl, phase := rfl, mem := rfl, z := fun _ => hz, y := fun _ => rfl, geom := fun _ => hgeom
      dcur := fun _ => hdcur, rstart := nofun, x := nofun, sl := nofun }
  · split
    · exact { h with
        cfg := rfl, phase := rfl, mem := rfl, z := fun _ => rfl, y := fun _ => rfl, geom := fun _ => hgeom
        dcur := fun _ => hdcur, rstart := nofun, x := nofun, sl := nofun }
    · exact { h with
        cfg := rfl, phase := rfl, mem := rfl, z := nofun, y := nofun, geom := nofun
        dcur := fun _ => hdcur, rstart := nofun, x := nofun, sl := nofun }

theorem SameLive.finishRun (h : SameLive s t) (hp : s.phase = .finish) :
    SameResult (finishRun s) (finishRun t) := by
  refine sameResult_held (h.dcur (by rw [hp]; rfl)) fun d => sameResult_next.2 ?_
  refine .of_dead (fun _ => Bool.false_ne_true) h.cfg rfl rfl h.errInfo rfl h.memoryAfterRun h.plat ?_
  simp only [h.cfg, h.world]

/-! ### The agents (R20, R291) -/

theorem SameLive.registerAccess (h : SameLive s t) (isWrite : Bool) (a : Nat) (w : AccessWidth)
    (data : Word) :
    SameResult (registerAccess isWrite a w data s) (registerAccess isWrite a w data t) := by
  simp only [Machine.registerAccess, h.plat]
  split
  · rfl
  · split
    · split
      · exact h.exec _
      · rfl
    · rfl

theorem SameLive.hostTurn (h : SameLive s t) : SameResult (hostTurn s) (hostTurn t) := by
  unfold Machine.hostTurn
  rw [h.world]
  cases s.world.script with
  | nil => exact h
  | cons op rest =>
    have hrest := h.withScript rest
    cases op with
    | rd a w => exact hrest.registerAccess false a w 0
    | wr a w data => exact hrest.registerAccess true a w data
    | wait r mask value =>
      simp only [h.regValue]
      split
      · exact hrest.exec _
      · exact h.exec _
    | waitIrq =>
      simp only [h.irq]
      split
      · exact hrest
      · exact h
    | mem a bs =>
      simp only [hostWrite, hrest.busy, hrest.protectedRange, hrest.mem, hrest.world]
      exact hrest.hostAccess (hrest.withOutside _ _)
    | peek a =>
      simp only [hostRead, hrest.hostByte, hrest.world]
      exact hrest.hostAccess (hrest.withWorld _)

/-- The write a reset abandons is made from live registers (R292). -/
theorem SameLive.pendingWrite (h : SameLive s t) : pendingWrite t = pendingWrite s := by
  cases hp : s.phase with
  | idle | check | fetch | finish => simp only [Machine.pendingWrite, h.phase, hp]
  | rowBegin =>
    obtain ⟨hz, hy, -, hdcur⟩ := h.frame (.inl hp)
    simp only [Machine.pendingWrite, h.phase, hp, h.cfg, hz, hy, hdcur]
  | rowEnd =>
    obtain ⟨hz, hy, hgeom, hdcur⟩ := h.frame (.inr (.inr hp))
    simp only [Machine.pendingWrite, h.phase, hp, h.cfg, hz, hy, hgeom, hdcur,
      h.rstart (by rw [hp]; rfl)]
  | emit => rw [h.eq_of_emit hp]

theorem SameLive.resetBlock (h : SameLive s t) : SameLive (resetBlock s) (resetBlock t) := by
  have habandon : memoryAfterAbandon t = memoryAfterAbandon s := by
    simp only [memoryAfterAbandon, h.pendingWrite, h.plat, h.mem, h.world]
  refine .of_dead (fun _ => Bool.false_ne_true) rfl rfl rfl rfl rfl ?_ h.plat ?_
  · simp only [resetBlock_mem, memoryAfterReset, h.busy, habandon,
      (h.withMemory (memoryAfterAbandon s)).memoryAfterRun, h.mem]
  · simp only [resetBlock_world, h.busy, h.cfg, h.world]

theorem SameLive.sequencerTurn (h : SameLive s t) :
    SameResult (sequencerTurn s) (sequencerTurn t) := by
  unfold Machine.sequencerTurn
  rw [h.phase]
  cases hp : s.phase with
  | idle => exact h
  | check => exact h.checkRun
  | rowBegin => exact h.rowBegin hp
  | fetch => exact h.fetchLine hp
  | emit => rw [h.eq_of_emit hp]; exact .of_eq rfl
  | rowEnd => exact h.rowEnd hp
  | finish => exact h.finishRun hp

theorem SameLive.step (h : SameLive s t) : SameResult (step s) (step t) := by
  unfold Machine.step
  rw [h.nextTurn]
  cases Machine.nextTurn s with
  | host => exact h.tick.hostTurn
  | sequencer => exact h.tick.sequencerTurn
  | reset => exact h.tick.resetBlock

end

/-- Settles O57: each agent's turn reads live registers alone, shown operation by operation. -/
theorem unwrittenRegistersUnread : Obligations.UnwrittenRegistersUnread :=
  fun _ _ h => h.step

end Sys2Proof.Machine
end

section
/-! PROOF. What the sequencer writes of memory (R60, R64): the chosen packet as the emitter performs it (R176, R177), and
the addresses of every micro-operation's write. -/

namespace Sys2Proof.Machine

/-! ### The micro-operation of each phase (R33) -/

section
variable {s : State}

theorem sequencerTurn_check (hp : s.phase = .check) : sequencerTurn s = checkRun s := by
  simp only [sequencerTurn, hp]

theorem sequencerTurn_rowBegin (hp : s.phase = .rowBegin) : sequencerTurn s = rowBegin s := by
  simp only [sequencerTurn, hp]

theorem sequencerTurn_fetch (hp : s.phase = .fetch) : sequencerTurn s = fetchLine s := by
  simp only [sequencerTurn, hp]

theorem sequencerTurn_emit {i : Instr} (hp : s.phase = .emit) (hc : chosenPacket s = .ok i) :
    sequencerTurn s = exec i s := by
  simp only [sequencerTurn, hp, hc]

theorem sequencerTurn_rowEnd (hp : s.phase = .rowEnd) : sequencerTurn s = rowEnd s := by
  simp only [sequencerTurn, hp]

theorem sequencerTurn_finish (hp : s.phase = .finish) : sequencerTurn s = finishRun s := by
  simp only [sequencerTurn, hp]

end

/-! ### The chosen packet writes its encoding (R174, R176, R177) -/

/-- The count field of a packet holds every count the detector answers (R91). -/
theorem toNat_ofNat_count {n : Nat} (hn : n ≤ 127) : (BitVec.ofNat 7 n).toNat = n := by
  rw [BitVec.toNat_ofNat, Nat.mod_eq_of_lt (by omega)]

/-- The bytes of a packet's elements: the control element and one sample, or all of them (R92, R93). -/
theorem encode_packetOf_length {w : ElementWidth} {n : Nat} {vs : List Half} (hvs : vs.length = n)
    (k : RunKind) (v : Half) :
    (encode (packetOf w k n v vs)).length
      = match k with
        | .rep => 2 * elementBytes w
        | .lit => (1 + n) * elementBytes w := by
  cases w <;> cases k
  · rfl
  · simp [packetOf, encode, flatMap_put_length .one, hvs]
  · rfl
  · have := flatMap_put_length .two id vs
    simp only [id] at this
    simp [packetOf, encode, this, hvs, Nat.add_mul]

/-- The meaning of a packet the detector chose is the emission of its encoding. -/
theorem exec_packetOf_eq {s : State} {w : ElementWidth} {k : RunKind} {n : Nat} {v : Half}
    {vs : List Half} {d : Word} {x : BitVec 16} (hn : n ≤ 127) (hvs : vs.length = n)
    (hp : s.phase = .emit) (hc : chosenPacket s = .ok (packetOf w k n v vs))
    (hd : s.dcur = some d) (hx : s.x = some x) :
    exec (packetOf w k n v vs) s
      = emitBytes (encode (packetOf w k n v vs)) (encode (packetOf w k n v vs)).length n d x s := by
  rw [encode_packetOf_length hvs]
  have hcount := toNat_ofNat_count hn
  cases w <;> cases k <;> refine (whenChosen_of_chosen hp hc).trans ?_
  · simp only [emitRepeat, hd, hx, held_some, hcount]
    rfl
  · simp only [emitLiteral, hd, hx, held_some, hcount, packetOf, encode, List.flatMap_map]
  · simp only [emitRepeat, hd, hx, held_some, hcount]
    rfl
  · simp only [emitLiteral, hd, hx, held_some, hcount]
    rfl

section
variable {p : ScanPolicy} {sl : List Half} {w : ElementWidth} {width x : Nat} {i : Instr}

/-- The packet at a position, with the facts its emission needs: its count lies in the scanline and its samples
are as many. -/
theorem packetAt_cases (h : packetAt p sl w width x = some i) :
    let n := (detect p sl w width x).2
    1 ≤ n ∧ n ≤ 127 ∧ x + n ≤ width ∧ ∃ k v vs, vs.length = n ∧ i = packetOf w k n v vs := by
  obtain ⟨hlt, hle, v, -, rfl⟩ := packetAt_some h
  obtain ⟨hpos, hlim, -⟩ := detect_bounds p sl w hlt
  obtain ⟨hmax, hrest⟩ := runLimit_le width x
  have h127 : Config.maxRun = 127 := rfl
  have hlen : ((sl.drop x).take (detect p sl w width x).2).length = (detect p sl w width x).2 := by
    rw [List.length_take, List.length_drop]
    omega
  exact ⟨hpos, by omega, by omega, _, v, _, hlen, rfl⟩

/-- A packet of `n` samples takes between `2*B` and `2*B*n` bytes (R128, R130). -/
theorem packetAt_length_bounds (h : packetAt p sl w width x = some i) :
    2 * elementBytes w ≤ (encode i).length ∧
      (encode i).length ≤ 2 * elementBytes w * (detect p sl w width x).2 := by
  obtain ⟨hpos, -, -, k, v, vs, hvs, rfl⟩ := packetAt_cases h
  rw [encode_packetOf_length hvs]
  cases k with
  | rep => exact ⟨Nat.le_refl _, Nat.le_mul_of_pos_right _ hpos⟩
  | lit =>
    dsimp only
    rw [Nat.mul_right_comm]
    exact ⟨Nat.mul_le_mul_right _ (by omega), Nat.mul_le_mul_right _ (by omega)⟩

end

/-- The meaning of the packet chosen now: its encoding is emitted, and the position moves by its count. -/
theorem exec_chosen_eq {s : State} {i : Instr} {g : Geometry} {d : Word} {x : BitVec 16}
    (hp : s.phase = .emit) (hg : s.geom = some g) (hd : s.dcur = some d) (hx : s.x = some x)
    (hc : chosenPacket s = .ok i) :
    exec i s = emitBytes (encode i) (encode i).length
      (detect s.plat.policy s.sl g.width s.cfg.width.toNat x.toNat).2 d x s := by
  obtain ⟨g', x', hg', hx', hpacket⟩ := chosenPacket_ok hc
  obtain rfl : g = g' := Option.some.inj (hg.symm.trans hg')
  obtain rfl : x = x' := Option.some.inj (hx.symm.trans hx')
  obtain ⟨-, hmax, -, k, v, vs, hvs, rfl⟩ := packetAt_cases hpacket
  exact exec_packetOf_eq hmax hvs hp hc hd hx

/-! ### The block writes only output bytes past the header (R60, R64) -/

/-- Memory changed at most in the output bytes past the header. -/
def OnlyOutput (s t : State) : Prop :=
  ∀ a, inOutput s.cfg a = false → Memory.read t.mem a = Memory.read s.mem a

theorem inOutput_iff (c : ConfigRegs) (a : Nat) :
    inOutput c a = true ↔
      c.outBase.toNat + 512 ≤ a ∧ a < c.outBase.toNat + c.outCap.toNat := by
  rw [inOutput, Bool.and_eq_true, decide_eq_true_iff, decide_eq_true_iff]
  rfl

theorem OnlyOutput.of_mem_eq {s t : State} (h : t.mem = s.mem) : OnlyOutput s t :=
  fun a _ => by rw [h]

section
variable {s u : State}

/-- What an end of the run after a write does to memory lies in the output. -/
theorem OnlyOutput.afterRun (h : OnlyOutput s u) (hw : Memory.wf u.mem) (hcfg : u.cfg = s.cfg)
    {t : State} (ht : t.mem = memoryAfterRun u) : OnlyOutput s t := by
  intro a ha
  rw [ht, read_memoryAfterRun hw, hcfg, if_neg (by simp [ha])]
  exact h a ha

theorem onlyOutput_fail (hw : Memory.wf s.mem) (e : ErrorKind) (info : Nat) :
    OnlyOutput s (fail e info s) :=
  (OnlyOutput.of_mem_eq (s := s) rfl).afterRun hw rfl rfl

/-- Bytes stored past the header and below the capacity. -/
theorem onlyOutput_stores {o : Nat} {bs : List Byte} (h : stores s.mem u.mem (outAddr s.cfg o) bs)
    (hlo : 512 ≤ o) (hhi : o + bs.length ≤ s.cfg.outCap.toNat) : OnlyOutput s u := by
  intro a ha
  refine h.2 a fun hin => ?_
  simp only [outAddr] at hin
  rw [(inOutput_iff _ _).2 (by omega)] at ha
  cases ha

/-- A write to the output, where the rest of the rule writes no memory. -/
theorem onlyOutput_storeSeq {o : Nat} {bs : List Byte} {k : State → Result} (hw : Memory.wf s.mem)
    (hlo : 512 ≤ o) (hhi : o + bs.length ≤ s.cfg.outCap.toNat)
    (hk : ∀ v, Answers (fun t => t.mem = v.mem) (k v)) :
    Answers (OnlyOutput s) (storeSeq (outAddr s.cfg o) bs s k) := by
  obtain ⟨heq, hok⟩ | ⟨j, hj, heq, -, hok⟩ := storeSeq_cases (outAddr s.cfg o) bs s k <;> rw [heq]
  · intro t ht
    refine onlyOutput_stores (o := o) (bs := bs) ?_ hlo hhi
    rw [hk _ t ht]
    exact stores_writeList hw hok
  · have hlen : (bs.take j).length = j := by simp; omega
    have hok : acceptsWrites s.plat (outAddr s.cfg o) (bs.take j).length := by rwa [hlen]
    have hwrite : OnlyOutput s { s with mem := Memory.writeList s.mem (outAddr s.cfg o) (bs.take j) } :=
      onlyOutput_stores (stores_writeList hw hok) hlo (by omega)
    exact answers_next.2 (hwrite.afterRun (wf_writeList_of_accepts hw hok) rfl rfl)

/-- The entries of both tables and the pixel data lie in the output of a legal frame (R62, R211). -/
theorem FrameLegal.entries {f : PixelFormat} {z : BitVec 2} {y : BitVec 16} {d : Word}
    (h : FrameLegal s f z y d) :
    let i := tableIndex s.cfg.height.toNat z.toNat y.toNat
    i < f.depth * s.cfg.height.toNat ∧ offsetEntry i + 4 ≤ s.cfg.outCap.toNat ∧
      lengthEntry (tableSize f.depth s.cfg.height.toNat) i + 4 ≤ s.cfg.outCap.toNat := by
  have hi : tableIndex s.cfg.height.toNat z.toNat y.toNat < f.depth * s.cfg.height.toNat := by
    have hnext : (z.toNat + 1) * s.cfg.height.toNat ≤ f.depth * s.cfg.height.toNat :=
      Nat.mul_le_mul_right _ h.z_lt
    have := h.y_lt
    rw [Nat.succ_mul] at hnext
    unfold tableIndex
    omega
  have hroom := (dataStart_le_sizeBound f s.cfg.width.toNat s.cfg.height.toNat).trans h.room
  rw [dataStart_eq, Nat.mul_assoc] at hroom
  simp only [offsetEntry, lengthEntry, tableSize, Config.headerBytes, Config.entryBytes,
    Nat.mul_assoc 4]
  exact ⟨hi, by omega, by omega⟩

end

section
variable {s : State} (h : Inv s)
include h

theorem onlyOutput_rowBegin (hp : s.phase = .rowBegin) : Answers (OnlyOutput s) (rowBegin s) := by
  obtain ⟨f, z, y, d, hf, -⟩ := h.run.frame (by simp [hp]) (by simp [hp])
  obtain ⟨-, hentry, -⟩ := hf.entries
  simp only [rowBegin, hf.z_held, hf.y_held, hf.dcur_held, held_some]
  exact onlyOutput_storeSeq h.memory (Nat.le_add_right _ _) hentry fun v => answers_next.2 rfl

theorem onlyOutput_fetchLine : Answers (OnlyOutput s) (fetchLine s) := by
  intro t ht
  obtain ⟨z, -, ht⟩ := held_next ht
  obtain ⟨y, -, ht⟩ := held_next ht
  obtain ⟨g, -, ht⟩ := held_next ht
  dsimp only at ht
  split at ht
  · rename_i vs bad _
    cases ht
    exact (OnlyOutput.of_mem_eq (t := { s with sl := vs }) rfl).afterRun h.memory rfl rfl
  · cases ht
    exact .of_mem_eq rfl

theorem onlyOutput_chosenPacket {i : Instr} (hp : s.phase = .emit) (hc : chosenPacket s = .ok i) :
    Answers (OnlyOutput s) (exec i s) := by
  obtain ⟨f, z, y, d, hf, hl⟩ := h.run.frame (by simp [hp]) (by simp [hp])
  obtain ⟨r, x, hline, hemit⟩ := (phaseLegal_emit hp).1 hl
  have hd : 512 ≤ d.toNat := by
    have hfloor := hline.floor
    have hleast := hemit.least
    have hstart := dataStart_eq f.depth s.cfg.height.toNat
    rw [lineFloor] at hfloor
    split at hleast
    · subst hleast; omega
    · omega
  rw [exec_chosen_eq hp hf.geometry hf.dcur_held hemit.x_held hc]
  obtain ⟨-, heq⟩ | ⟨hroom, heq⟩ := emitBytes_cases (encode i) (encode i).length
    (detect s.plat.policy s.sl f.width s.cfg.width.toNat x.toNat).2 d x s <;> rw [heq]
  · exact answers_next.2 (onlyOutput_fail h.memory _ _)
  · have hroom : ¬ s.cfg.outCap.toNat - d.toNat < (encode i).length := by
      simpa [exhausted] using hroom
    have hpos : 1 ≤ (encode i).length := by
      obtain ⟨g, x', -, -, hpacket⟩ := chosenPacket_ok hc
      have := (packetAt_length_bounds hpacket).1
      have := elementBytes_pos g.width
      omega
    exact onlyOutput_storeSeq h.memory hd (by omega) fun v => answers_next.2 rfl

theorem onlyOutput_rowEnd (hp : s.phase = .rowEnd) : Answers (OnlyOutput s) (rowEnd s) := by
  obtain ⟨f, z, y, d, hf, hl⟩ := h.run.frame (by simp [hp]) (by simp [hp])
  obtain ⟨-, r, hline, -⟩ := (phaseLegal_rowEnd hp).1 hl
  obtain ⟨-, -, hentry⟩ := hf.entries
  rw [rowEnd_held hf.geometry hf.z_held hf.y_held hf.dcur_held hline.rstart_held]
  refine onlyOutput_storeSeq h.memory ?_ hentry fun v => answers_next.2 ?_
  · rw [lengthEntry, Nat.add_assoc]
    exact Nat.le_add_right _ _
  · obtain ⟨-, heq⟩ | ⟨-, -, heq⟩ | ⟨-, -, heq⟩ := advance_cases f.depth z y { v with sl := [] } <;>
      rw [heq]

theorem onlyOutput_sequencerTurn : Answers (OnlyOutput s) (sequencerTurn s) := by
  unfold sequencerTurn
  cases hp : s.phase with
  | idle => exact answers_next.2 (.of_mem_eq rfl)
  | check =>
    obtain ⟨-, heq⟩ | ⟨f, -, ⟨-, heq⟩ | ⟨-, -, heq⟩ | ⟨-, -, heq⟩⟩ := checkRun_cases s <;>
      rw [heq, answers_next]
    · exact onlyOutput_fail h.memory _ _
    · exact onlyOutput_fail h.memory _ _
    · exact onlyOutput_fail h.memory _ _
    · exact .of_mem_eq rfl
  | rowBegin => exact onlyOutput_rowBegin h hp
  | fetch => exact onlyOutput_fetchLine h
  | emit =>
    cases hc : chosenPacket s with
    | ok i => exact onlyOutput_chosenPacket h hp hc
    | error l => exact answers_fault _
  | rowEnd => exact onlyOutput_rowEnd h hp
  | finish =>
    intro t ht
    obtain ⟨d, -, ht⟩ := held_next ht
    cases ht
    exact (OnlyOutput.of_mem_eq (s := s) rfl).afterRun h.memory rfl rfl

end

/-- Settles O56: each micro-operation writes an entry, a packet or nothing, and the end of a run writes the output. -/
theorem blockWritesOnlyOutput : Obligations.BlockWritesOnlyOutput := by
  intro s t h hturn hstep a ha
  rw [step_sequencer hturn] at hstep
  refine onlyOutput_sequencerTurn h.tick t hstep a ?_
  rw [← Bool.not_eq_true, inOutput_iff]
  exact ha

end Sys2Proof.Machine
end

section
/-! PROOF. FETCH reads the samples of one scanline (R190-R192, R195). -/

namespace Sys2Proof.Machine

/-- The sample the block finds at an address, each of its bytes as the block finds it (R192). -/
def blockSample (s : State) (w : ElementWidth) (o : ByteOrder) (a : Nat) : Half :=
  match w with
  | .one => (blockByte s a).setWidth 16
  | .two => assemble o (blockByte s a) (blockByte s (a + 1))

theorem memRead_of_accepts {s : State} {a : Nat} (h : accepts s.plat .read a = true) :
    memRead s a = .ok (blockByte s a) := by
  rw [memRead, if_pos h]

theorem readSample_of_accepts {s : State} {w : ElementWidth} {a : Nat} (o : ByteOrder)
    (h : ∀ k < elementBytes w, accepts s.plat .read (a + k) = true) :
    readSample w o a s = .ok (blockSample s w o a) := by
  have h0 : memRead s a = .ok (blockByte s a) := memRead_of_accepts (h 0 (elementBytes_pos w).1)
  cases w with
  | one => simp only [readSample, h0, blockSample]
  | two =>
    have h1 := memRead_of_accepts (h 1 (by decide))
    simp only [readSample, h0, h1, blockSample]

/-- Where every source byte is accepted FETCH's loop reads all samples, in pixel order. -/
theorem fetchSamples_of_accepts {g : Geometry} {row channel : Nat} {s : State} {count p : Nat}
    (h : ∀ q, p ≤ q → q < p + count → ∀ k < elementBytes g.width,
      accepts s.plat .read (srcAddr s.cfg g.depth g.width row q channel + k) = true) :
    fetchSamples g row channel s count p
      = ((List.range' p count).map fun q =>
          blockSample s g.width g.order (srcAddr s.cfg g.depth g.width row q channel), none) := by
  induction count generalizing p with
  | zero => rfl
  | succ n ih =>
    have hfirst := readSample_of_accepts g.order (h p (Nat.le_refl _) (by omega))
    have hrest := ih (p := p + 1) fun q hq hq' => h q (by omega) (by omega)
    simp only [fetchSamples, hfirst, hrest, List.range'_succ, List.map_cons]

/-- FETCH where every source byte is accepted (R195). -/
theorem fetchLine_of_accepts {s : State} {g : Geometry} {z : BitVec 2} {y : BitVec 16}
    (hz : s.z = some z) (hy : s.y = some y) (hg : s.geom = some g)
    (h : ∀ p < s.cfg.width.toNat, ∀ k < elementBytes g.width, accepts s.plat .read
      (srcAddr s.cfg g.depth g.width (sourceRow s.cfg.height.toNat y.toNat) p z.toNat + k) = true) :
    fetchLine s = .next { s with
      sl := (List.range s.cfg.width.toNat).map fun p => blockSample s g.width g.order
        (srcAddr s.cfg g.depth g.width (sourceRow s.cfg.height.toNat y.toNat) p z.toNat)
      x := some 0, phase := .emit } := by
  have hall := fetchSamples_of_accepts (p := 0) (count := s.cfg.width.toNat)
    fun q _ hq => h q (by omega)
  simp only [fetchLine, hz, hy, hg, held_some, hall, List.range_eq_range']

/-- Where the host has kept R77 the block finds the sample that memory holds. -/
theorem blockSample_toNat {s : State} (hd : s.world.disturbed = false) (w : ElementWidth)
    (o : ByteOrder) (a : Nat) :
    (blockSample s w o a).toNat = sampleValue w o s.mem a := by
  have hbyte : ∀ b, blockByte s b = Memory.read s.mem b := fun b => by
    rw [blockByte, hd, if_neg Bool.false_ne_true]
  have happend : ∀ hi lo : Byte, (hi ++ lo).toNat = 256 * hi.toNat + lo.toNat := fun hi lo => by
    have := lo.isLt
    rw [BitVec.toNat_append, Nat.shiftLeft_eq, Nat.mul_comm,
      ← Nat.two_pow_add_eq_or_of_lt this]
  cases w with
  | one =>
    have := (Memory.read s.mem a).isLt
    simp only [blockSample, sampleValue, hbyte, BitVec.toNat_setWidth]
    omega
  | two =>
    cases o with
    | be => simp only [blockSample, sampleValue, hbyte, assemble, happend]
    | le => simp only [blockSample, sampleValue, hbyte, assemble, happend]

/-- Settles O31: the loop reads every sample, each of them what memory holds where the host has kept R77. -/
theorem fetchReadsScanline : Obligations.FetchReadsScanline := by
  intro s g z y hturn hp hg hz hy row addr hok
  have hstep : step s = fetchLine (tick s) :=
    (step_sequencer hturn).trans (sequencerTurn_fetch (s := tick s) hp)
  refine ⟨(List.range s.cfg.width.toNat).map fun p => blockSample (tick s) g.width g.order (addr p),
    hstep.trans (fetchLine_of_accepts (s := tick s) hz hy hg hok), ?_, fun hd p hlt => ?_⟩
  · rw [List.length_map, List.length_range]
  · refine ⟨blockSample (tick s) g.width g.order (addr p), ?_,
      blockSample_toNat (s := tick s) hd g.width g.order (addr p)⟩
    rw [List.getElem?_map, List.getElem?_range hlt]
    rfl

end Sys2Proof.Machine
end

section
/-! PROOF. Which launches and which register accesses are refused (R70, R78), in terms of addresses. -/

namespace Sys2Proof.Machine

/-! ### The source bytes of a row (R190) -/

/-- A number below a product, as a quotient and a remainder. -/
theorem lt_mul_iff_exists_digits {n a b : Nat} :
    n < a * b ↔ ∃ i < a, ∃ j < b, n = i * b + j := by
  constructor
  · intro h
    have hb : 0 < b := Nat.pos_of_ne_zero (by rintro rfl; simp at h)
    exact ⟨n / b, Nat.div_lt_of_lt_mul (by rwa [Nat.mul_comm]), n % b, Nat.mod_lt _ hb,
      (Nat.div_add_mod' n b).symm⟩
  · rintro ⟨i, hi, j, hj, rfl⟩
    calc i * b + j < (i + 1) * b := by rw [Nat.succ_mul]; omega
      _ ≤ a * b := Nat.mul_le_mul_right b hi

/-- The source bytes of all channels of a row are the bytes from its address on. -/
theorem sourceByte_row_iff (c : ConfigRegs) (f : PixelFormat) (row a : Nat) :
    (∃ channel < f.depth, isSourceByte c f row channel a) ↔
      rowAddr c row ≤ a ∧ a < rowAddr c row + rowBytes f c.width.toNat := by
  constructor
  · rintro ⟨channel, hchannel, p, hp, k, hk, rfl⟩
    have hsample : p * f.depth + channel < c.width.toNat * f.depth :=
      lt_mul_iff_exists_digits.2 ⟨p, hp, channel, hchannel, rfl⟩
    have hbyte : (p * f.depth + channel) * elementBytes f.width + k
        < c.width.toNat * f.depth * elementBytes f.width :=
      lt_mul_iff_exists_digits.2 ⟨_, hsample, k, hk, rfl⟩
    simp only [srcAddr, rowBytes]
    omega
  · rintro ⟨hle, hlt⟩
    have hbyte : a - rowAddr c row < c.width.toNat * f.depth * elementBytes f.width := by
      rw [rowBytes] at hlt
      omega
    obtain ⟨q, hq, k, hk, hoff⟩ := lt_mul_iff_exists_digits.1 hbyte
    obtain ⟨p, hp, channel, hchannel, rfl⟩ := lt_mul_iff_exists_digits.1 hq
    exact ⟨channel, hchannel, p, hp, k, hk, by rw [srcAddr]; omega⟩

/-- Some row of the source meets a range where a frame byte that exists lies in it. -/
theorem someRowMeets_iff_frameByte (c : ConfigRegs) (f : PixelFormat) (lo hi : Nat) :
    someRowMeets c f lo hi c.height.toNat = true ↔
      ∃ a < 2 ^ 32, isFrameByte c f a ∧ lo ≤ a ∧ a < hi := by
  simp only [someRowMeets_iff, rangesMeet_iff, isFrameByte, sourceByte_row_iff]
  constructor
  · rintro ⟨row, hrow, a, ha, hsource, hrange⟩
    exact ⟨a, ha, ⟨row, hrow, hsource⟩, hrange⟩
  · rintro ⟨a, ha, ⟨row, hrow, hsource⟩, hrange⟩
    exact ⟨row, hrow, a, ha, hsource, hrange⟩

/-! ### The launch rule (R78) -/

theorem sourceInOutput_iff (c : ConfigRegs) :
    sourceInOutput c = true ↔ ∃ f, legalFormat c = some f ∧
      sizeBound f c.width.toNat c.height.toNat ≤ c.outCap.toNat ∧
      ∃ a < 2 ^ 32, isFrameByte c f a ∧ c.outBase.toNat + 512 ≤ a ∧
        a < c.outBase.toNat + sizeBound f c.width.toNat c.height.toNat := by
  unfold sourceInOutput
  cases legalFormat c with
  | none => simp
  | some f =>
    simp only [Bool.and_eq_true, decide_eq_true_iff, someRowMeets_iff_frameByte,
      Option.some.injEq, exists_eq_left']
    rfl

theorem windowInBuffer_iff (p : Platform) (c : ConfigRegs) :
    windowInBuffer p c = true ↔ ∃ a < 2 ^ 32, inWindow p a ∧
      ((c.outBase.toNat ≤ a ∧ a < c.outBase.toNat + c.outCap.toNat) ∨
        ∃ f, legalFormat c = some f ∧ isFrameByte c f a) := by
  have hout : rangesMeet c.outBase.toNat (outAddr c c.outCap.toNat) p.regBase.toNat (windowEnd p) = true ↔
      ∃ a < 2 ^ 32, (c.outBase.toNat ≤ a ∧ a < c.outBase.toNat + c.outCap.toNat) ∧ inWindow p a :=
    rangesMeet_iff _ _ _ _
  unfold windowInBuffer
  rw [Bool.or_eq_true, hout]
  cases legalFormat c with
  | none => simp [and_comm]
  | some f =>
    simp only [someRowMeets_iff_frameByte, Option.some.injEq, exists_eq_left', inWindow]
    constructor
    · rintro (⟨a, ha, hbuffer, hwin⟩ | ⟨a, ha, hframe, hwin⟩)
      · exact ⟨a, ha, hwin, .inl hbuffer⟩
      · exact ⟨a, ha, hwin, .inr hframe⟩
    · rintro ⟨a, ha, hwin, hbuffer | hframe⟩
      · exact .inl ⟨a, ha, hbuffer, hwin⟩
      · exact .inr ⟨a, ha, hframe, hwin⟩

theorem execCmdStart_refused_iff {s : State} (hb : busy s = false) (clear : Bool) :
    execCmdStart clear s = .refused .overlappingLaunch ↔ launchOverlaps s.plat s.cfg = true := by
  obtain ⟨hbusy, -⟩ | ⟨-, hover, heq⟩ | ⟨-, hover, heq⟩ := execCmdStart_cases clear s
  · rw [hb] at hbusy
    cases hbusy
  · simp [heq, hover]
  · simp [heq, hover]

/-- Settles O20: the launch rule's ranges of addresses, each as the addresses in it. -/
theorem overlappingLaunchRefused : Obligations.OverlappingLaunchRefused := by
  intro clear s hb
  rw [exec_cmdStart, execCmdStart_refused_iff hb, launchOverlaps_iff, sourceInOutput_iff,
    windowInBuffer_iff]
  constructor
  · rintro (⟨f, hf, hroom, a, ha, hframe, hout⟩ | ⟨a, ha, hwin, hout | ⟨f, hf, hframe⟩⟩)
    · exact ⟨a, ha, .inr ⟨f, hf, hframe, .inr ⟨hroom, hout⟩⟩⟩
    · exact ⟨a, ha, .inl ⟨hwin, hout⟩⟩
    · exact ⟨a, ha, .inr ⟨f, hf, hframe, .inl hwin⟩⟩
  · rintro ⟨a, ha, ⟨hwin, hout⟩ | ⟨f, hf, hframe, hwin | ⟨hroom, hout⟩⟩⟩
    · exact .inr ⟨a, ha, hwin, .inl hout⟩
    · exact .inr ⟨a, ha, hwin, .inr ⟨f, hf, hframe⟩⟩
    · exact .inl ⟨f, hf, hroom, a, ha, hframe, hout⟩

/-! ### Register accesses (R70) -/

theorem windowOffset_of_inWindow {p : Platform} {a : Nat} (h : inWindow p a) :
    ∃ off, windowOffset p a = some off ∧ off.toNat = a - p.regBase.toNat := by
  have h64 : windowEnd p = p.regBase.toNat + 64 := rfl
  obtain ⟨hlo, hhi⟩ := h
  refine ⟨BitVec.ofNat 6 (a - p.regBase.toNat), if_pos ⟨hlo, hhi⟩, ?_⟩
  rw [BitVec.toNat_ofNat, Nat.mod_eq_of_lt (by omega)]

/-- Another width has no key, and a misaligned offset has one that stands for nothing. -/
theorem registerAccess_refused {isWrite : Bool} {a : Nat} {w : AccessWidth} {data : Word} {s : State}
    (hin : inWindow s.plat a) (h : w ≠ .word ∨ (a - s.plat.regBase.toNat) % 4 ≠ 0) :
    ∃ r, registerAccess isWrite a w data s = .refused r := by
  obtain ⟨off, hoff, htoNat⟩ := windowOffset_of_inWindow hin
  obtain ⟨off', i, hoff', rfl, hkey, -⟩ | hrefused := registerAccess_cases isWrite a w data s
  · obtain rfl : off = off' := Option.some.inj (hoff.symm.trans hoff')
    have hmis := h.resolve_left (fun hw => hw rfl)
    rw [← htoNat] at hmis
    rw [decodeKey_misaligned ((ofOffset_eq_none_iff off).2 hmis)] at hkey
    cases hkey
  · exact hrefused

/-- Settles O21: such an access has no key, or a key at a misaligned offset. -/
theorem otherAccessesRefused : Obligations.OtherAccessesRefused := by
  intro s a w data rest hturn hin h
  rw [step_host hturn]
  constructor <;> intro hscript <;> simp only [hostTurn, tick_script, hscript]
  · exact registerAccess_refused hin h
  · exact registerAccess_refused hin h

end Sys2Proof.Machine
end

section
/-! PROOF. Runs of sequencer steps and how they are put together, and the run that writes the packets of one scanline
(R156, R178, R220). -/

namespace Sys2Proof.Machine

/-! ### Runs of the sequencer -/

/-- From `s`, whatever the step counter, `k` turns of the sequencer lead to `t`, but for the turns taken and the steps
counted. -/
def SequencerRun (k : Nat) (s t : State) : Prop :=
  ∀ n rest, run k (afterSteps n (List.replicate k .sequencer ++ rest) s) = .next (afterSteps (n + k) rest t)

theorem coreRun_of_next {M : Host.Core} {k : Nat} {s t : M.State} (h : M.step s = .next t) :
    M.run (k + 1) s = M.run k t := by
  rw [Host.Core.run, h]

theorem coreRun_add {M : Host.Core} {k j : Nat} {s t : M.State} (h : M.run k s = .next t) :
    M.run (k + j) s = M.run j t := by
  induction k generalizing s with
  | zero =>
    cases h
    rw [Nat.zero_add]
  | succ k ih =>
    rw [Nat.succ_add, Host.Core.run]
    rw [Host.Core.run] at h
    split at h
    · exact ih h
    · cases h
    · cases h

theorem SequencerRun.trans {k j : Nat} {s t u : State} (h : SequencerRun k s t)
    (h' : SequencerRun j t u) : SequencerRun (k + j) s u := by
  intro n rest
  rw [List.replicate_add, List.append_assoc]
  refine (coreRun_add (M := Sys2Proof.core) (h n _)).trans ?_
  rw [← Nat.add_assoc]
  exact h' (n + k) rest

theorem SequencerRun.of_turn {s t : State}
    (h : ∀ n ts, sequencerTurn (afterSteps n ts s) = .next (afterSteps n ts t)) :
    SequencerRun 1 s t :=
  fun n rest => coreRun_of_next (M := Sys2Proof.core) (h (n + 1) rest)

/-! ### The packets of one scanline (R156, R178) -/

theorem Memory.writeList_append (m : Memory) (a : Nat) (xs ys : List Byte) :
    Memory.writeList m a (xs ++ ys) = Memory.writeList (Memory.writeList m a xs) (a + xs.length) ys := by
  induction xs generalizing m a with
  | nil => rfl
  | cons x xs ih =>
    rw [List.cons_append, Memory.writeList_cons, ih, Memory.writeList_cons, List.length_cons,
      Nat.add_right_comm, Nat.add_assoc]

theorem acceptsWrites_append {p : Platform} {a len len' : Nat} :
    acceptsWrites p a (len + len') ↔ acceptsWrites p a len ∧ acceptsWrites p (a + len) len' := by
  constructor
  · intro h
    exact ⟨fun k hk => h k (by omega), fun k hk => Nat.add_assoc a len k ▸ h (len + k) (by omega)⟩
  · rintro ⟨h, h'⟩ k hk
    by_cases hlt : k < len
    · exact h k hlt
    · have := h' (k - len) (by omega)
      rwa [show a + len + (k - len) = a + k by omega] at this

section
variable (p : ScanPolicy) (sl : List Half) (w : ElementWidth) (width : Nat)

theorem encodeFrom_end {x : Nat} (hx : width ≤ x) (fuel : Nat) :
    encodeFrom p sl w width fuel x = [] := by
  have hnone : packetAt p sl w width x = none := if_neg fun h => by omega
  cases fuel <;> simp [encodeFrom, hnone]

variable {p sl w width}

theorem encodeFrom_packet {x : Nat} {i : Instr} (h : packetAt p sl w width x = some i) (fuel : Nat) :
    encodeFrom p sl w width (fuel + 1) x
      = encode i ++ encodeFrom p sl w width fuel (x + (detect p sl w width x).2) := by
  rw [encodeFrom, h]

/-- The rest of a scanline takes at most `2*B` bytes for each of its samples (R128). -/
theorem encodeFrom_length_le (fuel x : Nat) :
    (encodeFrom p sl w width fuel x).length ≤ 2 * elementBytes w * (width - x) := by
  induction fuel generalizing x with
  | zero => exact Nat.zero_le _
  | succ fuel ih =>
    cases hc : packetAt p sl w width x with
    | none => simp [encodeFrom, hc]
    | some i =>
      obtain ⟨hpos, -, hle, -⟩ := packetAt_cases hc
      have hpacket := (packetAt_length_bounds hc).2
      have hrest := ih (x + (detect p sl w width x).2)
      have hsplit : width - x
          = (detect p sl w width x).2 + (width - (x + (detect p sl w width x).2)) := by omega
      rw [encodeFrom_packet hc, List.length_append, hsplit, Nat.mul_add]
      omega

end

/-- The state after bytes of a scanline's encoding were written at container offset `d`: the emitter is at position `x`
and goes on with a phase (R174, R176, R177). -/
def emitted (bs : List Byte) (d x : Nat) (ph : Phase) (s : State) : State :=
  { s with
    mem := Memory.writeList s.mem (outAddr s.cfg d) bs
    dcur := some (BitVec.ofNat 32 (d + bs.length))
    x := some (BitVec.ofNat 16 x)
    phase := ph }

theorem emitted_emitted (bs bs' : List Byte) (d x x' : Nat) (ph ph' : Phase) (s : State) :
    emitted bs' (d + bs.length) x' ph' (emitted bs d x ph s) = emitted (bs ++ bs') d x' ph' s := by
  simp only [emitted, outAddr, List.length_append, Memory.writeList_append, Nat.add_assoc]

section
variable {s : State} {g : Geometry} {d x : Nat}

/-- One step of EMIT, where there is room for the packet and the bus accepts its bytes. -/
theorem sequencerRun_packet {i : Instr} (hp : s.phase = .emit) (hg : s.geom = some g)
    (hd : s.dcur = some (BitVec.ofNat 32 d)) (hx : s.x = some (BitVec.ofNat 16 x))
    (hwidth : s.cfg.width.toNat ≤ 65535)
    (hc : packetAt s.plat.policy s.sl g.width s.cfg.width.toNat x = some i)
    (hroom : d + (encode i).length ≤ s.cfg.outCap.toNat)
    (hok : acceptsWrites s.plat (outAddr s.cfg d) (encode i).length) :
    let x' := x + (detect s.plat.policy s.sl g.width s.cfg.width.toNat x).2
    SequencerRun 1 s (emitted (encode i) d x' (phaseAfter s.cfg.width.toNat x') s) := by
  refine .of_turn fun m ts => ?_
  have hlt := (packetAt_some hc).1
  have hcap := s.cfg.outCap.isLt
  have hd' : (BitVec.ofNat 32 d).toNat = d := by rw [BitVec.toNat_ofNat, Nat.mod_eq_of_lt (by omega)]
  have hx' : (BitVec.ofNat 16 x).toNat = x := by rw [BitVec.toNat_ofNat, Nat.mod_eq_of_lt (by omega)]
  have hchosen : chosenPacket (afterSteps m ts s) = .ok i := by
    simp only [chosenPacket, afterSteps, hg, hx, hx', hc]
  rw [sequencerTurn_emit (s := afterSteps m ts s) hp hchosen,
    exec_chosen_eq (s := afterSteps m ts s) hp hg hd hx hchosen]
  obtain ⟨hfull, -⟩ | ⟨-, heq⟩ := emitBytes_cases (encode i) (encode i).length
    (detect s.plat.policy s.sl g.width s.cfg.width.toNat (BitVec.ofNat 16 x).toNat).2
    (BitVec.ofNat 32 d) (BitVec.ofNat 16 x) (afterSteps m ts s)
  · have : s.cfg.outCap.toNat - (BitVec.ofNat 32 d).toNat < (encode i).length := of_decide_eq_true hfull
    omega
  · refine heq.trans ?_
    rw [hd', hx']
    exact storeSeq_of_accepts (s := afterSteps m ts s) hok

/-- The steps of EMIT from a position on write the rest of the scanline's encoding. -/
theorem sequencerRun_packets {fuel : Nat} (hp : s.phase = .emit) (hg : s.geom = some g)
    (hd : s.dcur = some (BitVec.ofNat 32 d)) (hx : s.x = some (BitVec.ofNat 16 x))
    (hwidth : s.cfg.width.toNat ≤ 65535) (hsl : s.sl.length = s.cfg.width.toNat)
    (hlt : x < s.cfg.width.toNat) (hfuel : s.cfg.width.toNat - x ≤ fuel) {bs : List Byte}
    (hbs : bs = encodeFrom s.plat.policy s.sl g.width s.cfg.width.toNat fuel x)
    (hroom : d + bs.length ≤ s.cfg.outCap.toNat)
    (hok : acceptsWrites s.plat (outAddr s.cfg d) bs.length) :
    ∃ k, SequencerRun k s (emitted bs d s.cfg.width.toNat .rowEnd s) := by
  induction fuel generalizing s d x bs with
  | zero => omega
  | succ fuel ih =>
    obtain ⟨i, hc⟩ := Option.isSome_iff_exists.1
      (packetAt_isSome (p := s.plat.policy) (w := g.width) hlt hsl.ge)
    obtain ⟨hpos, -, hle, -⟩ := packetAt_cases hc
    rw [encodeFrom_packet hc] at hbs
    subst hbs
    rw [List.length_append] at hroom hok
    obtain ⟨hok, hok'⟩ := acceptsWrites_append.1 hok
    have hstep := sequencerRun_packet hp hg hd hx hwidth hc (by omega) hok
    by_cases hend : x + (detect s.plat.policy s.sl g.width s.cfg.width.toNat x).2 = s.cfg.width.toNat
    · rw [encodeFrom_end _ _ _ _ hend.ge, List.append_nil]
      simp only [hend, phaseAfter, if_true] at hstep
      exact ⟨1, hstep⟩
    · simp only [phaseAfter, if_neg hend] at hstep
      rw [outAddr, Nat.add_assoc] at hok'
      obtain ⟨k, hrest⟩ := ih (s := emitted (encode i) d _ .emit s) rfl hg rfl rfl hwidth hsl
        (lt_of_le_of_ne hle hend) (by dsimp only [emitted]; omega) rfl
        (by rw [Nat.add_assoc]; exact hroom) hok'
      have hwhole := hstep.trans hrest
      rw [emitted_emitted] at hwhole
      exact ⟨1 + k, hwhole⟩

end

end Sys2Proof.Machine
end

section
/-! PROOF. What the scanlines of a run leave in memory (R62, R210-R215): the two tables and the pixel data grow by one
entry and one encoding with each. -/

namespace Sys2Proof.Machine

/-! ### Bytes that memory holds, and what a write elsewhere leaves of them -/

section
variable {m m' m'' : Memory} {a b len len' : Nat} {xs ys : List Byte}

theorem holdsAt_nil (m : Memory) (a : Nat) : holdsAt m a [] := fun k b hb => by simp at hb

theorem holdsAt_append :
    holdsAt m a (xs ++ ys) ↔ holdsAt m a xs ∧ holdsAt m (a + xs.length) ys := by
  constructor
  · refine fun h => ⟨fun k b hb => h k b ?_, fun k b hb => ?_⟩
    · rw [List.getElem?_append_left (List.getElem?_eq_some_iff.1 hb).1, hb]
    · rw [Nat.add_assoc]
      refine h _ b ?_
      rw [List.getElem?_append_right (Nat.le_add_right _ _), Nat.add_sub_cancel_left, hb]
  · rintro ⟨hx, hy⟩ k b hb
    by_cases hk : k < xs.length
    · exact hx k b (by rwa [List.getElem?_append_left hk] at hb)
    · rw [List.getElem?_append_right (by omega)] at hb
      have := hy _ b hb
      rwa [show a + xs.length + (k - xs.length) = a + k by omega] at this

theorem holdsAt.of_sameOutside (h : holdsAt m a xs) (hs : sameOutside m m' b len)
    (hapart : a + xs.length ≤ b ∨ b + len ≤ a) : holdsAt m' a xs := by
  intro k v hv
  have hk := (List.getElem?_eq_some_iff.1 hv).1
  rw [hs _ (by omega)]
  exact h k v hv

theorem sameOutside.within (h : sameOutside m m' b len') (hlo : a ≤ b) (hhi : b + len' ≤ a + len) :
    sameOutside m m' a len :=
  fun c hc => h c (by omega)

theorem sameOutside.trans (h : sameOutside m m' a len) (h' : sameOutside m' m'' a len) :
    sameOutside m m'' a len :=
  fun c hc => (h' c hc).trans (h c hc)

end

/-! ### The tables (R99, R213, R215) -/

theorem tableOf_append (us vs : List Nat) : tableOf (us ++ vs) = tableOf us ++ tableOf vs :=
  List.flatMap_append

theorem tableOf_singleton (v : Nat) : tableOf [v] = be32 (BitVec.ofNat 32 v) := by
  simp [tableOf]

theorem tableOf_length (vs : List Nat) : (tableOf vs).length = 4 * vs.length := by
  induction vs with
  | nil => rfl
  | cons v vs ih =>
    rw [← List.singleton_append, tableOf_append, List.length_append, ih, tableOf_singleton,
      be32_length, List.length_append, List.length_singleton, Nat.mul_add]

theorem startsFrom_length (o : Nat) (codes : List (List Byte)) :
    (startsFrom o codes).length = codes.length := by
  induction codes generalizing o with
  | nil => rfl
  | cons c codes ih => rw [startsFrom, List.length_cons, ih, List.length_cons]

theorem startsFrom_snoc (o : Nat) (codes : List (List Byte)) (c : List Byte) :
    startsFrom o (codes ++ [c]) = startsFrom o codes ++ [o + codes.flatten.length] := by
  induction codes generalizing o with
  | nil => rfl
  | cons b codes ih =>
    simp only [List.cons_append, startsFrom, ih, List.flatten_cons, List.length_append, Nat.add_assoc]

/-- Memory `m` is `m₀` with the first entries of two tables of `size` bytes, at `base` and just after, and with the
encodings of the first scanlines past both (R62, R64). -/
structure HoldsLines (m₀ : Memory) (base size : Nat) (codes : List (List Byte)) (m : Memory) : Prop where
  offsets : holdsAt m base (tableOf (startsFrom (512 + 2 * size) codes))
  lengths : holdsAt m (base + size) (tableOf (codes.map List.length))
  data : holdsAt m (base + 2 * size) codes.flatten
  rest : sameOutside m₀ m base (2 * size + codes.flatten.length)

section
variable {m₀ m m₁ m₂ m₃ : Memory} {base size : Nat} {codes : List (List Byte)} {code : List Byte}

theorem holdsLines_nil (m : Memory) (base size : Nat) : HoldsLines m base size [] m :=
  ⟨holdsAt_nil _ _, holdsAt_nil _ _, holdsAt_nil _ _, fun _ _ => rfl⟩

/-- One more scanline: its offset entry, its encoding and its length entry are stored. -/
theorem HoldsLines.snoc (h : HoldsLines m₀ base size codes m) (hfits : 4 * codes.length + 4 ≤ size)
    (hoffset : stores m m₁ (base + 4 * codes.length)
      (be32 (BitVec.ofNat 32 (512 + 2 * size + codes.flatten.length))))
    (hdata : stores m₁ m₂ (base + 2 * size + codes.flatten.length) code)
    (hlength : stores m₂ m₃ (base + size + 4 * codes.length) (be32 (BitVec.ofNat 32 code.length))) :
    HoldsLines m₀ base size (codes ++ [code]) m₃ := by
  obtain ⟨hoffset, hoffset'⟩ := hoffset
  obtain ⟨hdata, hdata'⟩ := hdata
  obtain ⟨hlength, hlength'⟩ := hlength
  obtain ⟨hoffsets, hlengths, hcodes, hrest⟩ := h
  rw [be32_length] at hoffset' hlength'
  have hlen := tableOf_length (startsFrom (512 + 2 * size) codes)
  have hlen' := tableOf_length (codes.map List.length)
  rw [startsFrom_length] at hlen
  rw [List.length_map] at hlen'
  refine ⟨?_, ?_, ?_, ?_⟩
  · rw [startsFrom_snoc, tableOf_append, tableOf_singleton, holdsAt_append, hlen]
    exact ⟨((hoffsets.of_sameOutside hoffset' (by omega)).of_sameOutside hdata' (by omega)).of_sameOutside
        hlength' (by omega),
      (hoffset.of_sameOutside hdata' (by rw [be32_length]; omega)).of_sameOutside hlength'
        (by rw [be32_length]; omega)⟩
  · rw [List.map_append, List.map_singleton, tableOf_append, tableOf_singleton, holdsAt_append, hlen']
    exact ⟨((hlengths.of_sameOutside hoffset' (by omega)).of_sameOutside hdata' (by omega)).of_sameOutside
        hlength' (by omega), hlength⟩
  · rw [List.flatten_append, List.flatten_singleton, holdsAt_append]
    exact ⟨((hcodes.of_sameOutside hoffset' (by omega)).of_sameOutside hdata' (by omega)).of_sameOutside
        hlength' (by omega), hdata.of_sameOutside hlength' (by omega)⟩
  · rw [List.flatten_append, List.flatten_singleton, List.length_append]
    exact (((hrest.within (Nat.le_refl _) (by omega)).trans
      (hoffset'.within (by omega) (by omega))).trans (hdata'.within (by omega) (by omega))).trans
      (hlength'.within (by omega) (by omega))

/-- With the tables full, memory is `m₀` with tables and encodings stored one after another (R64). -/
theorem HoldsLines.stores_container (h : HoldsLines m₀ base size codes m) (hfull : 4 * codes.length = size) :
    stores m₀ m base (tableOf (startsFrom (512 + 2 * size) codes) ++ tableOf (codes.map List.length)
      ++ codes.flatten) := by
  have hlen : (tableOf (startsFrom (512 + 2 * size) codes)).length = size := by
    rw [tableOf_length, startsFrom_length, hfull]
  have hlen' : (tableOf (codes.map List.length)).length = size := by
    rw [tableOf_length, List.length_map, hfull]
  constructor
  · rw [holdsAt_append, holdsAt_append, List.length_append, hlen, hlen', ← Nat.two_mul]
    exact ⟨⟨h.offsets, h.lengths⟩, h.data⟩
  · rw [List.length_append, List.length_append, hlen, hlen', ← Nat.two_mul]
    exact h.rest

end

end Sys2Proof.Machine
end

section
/-! PROOF. One scanline from ROW_BEGIN to ROW_END, and a whole run from CHECK to FINISH (R224), where the host keeps R77
and the bus accepts what the run reads and writes. -/

namespace Sys2Proof.Machine

theorem acceptsWrites.within {p : Platform} {a b len len' : Nat} (h : acceptsWrites p a len)
    (hlo : a ≤ b) (hhi : b + len' ≤ a + len) : acceptsWrites p b len' := by
  intro k hk
  have := h (b - a + k) (by omega)
  rwa [show a + (b - a + k) = b + k by omega] at this

/-! ### The micro-operations of a scanline -/

theorem frameLine_length (c : ConfigRegs) (f : PixelFormat) (m : Memory) (z y : Nat) :
    (frameLine c f m z y).length = c.width.toNat := by
  rw [frameLine, List.length_map, List.length_range]

section
variable {s : State} {f : PixelFormat} {z : BitVec 2} {y : BitVec 16} {d : Word}

/-- ROW_BEGIN with its registers held. -/
theorem rowBegin_held (hz : s.z = some z) (hy : s.y = some y) (hd : s.dcur = some d) :
    rowBegin s = storeSeq
      (outAddr s.cfg (offsetEntry (tableIndex s.cfg.height.toNat z.toNat y.toNat))) (be32 d) s
      fun t => .next { t with rstart := some d, phase := .fetch } := by
  simp only [rowBegin, hz, hy, hd, held_some]

theorem sequencerRun_rowBegin (hp : s.phase = .rowBegin) (hf : FrameLegal s f z y d)
    (hok : acceptsWrites s.plat
      (outAddr s.cfg (offsetEntry (tableIndex s.cfg.height.toNat z.toNat y.toNat))) 4) :
    SequencerRun 1 s { s with
      mem := Memory.writeList s.mem
        (outAddr s.cfg (offsetEntry (tableIndex s.cfg.height.toNat z.toNat y.toNat))) (be32 d)
      rstart := some d, phase := .fetch } := by
  refine .of_turn fun n ts => (sequencerTurn_rowBegin (s := afterSteps n ts s) hp).trans ?_
  exact (rowBegin_held (s := afterSteps n ts s) hf.z_held hf.y_held hf.dcur_held).trans
    (storeSeq_of_accepts (s := afterSteps n ts s) (bs := be32 d) hok)

/-- The samples that FETCH reads are those memory holds (R77, R190-R192). -/
theorem sequencerRun_fetch (hp : s.phase = .fetch) (hf : FrameLegal s f z y d)
    (hkept : s.world.disturbed = false)
    (hok : ∀ a, isSourceByte s.cfg f (sourceRow s.cfg.height.toNat y.toNat) z.toNat a →
      accepts s.plat .read a = true) :
    SequencerRun 1 s { s with
      sl := frameLine s.cfg f s.mem z.toNat y.toNat, x := some 0, phase := .emit } := by
  refine .of_turn fun n ts => (sequencerTurn_fetch (s := afterSteps n ts s) hp).trans ?_
  rw [fetchLine_of_accepts (s := afterSteps n ts s) hf.z_held hf.y_held hf.geometry
    fun p hlt k hk => hok _ ⟨p, hlt, k, hk, rfl⟩]
  have hsample : ∀ a, blockSample (afterSteps n ts s) f.width f.order a
      = BitVec.ofNat 16 (sampleValue f.width f.order s.mem a) := fun a => calc
    _ = BitVec.ofNat 16 (blockSample (afterSteps n ts s) f.width f.order a).toNat := by
      rw [BitVec.ofNat_toNat, BitVec.setWidth_eq]
    _ = _ := congrArg _ (blockSample_toNat (s := afterSteps n ts s) hkept f.width f.order a)
  simp only [hsample]
  rfl

theorem afterSteps_advance (n : Nat) (ts : List Turn) (depth : Nat) (s : State) :
    advance depth z y (afterSteps n ts s) = afterSteps n ts (advance depth z y s) := by
  obtain ⟨h, heq⟩ | ⟨h, h', heq⟩ | ⟨h, h', heq⟩ := advance_cases depth z y s
  · rw [heq]; exact if_pos h
  · rw [heq]; exact (if_neg h).trans (if_pos h')
  · rw [heq]; exact (if_neg h).trans (if_neg h')

theorem sequencerRun_rowEnd {r : Word} (hp : s.phase = .rowEnd) (hf : FrameLegal s f z y d)
    (hr : s.rstart = some r)
    (hok : acceptsWrites s.plat (outAddr s.cfg (lengthEntry (tableSize f.depth s.cfg.height.toNat)
      (tableIndex s.cfg.height.toNat z.toNat y.toNat))) 4) :
    SequencerRun 1 s (advance f.depth z y { s with
      mem := Memory.writeList s.mem (outAddr s.cfg (lengthEntry (tableSize f.depth s.cfg.height.toNat)
        (tableIndex s.cfg.height.toNat z.toNat y.toNat))) (be32 (d - r))
      sl := [] }) := by
  refine .of_turn fun n ts => (sequencerTurn_rowEnd (s := afterSteps n ts s) hp).trans ?_
  refine (rowEnd_held (s := afterSteps n ts s) hf.geometry hf.z_held hf.y_held hf.dcur_held hr).trans
    ((storeSeq_of_accepts (s := afterSteps n ts s) (bs := be32 (d - r)) hok).trans ?_)
  rw [← afterSteps_advance]
  rfl

@[simp] theorem advance_cfg (depth : Nat) : (advance depth z y s).cfg = s.cfg := by
  obtain ⟨-, heq⟩ | ⟨-, -, heq⟩ | ⟨-, -, heq⟩ := advance_cases depth z y s <;> rw [heq]

@[simp] theorem advance_mem (depth : Nat) : (advance depth z y s).mem = s.mem := by
  obtain ⟨-, heq⟩ | ⟨-, -, heq⟩ | ⟨-, -, heq⟩ := advance_cases depth z y s <;> rw [heq]

@[simp] theorem advance_world (depth : Nat) : (advance depth z y s).world = s.world := by
  obtain ⟨-, heq⟩ | ⟨-, -, heq⟩ | ⟨-, -, heq⟩ := advance_cases depth z y s <;> rw [heq]

/-- `advance` leads to the scanline of the next table index, or past the last one (R211, R219). -/
theorem FrameLegal.advance (h : FrameLegal s f z y d) :
    let t := advance f.depth z y s
    ∃ z' y', FrameLegal t f z' y' d ∧
      ((t.phase = .rowBegin ∧ tableIndex s.cfg.height.toNat z'.toNat y'.toNat
          = tableIndex s.cfg.height.toNat z.toNat y.toNat + 1) ∨
        (t.phase = .finish ∧ f.depth * s.cfg.height.toNat
          = tableIndex s.cfg.height.toNat z.toNat y.toNat + 1)) := by
  have hheight := h.resolution.2.2
  have hdepth := h.depth.2
  have hy := h.y_lt
  have hz := h.z_lt
  obtain ⟨hrow, heq⟩ | ⟨hrow, hchannel, heq⟩ | ⟨hrow, hchannel, heq⟩ :=
    advance_cases f.depth z y s <;> rw [heq] <;> dsimp only
  · have hy' : (BitVec.ofNat 16 (y.toNat + 1)).toNat = y.toNat + 1 := by
      rw [BitVec.toNat_ofNat, Nat.mod_eq_of_lt (by omega)]
    refine ⟨z, _, h.move rfl rfl h.z_held rfl h.dcur_held hz (by omega), .inl ⟨rfl, ?_⟩⟩
    rw [hy', tableIndex_next_row]
  · have hz' : (BitVec.ofNat 2 (z.toNat + 1)).toNat = z.toNat + 1 := by
      rw [BitVec.toNat_ofNat, Nat.mod_eq_of_lt (by omega)]
    refine ⟨_, 0, h.move rfl rfl rfl rfl h.dcur_held (by omega) (Nat.zero_lt_of_lt hy),
      .inl ⟨rfl, ?_⟩⟩
    rw [hz', show BitVec.toNat (0 : BitVec 16) = 0 from rfl,
      tableIndex_next_channel (y := y.toNat) (by omega)]
  · refine ⟨z, y, h.move rfl rfl h.z_held h.y_held h.dcur_held hz hy, .inr ⟨rfl, ?_⟩⟩
    rw [← tableIndex_next_channel (y := y.toNat) (by omega), show z.toNat + 1 = f.depth by omega]
    rfl

/-- Memory after the offset entry of a scanline that begins at container offset `d` (R216). -/
def offsetMemory (i d : Nat) (s : State) : Memory :=
  Memory.writeList s.mem (outAddr s.cfg (offsetEntry i)) (be32 (BitVec.ofNat 32 d))

/-- Memory after the offset entry of the scanline, its encoding and its length entry (R218). -/
def lineMemory (size i d : Nat) (code : List Byte) (s : State) : Memory :=
  Memory.writeList (Memory.writeList (offsetMemory i d s) (outAddr s.cfg d) code)
    (outAddr s.cfg (lengthEntry size i)) (be32 (BitVec.ofNat 32 code.length))

/-- The state after a scanline with this encoding was written, as `advance` finds it (R218). -/
def lineEnded (size i d : Nat) (code : List Byte) (s : State) : State :=
  { s with
    mem := lineMemory size i d code s
    dcur := some (BitVec.ofNat 32 (d + code.length)), rstart := some (BitVec.ofNat 32 d)
    x := some (BitVec.ofNat 16 s.cfg.width.toNat), sl := [], phase := .rowEnd }

/-- One scanline, from ROW_BEGIN to `advance` (R216, R195, R178, R218). -/
theorem sequencerRun_line {i d : Nat} {code : List Byte} (hp : s.phase = .rowBegin)
    (hf : FrameLegal s f z y (BitVec.ofNat 32 d)) (hkept : s.world.disturbed = false)
    (hi : i = tableIndex s.cfg.height.toNat z.toNat y.toNat)
    (hcode : code = encodeScanline s.plat.policy
      (frameLine s.cfg f (offsetMemory i d s) z.toNat y.toNat) f.width)
    (hroom : d + code.length ≤ s.cfg.outCap.toNat)
    (hreads : ∀ a, isSourceByte s.cfg f (sourceRow s.cfg.height.toNat y.toNat) z.toNat a →
      accepts s.plat .read a = true)
    (hoffset : acceptsWrites s.plat (outAddr s.cfg (offsetEntry i)) 4)
    (hdata : acceptsWrites s.plat (outAddr s.cfg d) code.length)
    (hlength : acceptsWrites s.plat
      (outAddr s.cfg (lengthEntry (tableSize f.depth s.cfg.height.toNat) i)) 4) :
    ∃ k, SequencerRun k s (advance f.depth z y
      (lineEnded (tableSize f.depth s.cfg.height.toNat) i d code s)) := by
  subst hi
  have hbegin := (sequencerRun_rowBegin hp hf hoffset).trans (sequencerRun_fetch rfl
    (hf.move rfl rfl hf.z_held hf.y_held hf.dcur_held hf.z_lt hf.y_lt) hkept hreads)
  obtain ⟨k, hemit⟩ := sequencerRun_packets (x := 0) (bs := code) (s := { s with
      mem := offsetMemory (tableIndex s.cfg.height.toNat z.toNat y.toNat) d s
      rstart := some (BitVec.ofNat 32 d), x := some 0, phase := .emit
      sl := frameLine s.cfg f (offsetMemory (tableIndex s.cfg.height.toNat z.toNat y.toNat) d s)
        z.toNat y.toNat })
    rfl hf.geometry hf.dcur_held rfl hf.resolution.1.2 (frameLine_length ..) hf.resolution.1.1
    (Nat.le_refl _) (hcode.trans (by rw [encodeScanline, frameLine_length]; rfl)) hroom hdata
  have hend := (hbegin.trans hemit).trans (sequencerRun_rowEnd rfl
    (hf.move rfl rfl hf.z_held hf.y_held rfl hf.z_lt hf.y_lt) rfl hlength)
  have hlen : BitVec.ofNat 32 (d + code.length) - BitVec.ofNat 32 d = BitVec.ofNat 32 code.length := by
    rw [Nat.add_comm, BitVec.ofNat_add, BitVec.add_sub_cancel]
  rw [hlen] at hend
  exact ⟨_, hend⟩

end

/-! ### What a run that nothing hinders writes -/

/-- A run in which nothing goes wrong: the configuration is legal and has room for the bound, the host has kept R77, no
source byte lies in the output, and the bus accepts the source reads and the output writes. -/
structure Unhindered (s : State) (f : PixelFormat) : Prop where
  memory : Memory.wf s.mem
  kept : s.world.disturbed = false
  format : legalFormat s.cfg = some f
  room : sizeBound f s.cfg.width.toNat s.cfg.height.toNat ≤ s.cfg.outCap.toNat
  apart : ∀ a, isFrameByte s.cfg f a → ¬ (s.cfg.outBase.toNat + 512 ≤ a ∧
    a < s.cfg.outBase.toNat + sizeBound f s.cfg.width.toNat s.cfg.height.toNat)
  reads : ∀ a, isFrameByte s.cfg f a → accepts s.plat .read a = true
  writes : acceptsWrites s.plat (s.cfg.outBase.toNat + 512)
    (sizeBound f s.cfg.width.toNat s.cfg.height.toNat - 512)

/-- The encoding of the scanline of a table index (R211, R212). -/
def lineCode (s : State) (f : PixelFormat) (i : Nat) : List Byte :=
  encodeScanline s.plat.policy
    (frameLine s.cfg f s.mem (i / s.cfg.height.toNat) (i % s.cfg.height.toNat)) f.width

/-- The encodings of the scanlines before a table index. -/
def doneCodes (s : State) (f : PixelFormat) (i : Nat) : List (List Byte) :=
  (List.range i).map (lineCode s f)

/-- The container offset of the scanline of a table index (R213). -/
def lineStart (s : State) (f : PixelFormat) (i : Nat) : Nat :=
  dataStart f.depth s.cfg.height.toNat + (doneCodes s f i).flatten.length

section
variable (s : State) (f : PixelFormat)

theorem doneCodes_length (i : Nat) : (doneCodes s f i).length = i := by
  rw [doneCodes, List.length_map, List.length_range]

theorem doneCodes_succ (i : Nat) : doneCodes s f (i + 1) = doneCodes s f i ++ [lineCode s f i] := by
  rw [doneCodes, List.range_succ, List.map_append, List.map_singleton, doneCodes]

theorem lineStart_succ (i : Nat) : lineStart s f (i + 1) = lineStart s f i + (lineCode s f i).length := by
  rw [lineStart, lineStart, doneCodes_succ, List.flatten_append, List.flatten_singleton,
    List.length_append, Nat.add_assoc]

/-- A scanline takes at most `2*W*B` bytes (R128). -/
theorem lineCode_length_le (i : Nat) :
    (lineCode s f i).length ≤ 2 * elementBytes f.width * s.cfg.width.toNat := by
  have := encodeFrom_length_le (p := s.plat.policy) (w := f.width)
    (sl := frameLine s.cfg f s.mem (i / s.cfg.height.toNat) (i % s.cfg.height.toNat))
    (width := s.cfg.width.toNat) s.cfg.width.toNat 0
  rwa [lineCode, encodeScanline, frameLine_length]

theorem lineStart_le_lineCeiling (i : Nat) : lineStart s f i ≤ lineCeiling s.cfg f i := by
  induction i with
  | zero => exact Nat.le_refl _
  | succ i ih =>
    have := lineCode_length_le s f i
    rw [lineStart_succ, lineCeiling_succ]
    omega

/-- The bound leaves room for every scanline (R124, R128). -/
theorem lineStart_le_sizeBound {i : Nat} (hi : i ≤ f.depth * s.cfg.height.toNat) :
    lineStart s f i ≤ sizeBound f s.cfg.width.toNat s.cfg.height.toNat := by
  refine (lineStart_le_lineCeiling s f i).trans ?_
  rw [lineCeiling, sizeBound, dataStart]
  refine Nat.add_le_add_left ?_ _
  calc 2 * elementBytes f.width * s.cfg.width.toNat * i
      ≤ 2 * elementBytes f.width * s.cfg.width.toNat * (f.depth * s.cfg.height.toNat) :=
        Nat.mul_le_mul_left _ hi
    _ = f.depth * s.cfg.height.toNat * (2 * s.cfg.width.toNat) * elementBytes f.width := by ring
    _ ≤ _ := Nat.mul_le_mul_right _ (Nat.mul_le_mul_left _ (Nat.le_succ _))

variable {s f}

/-- Memory that changed in the output alone holds the same scanlines of the source (R78). -/
theorem Unhindered.frameLine_eq (h : Unhindered s f) {m : Memory} {len z y : Nat}
    (hm : sameOutside s.mem m (s.cfg.outBase.toNat + 512) len)
    (hlen : 512 + len ≤ sizeBound f s.cfg.width.toNat s.cfg.height.toNat)
    (hz : z < f.depth) (hy : y < s.cfg.height.toNat) :
    frameLine s.cfg f m z y = frameLine s.cfg f s.mem z y := by
  refine List.map_congr_left fun p hp => congrArg _ ?_
  have hbyte : ∀ k < elementBytes f.width,
      Memory.read m (srcAddr s.cfg f.depth f.width (sourceRow s.cfg.height.toNat y) p z + k)
        = Memory.read s.mem (srcAddr s.cfg f.depth f.width (sourceRow s.cfg.height.toNat y) p z + k) :=
    fun k hk => hm _ fun hin => h.apart _
      ⟨_, show sourceRow s.cfg.height.toNat y < _ by rw [sourceRow]; omega, z, hz, p,
        List.mem_range.1 hp, k, hk, rfl⟩ (by omega)
  generalize srcAddr s.cfg f.depth f.width (sourceRow s.cfg.height.toNat y) p z = a at hbyte ⊢
  have h0 : Memory.read m a = Memory.read s.mem a := hbyte 0 (elementBytes_pos f.width).1
  cases hw : f.width with
  | one => simp only [sampleValue, h0]
  | two =>
    have h1 := hbyte 1 (by rw [hw]; decide)
    cases f.order <;> simp only [sampleValue, h0, h1]

/-- The bus accepts a write between container offset 512 and the bound. -/
theorem Unhindered.accepts (h : Unhindered s f) {o len : Nat} (hlo : 512 ≤ o)
    (hhi : o + len ≤ sizeBound f s.cfg.width.toNat s.cfg.height.toNat) :
    acceptsWrites s.plat (outAddr s.cfg o) len :=
  h.writes.within (by rw [outAddr]; omega) (by rw [outAddr]; omega)

end

/-! ### Scanline after scanline -/

/-- The state `t` of the run of `s` in which the scanlines before table index `i` are done: about to begin the next, or to
finish after the last. -/
structure LinesDone (s : State) (f : PixelFormat) (i : Nat) (t : State) : Prop where
  cfg : t.cfg = s.cfg
  plat : t.plat = s.plat
  kept : t.world.disturbed = false
  canonical : Memory.wf t.mem
  memory : HoldsLines s.mem (s.cfg.outBase.toNat + 512) (tableSize f.depth s.cfg.height.toNat)
    (doneCodes s f i) t.mem
  frame : ∃ z y, FrameLegal t f z y (BitVec.ofNat 32 (lineStart s f i)) ∧
    ((t.phase = .rowBegin ∧ tableIndex s.cfg.height.toNat z.toNat y.toNat = i) ∨
      (t.phase = .finish ∧ f.depth * s.cfg.height.toNat = i))

theorem outAddr_offsetEntry (c : ConfigRegs) (i : Nat) :
    outAddr c (offsetEntry i) = c.outBase.toNat + 512 + 4 * i :=
  (Nat.add_assoc ..).symm

theorem outAddr_lengthEntry (c : ConfigRegs) (size i : Nat) :
    outAddr c (lengthEntry size i) = c.outBase.toNat + 512 + size + 4 * i := by
  simp only [outAddr, lengthEntry, Config.headerBytes, Config.entryBytes, Nat.add_assoc]

/-- One scanline's writes add its entries and its encoding to what memory holds of the container. -/
theorem HoldsLines.lineWritten {m₀ : Memory} {t : State} {size d : Nat} {codes : List (List Byte)}
    {code : List Byte} (h : HoldsLines m₀ (t.cfg.outBase.toNat + 512) size codes t.mem)
    (hw : Memory.wf t.mem) (hfits : 4 * codes.length + 4 ≤ size)
    (hd : d = 512 + 2 * size + codes.flatten.length)
    (hoffset : acceptsWrites t.plat (outAddr t.cfg (offsetEntry codes.length)) 4)
    (hdata : acceptsWrites t.plat (outAddr t.cfg d) code.length)
    (hlength : acceptsWrites t.plat (outAddr t.cfg (lengthEntry size codes.length)) 4) :
    Memory.wf (lineMemory size codes.length d code t) ∧
      HoldsLines m₀ (t.cfg.outBase.toNat + 512) size (codes ++ [code])
        (lineMemory size codes.length d code t) := by
  have hw₁ : Memory.wf (offsetMemory codes.length d t) := wf_writeList_of_accepts hw hoffset
  have hw₂ : Memory.wf (Memory.writeList (offsetMemory codes.length d t) (outAddr t.cfg d) code) :=
    wf_writeList_of_accepts hw₁ hdata
  have hoffset' : stores t.mem (offsetMemory codes.length d t) (outAddr t.cfg (offsetEntry codes.length))
      (be32 (BitVec.ofNat 32 d)) := stores_writeList hw hoffset
  have hdata' := stores_writeList hw₁ hdata
  have hlength' : stores _ (Machine.lineMemory size codes.length d code t)
      (outAddr t.cfg (lengthEntry size codes.length)) (be32 (BitVec.ofNat 32 code.length)) :=
    stores_writeList hw₂ hlength
  have haddr : outAddr t.cfg d = t.cfg.outBase.toNat + 512 + 2 * size + codes.flatten.length := by
    rw [outAddr]
    omega
  rw [outAddr_offsetEntry, hd] at hoffset'
  rw [haddr] at hdata' hlength'
  rw [outAddr_lengthEntry] at hlength'
  subst hd
  exact ⟨wf_writeList_of_accepts hw₂ hlength, h.snoc hfits hoffset' hdata' hlength'⟩

/-- The channel and the row of a table index (R211). -/
theorem tableIndex_divMod {height z y : Nat} (hy : y < height) :
    tableIndex height z y / height = z ∧ tableIndex height z y % height = y := by
  rw [tableIndex, Nat.mul_comm]
  exact ⟨by rw [Nat.mul_add_div (Nat.zero_lt_of_lt hy), Nat.div_eq_of_lt hy, Nat.add_zero],
    by rw [Nat.mul_add_mod, Nat.mod_eq_of_lt hy]⟩

section
variable {s t : State} {f : PixelFormat} {i : Nat}

/-- The bus accepts the entries and the encoding of every scanline. -/
theorem Unhindered.accepts_line (h : Unhindered s f) (hi : i < f.depth * s.cfg.height.toNat) :
    acceptsWrites s.plat (outAddr s.cfg (offsetEntry i)) 4 ∧
      acceptsWrites s.plat (outAddr s.cfg (lineStart s f i)) (lineCode s f i).length ∧
      acceptsWrites s.plat (outAddr s.cfg (lengthEntry (tableSize f.depth s.cfg.height.toNat) i)) 4 := by
  have hbound := lineStart_le_sizeBound s f hi
  rw [lineStart_succ, lineStart, dataStart_eq, Nat.mul_assoc 4] at hbound
  refine ⟨h.accepts ?_ ?_, h.accepts ?_ ?_, h.accepts ?_ ?_⟩ <;>
    simp only [offsetEntry, lengthEntry, lineStart, dataStart_eq, tableSize, Nat.mul_assoc 4,
      Config.headerBytes, Config.entryBytes] <;> omega

/-- ROW_BEGIN's entry leaves the scanline that FETCH reads next as it was at the start of the run (R78). -/
theorem LinesDone.lineCode_eq (hd : LinesDone s f i t) (h : Unhindered s f)
    (hi : i < f.depth * s.cfg.height.toNat) {z y : Nat} (hz : z < f.depth)
    (hy : y < s.cfg.height.toNat) (hindex : tableIndex s.cfg.height.toNat z y = i) :
    lineCode s f i = encodeScanline s.plat.policy
      (frameLine s.cfg f (offsetMemory i (lineStart s f i) t) z y) f.width := by
  have hsize : tableSize f.depth s.cfg.height.toNat = 4 * (f.depth * s.cfg.height.toNat) :=
    Nat.mul_assoc ..
  have hbound : 512 + 2 * tableSize f.depth s.cfg.height.toNat + (doneCodes s f i).flatten.length
      ≤ sizeBound f s.cfg.width.toNat s.cfg.height.toNat := lineStart_le_sizeBound s f hi.le
  have hentry : stores t.mem (offsetMemory i (lineStart s f i) t) _ _ :=
    stores_writeList (p := s.plat) hd.canonical (hd.cfg ▸ (h.accepts_line hi).1)
  rw [hd.cfg, outAddr_offsetEntry] at hentry
  have hsource := hd.memory.rest.trans (hentry.2.within (by omega) (by rw [be32_length]; omega))
  rw [h.frameLine_eq hsource (by omega) hz hy, lineCode, ← hindex, (tableIndex_divMod hy).1,
    (tableIndex_divMod hy).2]

/-- A run goes on from scanline to scanline. -/
theorem linesDone_succ (h : Unhindered s f) (hd : LinesDone s f i t)
    (hi : i < f.depth * s.cfg.height.toNat) :
    ∃ k u, SequencerRun k t u ∧ LinesDone s f (i + 1) u := by
  obtain ⟨z, y, hf, ⟨hp, hindex⟩ | ⟨-, hlast⟩⟩ := hd.frame
  case inr => omega
  have hz := hf.z_lt
  have hy : y.toNat < s.cfg.height.toNat := hd.cfg ▸ hf.y_lt
  have hsize : tableSize f.depth s.cfg.height.toNat = 4 * (f.depth * s.cfg.height.toNat) :=
    Nat.mul_assoc ..
  have hbound := (lineStart_le_sizeBound s f hi).trans h.room
  rw [lineStart_succ] at hbound
  obtain ⟨hoffset, hdata, hlength⟩ := h.accepts_line hi
  have hreads : ∀ a, isSourceByte s.cfg f (sourceRow s.cfg.height.toNat y.toNat) z.toNat a →
      accepts s.plat .read a = true := fun a ha =>
    h.reads a ⟨_, show sourceRow s.cfg.height.toNat y.toNat < _ by rw [sourceRow]; omega, _, hz, ha⟩
  have hline := sequencerRun_line (i := i) (code := lineCode s f i) hp hf hd.kept
  have hwritten := HoldsLines.lineWritten (m₀ := s.mem) (t := t) (d := lineStart s f i)
    (size := tableSize f.depth s.cfg.height.toNat) (codes := doneCodes s f i) (code := lineCode s f i)
  simp only [hd.cfg, hd.plat, doneCodes_length] at hline hwritten
  obtain ⟨k, hrun⟩ := hline hindex.symm (hd.lineCode_eq h hi hz hy hindex) hbound hreads hoffset hdata
    hlength
  obtain ⟨hcanonical, hmemory⟩ := hwritten hd.memory hd.canonical (by omega) rfl hoffset hdata hlength
  obtain ⟨z', y', hf', hnext⟩ := FrameLegal.advance (s := lineEnded
      (tableSize f.depth s.cfg.height.toNat) i (lineStart s f i) (lineCode s f i) t)
    (hf.move rfl rfl hf.z_held hf.y_held rfl hz hf.y_lt)
  have hheight : (lineEnded (tableSize f.depth s.cfg.height.toNat) i (lineStart s f i)
      (lineCode s f i) t).cfg.height = s.cfg.height := congrArg ConfigRegs.height hd.cfg
  rw [hheight, hindex] at hnext
  refine ⟨k, _, hrun, ?_⟩
  exact
    { cfg := (advance_cfg _).trans hd.cfg
      plat := (advance_plat ..).trans hd.plat
      kept := by rw [advance_world]; exact hd.kept
      canonical := by rw [advance_mem]; exact hcanonical
      memory := by rw [advance_mem, doneCodes_succ]; exact hmemory
      frame := ⟨z', y', by rw [lineStart_succ]; exact hf', hnext⟩ }

/-- CHECK passes, and no scanline is done (R127). -/
theorem linesDone_zero (h : Unhindered s f) (hp : s.phase = .check) :
    ∃ t, SequencerRun 1 s t ∧ LinesDone s f 0 t := by
  obtain ⟨hres, hrow⟩ := (legalFormat_some_iff _ _).1 h.format
  refine ⟨{ s with
      geom := some ⟨f.depth, f.width, f.order, tableSize f.depth s.cfg.height.toNat⟩
      dcur := some (BitVec.ofNat 32 (dataStart f.depth s.cfg.height.toNat))
      z := some 0, y := some 0, sl := [], phase := .rowBegin },
    .of_turn fun n ts => (sequencerTurn_check (s := afterSteps n ts s) hp).trans
      (checkRun_passes (s := afterSteps n ts s) hrow hres h.room), ?_⟩
  exact
    { cfg := rfl
      plat := rfl
      kept := h.kept
      canonical := h.memory
      memory := holdsLines_nil _ _ _
      frame := ⟨0, 0,
        { format := h.format
          room := h.room
          geometry := rfl
          z_held := rfl
          y_held := rfl
          dcur_held := rfl
          z_lt := (formatRow_depth hrow).1
          y_lt := ((legalResolution_iff _).1 hres).2.1 }, .inl ⟨rfl, Nat.zero_mul _⟩⟩ }

/-- From CHECK the sequencer gets any number of scanlines done. -/
theorem linesDone_reached (h : Unhindered s f) (hp : s.phase = .check)
    (hi : i ≤ f.depth * s.cfg.height.toNat) : ∃ k t, SequencerRun k s t ∧ LinesDone s f i t := by
  induction i with
  | zero =>
    obtain ⟨t, hrun, hdone⟩ := linesDone_zero h hp
    exact ⟨1, t, hrun, hdone⟩
  | succ i ih =>
    obtain ⟨k, t, hrun, hdone⟩ := ih (Nat.le_of_succ_le hi)
    obtain ⟨k', u, hrun', hdone'⟩ := linesDone_succ h hdone hi
    exact ⟨k + k', u, hrun.trans hrun', hdone'⟩

/-- FINISH with its register held. -/
theorem finishRun_held {d : Word} (hd : s.dcur = some d) :
    finishRun s = .next { s with
      resultSize := d
      status := { done := true, err := false, keyframe := true, errCode := 0 }
      phase := .idle
      mem := memoryAfterRun s
      world := hideOutput (outAddr s.cfg Config.headerBytes) (outAddr s.cfg d.toNat) s.world } := by
  simp only [finishRun, hd, held_some]

/-- FINISH, where the host has kept R77 (R222). -/
theorem sequencerRun_finish {d : Word} (hp : t.phase = .finish) (hd : t.dcur = some d)
    (hkept : t.world.disturbed = false) :
    SequencerRun 1 t { t with
      resultSize := d
      status := { done := true, err := false, keyframe := true, errCode := 0 }
      phase := .idle
      world := hideOutput (outAddr t.cfg Config.headerBytes) (outAddr t.cfg d.toNat) t.world } := by
  refine .of_turn fun n ts => (sequencerTurn_finish (s := afterSteps n ts t) hp).trans
    ((finishRun_held (s := afterSteps n ts t) hd).trans ?_)
  have hmem : memoryAfterRun (afterSteps n ts t) = t.mem := memoryAfterRun_of_kept hkept
  rw [hmem]
  rfl

end

/-- No overlap at the launch leaves the source apart from the output (R78). -/
theorem source_apart_of_launch {p : Platform} {c : ConfigRegs} {f : PixelFormat}
    (hf : legalFormat c = some f) (hroom : sizeBound f c.width.toNat c.height.toNat ≤ c.outCap.toNat)
    (hlaunch : launchOverlaps p c = false) {a : Nat} (ha : a < 2 ^ 32) (hframe : isFrameByte c f a) :
    ¬ (c.outBase.toNat + 512 ≤ a ∧
      a < c.outBase.toNat + sizeBound f c.width.toNat c.height.toNat) := by
  intro hin
  have hover := (launchOverlaps_iff p c).2
    (.inl ((sourceInOutput_iff c).2 ⟨f, hf, hroom, a, ha, hframe, hin⟩))
  rw [hlaunch] at hover
  cases hover

theorem containerBody_length (pol : ScanPolicy) (c : ConfigRegs) (f : PixelFormat) (m : Memory) :
    (containerBody pol c f m).length
      = 2 * tableSize f.depth c.height.toNat + (frameCodes pol c f m).flatten.length := by
  have hcodes : (frameCodes pol c f m).length = f.depth * c.height.toNat := by
    rw [frameCodes, List.length_map, List.length_range]
  have hsize : tableSize f.depth c.height.toNat = 4 * (f.depth * c.height.toNat) := Nat.mul_assoc ..
  simp only [containerBody, List.length_append, tableOf_length, startsFrom_length, List.length_map,
    hcodes, hsize]
  omega

/-- Settles O60: CHECK, every scanline by induction over the table index, and FINISH. -/
theorem runWritesContainer : Obligations.RunWritesContainer := by
  intro s f hp hmemory hkept hf hroom hlaunch hreads hwrites
  have h : Unhindered s f :=
    { memory := hmemory
      kept := hkept
      format := hf
      room := hroom
      apart := fun a ha => source_apart_of_launch hf hroom hlaunch (lt_of_accepts (hreads a ha)) ha
      reads := hreads
      writes := hwrites }
  obtain ⟨k, t, hrun, hdone⟩ := linesDone_reached h hp (Nat.le_refl _)
  obtain ⟨z, y, hframe, ⟨-, hindex⟩ | ⟨hfinish, -⟩⟩ := hdone.frame
  · have hlt := hframe.entries.1
    rw [hdone.cfg, hindex] at hlt
    exact absurd hlt (Nat.lt_irrefl _)
  have hend := (hrun.trans (sequencerRun_finish hfinish hframe.dcur_held hdone.kept)) 0 []
  rw [List.append_nil] at hend
  have hbody := hdone.memory.stores_container (by rw [doneCodes_length]; exact (Nat.mul_assoc ..).symm)
  refine ⟨k + 1, _, hend, rfl, rfl, ?_, hbody⟩
  have hbound := lineStart_le_sizeBound s f (Nat.le_refl _)
  have hcap := s.cfg.outCap.isLt
  show (BitVec.ofNat 32 (lineStart s f (f.depth * s.cfg.height.toNat))).toNat = _
  rw [BitVec.toNat_ofNat, Nat.mod_eq_of_lt (by omega), containerBody_length, ← Nat.add_assoc]
  rfl

end Sys2Proof.Machine
end

section
/-! PROOF. Bytes that are any value (R76, R77, R296): what each turn does to the marks the model keeps for them, and what
the host and the block then find in memory. -/

namespace Sys2Proof.Machine

/-! ### The host's accesses to memory (R60, R70, R103) -/

/-- A host access to addresses that exist, none of which is in the window, is performed. -/
theorem hostAccess_performed {a len : Nat} {s : State} {r : Result} (hlen : a + len ≤ 2 ^ 32)
    (hout : ∀ b, a ≤ b → b < a + len → ¬ inWindow s.plat b) : hostAccess a len s r = r := by
  obtain ⟨hfar, -⟩ | ⟨-, hmeet, -⟩ | ⟨-, -, heq⟩ := hostAccess_cases a len s r
  · exact absurd hfar (Nat.not_lt.2 hlen)
  · obtain ⟨b, -, ⟨hlo, hhi⟩, hwin⟩ := (rangesMeet_iff _ _ _ _).1 hmeet
    exact absurd hwin (hout b hlo hhi)
  · exact heq

/-- The same of one byte. -/
theorem hostAccess_one_performed {a : Nat} {s : State} {r : Result} (ha : a < 2 ^ 32)
    (hout : ¬ inWindow s.plat a) : hostAccess a 1 s r = r :=
  hostAccess_performed ha fun b hlo hhi => by
    obtain rfl : a = b := by omega
    exact hout

theorem hostByte_of_free {s : State} {a : Nat}
    (h : (busy s = true ∧ inOutput s.cfg a = true) ∨ isFree s.world.unseen a = true) :
    hostByte s a = Config.freeByte s.world.fresh a := by
  obtain ⟨-, heq⟩ | ⟨hbusy, hunseen, -⟩ := hostByte_cases s a
  · exact heq
  · obtain h | h := h
    · exact absurd h hbusy
    · rw [hunseen] at h
      cases h

theorem hostByte_of_seen {s : State} {a : Nat} (hidle : s.phase = .idle)
    (hunseen : isFree s.world.unseen a = false) (hspans : isFree s.world.spans a = false) :
    hostByte s a = Memory.read s.mem a := by
  obtain ⟨⟨hbusy, -⟩ | h | h, -⟩ | ⟨-, -, -, heq⟩ := hostByte_cases s a
  · exact absurd hidle ((busy_eq_true_iff s).1 hbusy)
  · rw [hunseen] at h
    cases h
  · rw [hspans] at h
    cases h
  · exact heq

/-- Settles O47: the access is performed, and `hostByte` says what it answers. -/
theorem outputReadWhileBusyIsFree : Obligations.OutputReadWhileBusyIsFree := by
  intro s a rest hturn hscript ha hout
  refine ⟨?_, fun hb hlo hhi => hostByte_of_free (.inl ⟨hb, (inOutput_iff _ _).2 ⟨hlo, hhi⟩⟩)⟩
  rw [step_host hturn]
  simp only [hostTurn, tick_script, hscript, hostRead]
  exact hostAccess_one_performed ha hout

/-! ### What a micro-operation does to the marks -/

/-- The model's own fields stay as they are, or an error has made the output any value to the host. -/
def KeepsOrVoids (s t : State) : Prop := t.world = s.world ∨ t.world = voidOutput s.cfg s.world

theorem answers_held {α : Type} {P : State → Prop} {r : Option α} {l : Latch} {k : α → Result}
    (hk : ∀ v, Answers P (k v)) : Answers P (held r l k) := by
  cases r with
  | none => exact answers_fault _
  | some v => exact hk v

theorem keepsOrVoids_storeSeq {a : Nat} {bs : List Byte} {s : State} {k : State → Result}
    (hk : ∀ m, Answers (KeepsOrVoids s) (k { s with mem := m })) :
    Answers (KeepsOrVoids s) (storeSeq a bs s k) := by
  obtain ⟨heq, -⟩ | ⟨_, -, heq, -⟩ := storeSeq_cases a bs s k <;> rw [heq]
  · exact hk _
  · exact answers_next.2 (.inr rfl)

theorem keepsOrVoids_emitBytes (bytes : List Byte) (need n : Nat) (d : Word) (x : BitVec 16) (s : State) :
    Answers (KeepsOrVoids s) (emitBytes bytes need n d x s) := by
  obtain ⟨-, heq⟩ | ⟨-, heq⟩ := emitBytes_cases bytes need n d x s <;> rw [heq]
  · exact answers_next.2 (.inr rfl)
  · exact keepsOrVoids_storeSeq fun _ => answers_next.2 (.inl rfl)

theorem keepsOrVoids_chosenPacket {i : Instr} {s : State} (hp : s.phase = .emit)
    (hc : chosenPacket s = .ok i) : Answers (KeepsOrVoids s) (exec i s) := by
  obtain ⟨g, x, hg, hx, -⟩ := chosenPacket_ok hc
  obtain ⟨n, -, -, ⟨v, heq⟩ | ⟨vs, heq⟩⟩ := exec_chosen_cases hp hc hg hx <;> rw [heq]
  · exact answers_held fun _ => answers_held fun _ => keepsOrVoids_emitBytes _ _ _ _ _ s
  · exact answers_held fun _ => answers_held fun _ => keepsOrVoids_emitBytes _ _ _ _ _ s

theorem keepsOrVoids_fetchLine (s : State) : Answers (KeepsOrVoids s) (fetchLine s) := by
  refine answers_held fun _ => answers_held fun _ => answers_held fun _ => ?_
  dsimp only
  split
  · exact answers_next.2 (.inr rfl)
  · exact answers_next.2 (.inl rfl)

/-- No micro-operation but FINISH does more (R76, R270). -/
theorem keepsOrVoids_sequencerTurn {s : State} (hp : s.phase ≠ .finish) :
    Answers (KeepsOrVoids s) (sequencerTurn s) := by
  unfold sequencerTurn
  cases hphase : s.phase with
  | idle => exact answers_next.2 (.inl rfl)
  | check =>
    obtain ⟨-, heq⟩ | ⟨f, -, ⟨-, heq⟩ | ⟨-, -, heq⟩ | ⟨-, -, heq⟩⟩ := checkRun_cases s <;>
      rw [heq, answers_next]
    · exact .inr rfl
    · exact .inr rfl
    · exact .inr rfl
    · exact .inl rfl
  | rowBegin =>
    exact answers_held fun _ => answers_held fun _ => answers_held fun _ =>
      keepsOrVoids_storeSeq fun _ => answers_next.2 (.inl rfl)
  | fetch => exact keepsOrVoids_fetchLine s
  | emit =>
    cases hc : chosenPacket s with
    | ok i => exact keepsOrVoids_chosenPacket hphase hc
    | error l => exact answers_fault _
  | rowEnd =>
    exact answers_held fun _ => answers_held fun _ => answers_held fun _ => answers_held fun _ =>
      answers_held fun _ => keepsOrVoids_storeSeq fun _ => answers_next.2 (.inl (advance_world _))
  | finish => exact absurd hphase hp

/-! ### What a host step does to the marks -/

/-- What one instruction does to the marks: only a read of STATUS with BUSY = 0 shows the host a finished output. -/
structure InstrMarks (i : Instr) (s t : State) : Prop where
  disturbed : busy s = true → t.world.disturbed = s.world.disturbed
  spans : s.phase = .idle → t.world.spans = s.world.spans
  unseen : t.world.unseen ≠ s.world.unseen →
    i = .regRead .status ∧ s.phase = .idle ∧ t.world.unseen = []

theorem InstrMarks.of_world_eq {i : Instr} {s t : State} (h : t.world = s.world) : InstrMarks i s t :=
  ⟨fun _ => by rw [h], fun _ => by rw [h], fun hne => absurd (by rw [h]) hne⟩

theorem instrMarks_regRead (r : Reg) (s : State) :
    Answers (InstrMarks (.regRead r) s) (exec (.regRead r) s) := by
  refine answers_next.2 ⟨fun _ => worldAfterRead_disturbed r s, fun _ => worldAfterRead_spans r s,
    fun hne => ?_⟩
  by_cases h : r = .status ∧ busy s = false
  · obtain ⟨rfl, hb⟩ := h
    exact ⟨rfl, (busy_eq_false_iff s).1 hb, congrArg World.unseen (worldAfterRead_of_idle hb)⟩
  · exact absurd (congrArg World.unseen (worldAfterRead_of_not h)) hne

theorem instrMarks_exec (i : Instr) (s : State) : Answers (InstrMarks i s) (exec i s) := by
  cases i with
  | rep8 | lit8 | rep16 | lit16 =>
    intro t ht
    obtain ⟨hp, hc⟩ := exec_packet_next (by simp [formatOf]) ht
    obtain h | h := keepsOrVoids_chosenPacket hp hc t ht
    · exact .of_world_eq h
    · exact ⟨fun _ => by rw [h]; rfl, fun hidle => absurd (hp.symm.trans hidle) (by decide),
        fun hne => absurd (by rw [h]; rfl) hne⟩
  | regRead r => exact instrMarks_regRead r s
  | cmdStart clear =>
    obtain ⟨-, heq⟩ | ⟨-, -, heq⟩ | ⟨hb, -, heq⟩ := execCmdStart_cases clear s <;>
      rw [exec_cmdStart, heq]
    · exact answers_next.2 (.of_world_eq rfl)
    · exact answers_refused _
    · exact answers_next.2 ⟨fun hbusy => absurd (hb.symm.trans hbusy) Bool.false_ne_true, fun _ => rfl,
        fun hne => absurd rfl hne⟩
  | cmdClear =>
    obtain ⟨-, heq⟩ | ⟨-, heq⟩ := execCmdClear_cases s <;>
      rw [exec_cmdClear, heq, answers_next] <;> exact .of_world_eq rfl
  | ctrlNop => exact answers_next.2 (.of_world_eq rfl)
  | regWrite r v =>
    obtain ⟨-, heq⟩ | ⟨-, heq⟩ | ⟨-, heq⟩ := execRegWrite_cases r v s <;> rw [exec_regWrite, heq]
    · exact answers_refused _
    · exact answers_next.2 (.of_world_eq rfl)
    · exact answers_next.2 (.of_world_eq rfl)

/-- Only the read key at STATUS's offset stands for a read of STATUS (R102). -/
theorem decodeKey_eq_readStatus {b : Bool} {off : BitVec 6} {data : Word}
    (h : decodeKey (accessKey b off data) = .ok (.regRead .status)) :
    b = false ∧ off = Reg.status.offset := by
  cases hr : Reg.ofOffset off with
  | none =>
    rw [decodeKey_misaligned hr] at h
    cases h
  | some r =>
    cases b with
    | false =>
      have hstatus : ∀ off : BitVec 6, Reg.ofOffset off = some .status → off = Reg.status.offset := by
        decide
      rw [decodeKey_read hr] at h
      obtain rfl : r = .status := by simpa using h
      exact ⟨rfl, hstatus off hr⟩
    | true =>
      by_cases hoff : off = 0
      · subst hoff
        rw [decodeKey_ctrl] at h
        split at h
        · cases h
        · split at h <;> cases h
      · rw [decodeKey_write hoff hr] at h
        cases h

theorem eq_of_windowOffset {p : Platform} {a : Nat} {off : BitVec 6} (h : windowOffset p a = some off) :
    a = p.regBase.toNat + off.toNat := by
  have h64 : windowEnd p = p.regBase.toNat + 64 := rfl
  unfold windowOffset at h
  split at h
  · obtain rfl := Option.some.inj h
    rw [BitVec.toNat_ofNat, Nat.mod_eq_of_lt (by omega)]
    omega
  · cases h

/-- The next line of the host's script reads STATUS. -/
def ReadsStatus (s : State) : Prop :=
  ∃ rest, s.world.script = .rd (regAddr s.plat .status) .word :: rest ∨
    ∃ mask value, s.world.script = .wait .status mask value :: rest

/-- What one step of the host does to the marks. -/
structure HostMarks (s t : State) : Prop where
  disturbed : busy s = true → s.world.disturbed = true → t.world.disturbed = true
  spans : s.phase = .idle → ∀ a, isFree s.world.spans a = false → isFree t.world.spans a = false
  unseen : t.world.unseen ≠ s.world.unseen →
    s.phase = .idle ∧ t.world.unseen = [] ∧ ReadsStatus s

theorem HostMarks.of_world_eq {s t : State} {ops : List HostOp} {v : Word}
    (h : t.world = { s.world with script := ops, hostData := v }) : HostMarks s t :=
  ⟨fun _ hd => by rw [h]; exact hd, fun _ a ha => by rw [h]; exact ha,
    fun hne => absurd (by rw [h]) hne⟩

theorem InstrMarks.hostMarks {i : Instr} {s t : State} {ops : List HostOp}
    (h : InstrMarks i (withScript ops s) t) (hread : i = .regRead .status → ReadsStatus s) :
    HostMarks s t :=
  { disturbed := fun hb hd => (h.disturbed hb).trans hd
    spans := fun hidle a ha => by rw [h.spans hidle]; exact ha
    unseen := fun hne => by
      obtain ⟨hi, hidle, hnil⟩ := h.unseen hne
      exact ⟨hidle, hnil, hread hi⟩ }

theorem isFree_cons_of_covers {p : Span} {rest : List Span} {a : Nat} (h : p.covers a = true) :
    isFree (p :: rest) a = p.free := by
  rw [isFree, if_pos h]

/-- A settled range is not free, and elsewhere nothing has changed. -/
theorem isFree_settle {spans : List Span} {a : Nat} (h : isFree spans a = false) (lo hi : Nat) :
    isFree (⟨lo, hi, false⟩ :: spans) a = false := by
  rw [isFree]
  split
  · rfl
  · exact h

theorem hostMarks_registerAccess {s : State} {isWrite : Bool} {a : Nat} {w : AccessWidth} {data : Word}
    {rest : List HostOp} (hread : isWrite = false → s.world.script = .rd a w :: rest) :
    Answers (HostMarks s) (registerAccess isWrite a w data (withScript rest s)) := by
  obtain ⟨off, i, hoff, rfl, hkey, heq⟩ | ⟨_, heq⟩ :=
    registerAccess_cases isWrite a w data (withScript rest s) <;> rw [heq]
  · refine fun t ht => (instrMarks_exec i _ t ht).hostMarks fun hi => ?_
    subst hi
    obtain ⟨hdir, rfl⟩ := decodeKey_eq_readStatus hkey
    obtain rfl : a = regAddr s.plat .status := eq_of_windowOffset hoff
    exact ⟨rest, .inl (hread hdir)⟩
  · exact answers_refused _

theorem hostMarks_hostTurn (s : State) : Answers (HostMarks s) (hostTurn s) := by
  unfold hostTurn
  cases hscript : s.world.script with
  | nil => exact answers_next.2 (.of_world_eq rfl)
  | cons op rest =>
    cases op with
    | rd a w => exact hostMarks_registerAccess fun _ => hscript
    | wr a w data => exact hostMarks_registerAccess nofun
    | wait r mask value =>
      have hread : Instr.regRead r = .regRead .status → ReadsStatus s := fun hi => by
        obtain rfl : r = .status := by simpa using hi
        exact ⟨rest, .inr ⟨mask, value, hscript⟩⟩
      dsimp only
      split
      · exact fun t ht => (instrMarks_exec _ _ t ht).hostMarks hread
      · exact fun t ht => (instrMarks_exec _ _ t ht).hostMarks (s := s) (ops := s.world.script) hread
    | waitIrq =>
      dsimp only
      split
      · exact answers_next.2 (.of_world_eq rfl)
      · exact answers_next.2 (.of_world_eq rfl)
    | mem a bs =>
      refine answers_hostAccess fun _ => answers_next.2 ⟨fun _ hd => ?_, fun _ b hb => ?_, fun hne => ?_⟩
      · show (s.world.disturbed || _) = true
        rw [hd, Bool.true_or]
      · exact isFree_settle hb _ _
      · exact absurd rfl hne
    | peek a => exact answers_hostAccess fun _ => answers_next.2 (.of_world_eq rfl)

/-! ### Steps (R76, R77, R296) -/

/-- What the host has yet to see changes only when a run finishes or the host reads that it has (R76, R296). -/
theorem unseen_step {s t : State} (h : step s = .next t) (hne : t.world.unseen ≠ s.world.unseen) :
    (nextTurn s = .sequencer ∧ s.phase = .finish) ∨
      (nextTurn s = .host ∧ s.phase = .idle ∧ t.world.unseen = [] ∧ ReadsStatus s) := by
  obtain ⟨hturn, heq⟩ | ⟨hturn, heq⟩ | ⟨-, heq⟩ := step_cases s <;> rw [heq] at h
  · exact .inr ⟨hturn, (hostMarks_hostTurn _ t h).unseen hne⟩
  · refine .inl ⟨hturn, ?_⟩
    by_contra hp
    obtain hw | hw := keepsOrVoids_sequencerTurn (s := tick s) hp t h <;> exact hne (by rw [hw]; rfl)
  · cases h
    refine absurd ?_ hne
    rw [resetBlock_world]
    split <;> rfl

/-- In IDLE no step makes a byte any value to the host again. -/
theorem spans_step_idle {s t : State} (h : step s = .next t) (hidle : s.phase = .idle) {a : Nat}
    (ha : isFree s.world.spans a = false) : isFree t.world.spans a = false := by
  obtain ⟨-, heq⟩ | ⟨-, heq⟩ | ⟨-, heq⟩ := step_cases s <;> rw [heq] at h
  · exact (hostMarks_hostTurn _ t h).spans hidle a ha
  · have hturn : sequencerTurn (tick s) = .next (tick s) := by
      simp only [sequencerTurn, tick_phase, hidle]
    rw [hturn] at h
    cases h
    exact ha
  · cases h
    have hb : busy (tick s) = false := (busy_eq_false_iff _).2 hidle
    rw [resetBlock_world, hb]
    exact ha

/-- A run that the host has disturbed stays so until it ends (R77). -/
theorem disturbed_step {s t : State} (h : step s = .next t) (hd : s.world.disturbed = true)
    (hb : busy s = true) (hreset : nextTurn s ≠ .reset) : t.world.disturbed = true := by
  obtain ⟨-, heq⟩ | ⟨-, heq⟩ | ⟨hturn, -⟩ := step_cases s
  · rw [heq] at h
    exact (hostMarks_hostTurn _ t h).disturbed hb hd
  · rw [heq] at h
    by_cases hp : s.phase = .finish
    · rw [sequencerTurn_finish (s := tick s) hp] at h
      obtain ⟨d, -, h⟩ := held_next h
      cases h
      exact hd
    · obtain hw | hw := keepsOrVoids_sequencerTurn (s := tick s) hp t h <;> rw [hw] <;> exact hd
  · exact absurd hturn hreset

/-- Settles O48: what every step does to the marks, and what FINISH leaves in them and in memory. -/
theorem outputReadableAfterDone : Obligations.OutputReadableAfterDone := by
  refine ⟨fun v v' h => ⟨unseen_step h, fun hidle _ a ha => spans_step_idle h hidle ha⟩,
    fun v a hidle hunseen hspans => hostByte_of_seen hidle hunseen hspans, ?_⟩
  intro s t d a hturn hp hd hmem hstep hlo hhi
  rw [step_sequencer hturn, sequencerTurn_finish (s := tick s) hp,
    finishRun_held (s := tick s) hd] at hstep
  cases hstep
  have hcovers : ∀ free, Span.covers ⟨outAddr s.cfg Config.headerBytes, outAddr s.cfg d.toNat, free⟩ a
      = true := fun free => by
    rw [Span.covers, Bool.and_eq_true, decide_eq_true_iff, decide_eq_true_iff]
    exact ⟨hlo, hhi⟩
  refine ⟨isFree_cons_of_covers (hcovers false), fun v hv => ⟨?_, fun hidle hspans => ?_⟩,
    fun hkept => ?_, fun hdist hcap ha => ?_⟩
  · refine hostByte_of_free (.inr ?_)
    rw [hv]
    exact isFree_cons_of_covers (hcovers true)
  · have hunseen : (worldAfterRead .status v).unseen = [] :=
      congrArg World.unseen (worldAfterRead_of_idle ((busy_eq_false_iff v).2 hidle))
    refine ⟨_, rfl, rfl, hunseen, worldAfterRead_spans .status v, hostByte_of_seen hidle ?_ ?_⟩
    · exact congrArg (isFree · a) hunseen
    · exact (congrArg (isFree · a) (worldAfterRead_spans .status v)).trans hspans
  · exact congrArg (Memory.read · a) (memoryAfterRun_of_kept (s := tick s) hkept)
  · have hread := (leavesMemory_memoryAfterRun (s := tick s) (by rw [tick_phase, hp]; decide)).2
      hdist hmem a
    rwa [if_pos ⟨hlo, lt_of_lt_of_le hhi (Nat.add_le_add_left hcap _), ha⟩] at hread

/-- Settles O50: the write touches a protected byte, and no step but reset lifts the mark it sets while BUSY. -/
theorem forbiddenWriteFreesReads : Obligations.ForbiddenWriteFreesReads := by
  intro s f a b rest hturn hb hscript ha hout hf hforbidden
  have hprotected : protectedRange s a (a + 1) = true := by
    rw [protectedRange, hf, Bool.or_eq_true]
    obtain hframe | ⟨hlo, hhi⟩ := hforbidden
    · exact .inr ((someRowMeets_iff_frameByte ..).2 ⟨a, ha, hframe, Nat.le_refl _, Nat.lt_succ_self _⟩)
    · exact .inl ((rangesMeet_iff ..).2 ⟨a, ha, ⟨Nat.le_refl _, Nat.lt_succ_self _⟩, hlo, hhi⟩)
  have hstep : step s = hostWrite a [b] (withScript rest (tick s)) := by
    rw [step_host hturn]
    simp only [hostTurn, tick_script, hscript]
  refine ⟨_, _, hstep.trans (hostAccess_one_performed ha hout), ?_, fun t hd c hc => ?_,
    fun t u hd hbusy hreset h => disturbed_step h hd hbusy hreset⟩
  · show (s.world.disturbed || (busy s && protectedRange s a (a + 1))) = true
    rw [hb, hprotected, Bool.and_true, Bool.or_true]
  · rw [memRead_of_accepts hc, blockByte, if_pos hd]

end Sys2Proof.Machine
end

section
/-! PROOF. The encoder and the decoder agree (R90-R102): control elements, sample elements and keys, each read back
from its bytes, then whole instructions. -/

namespace Sys2Proof.Machine

/-! ### Control and sample elements (R91, R94, R95) -/

/-- Bits 6:0 of the control value are the count (R91). -/
@[simp] theorem controlValue_count (k : RunKind) (n : BitVec 7) :
    (controlValue k n).extractLsb' 0 7 = n :=
  BitVec.extractLsb'_append_eq_right

/-- Bit 7 of the control value is the kind (R91). -/
theorem controlValue_getLsbD_seven (k : RunKind) (n : BitVec 7) :
    (controlValue k n).getLsbD 7 = decide (k = .lit) := by
  rw [controlValue, BitVec.getLsbD_append]
  cases k <;> rfl

theorem controlValue_rep (n : BitVec 7) : controlValue .rep n = n.setWidth 8 := by
  revert n; decide

theorem controlValue_lit (n : BitVec 7) : controlValue .lit n = 0x80 + n.setWidth 8 := by
  revert n; decide

/-- The element of a one-byte sample is the byte (R94). -/
@[simp] theorem put_one_setWidth (v : Byte) : put .one (v.setWidth 16) = [v] := by
  rw [put, BitVec.extractLsb'_setWidth_of_le (by decide), BitVec.extractLsb'_eq_self]

theorem put_two (v : Half) : put .two v = [v.extractLsb' 8 8, v.extractLsb' 0 8] := rfl

@[simp] theorem ctrl_one (k : RunKind) (n : BitVec 7) : ctrl .one k n = [controlValue k n] :=
  put_one_setWidth _

/-- A control word has the high byte 0 (R91, R96). -/
@[simp] theorem ctrl_two (k : RunKind) (n : BitVec 7) : ctrl .two k n = [0x00, controlValue k n] := by
  have hhigh : ((controlValue k n).setWidth 16).extractLsb' 8 8 = 0x00 := by
    ext i hi
    simp
  rw [ctrl, put_two, hhigh, BitVec.extractLsb'_setWidth_of_le (by decide), BitVec.extractLsb'_eq_self]

/-- The two bytes of a sample element make up the sample again (R65). -/
@[simp] theorem be16_append (v : Half) : v.extractLsb' 8 8 ++ v.extractLsb' 0 8 = v :=
  (BitVec.extractLsb'_append_extractLsb'_eq_extractLsb' (start₁ := 0) (len₁ := 8) rfl).trans
    BitVec.extractLsb'_eq_self

/-! ### Packets (R92, R93) -/

theorem takeBytes_append (vs rest : List Byte) :
    takeBytes vs.length (vs ++ rest) = some (vs, rest) := by
  induction vs with
  | nil => rfl
  | cons v vs ih => simp only [List.length_cons, List.cons_append, takeBytes, ih]

theorem takeHalves_append (vs : List Half) (rest : List Byte) :
    takeHalves vs.length (vs.flatMap (put .two) ++ rest) = some (vs, rest) := by
  induction vs with
  | nil => rfl
  | cons v vs ih =>
    simp only [List.length_cons, List.flatMap_cons, put_two, List.cons_append, List.nil_append,
      takeHalves, ih, be16_append]

/-- The samples of one-byte elements are the bytes after the control byte. -/
theorem flatMap_put_one (vs : List Byte) :
    (vs.flatMap fun v => put .one (v.setWidth 16)) = vs := by
  simp

theorem repeatCountOk_iff (n : BitVec 7) : repeatCountOk n = true ↔ 2 ≤ n.toNat := decide_eq_true_iff

theorem literalCountOk_iff (n : BitVec 7) (samples : Nat) :
    literalCountOk n samples = true ↔ 1 ≤ n.toNat ∧ samples = n.toNat := by
  rw [literalCountOk, Bool.and_eq_true, decide_eq_true_iff, beq_iff_eq]

theorem count_ne_zero {n : BitVec 7} (h : 1 ≤ n.toNat) : ¬ n = 0 := by
  rintro rfl
  exact absurd h (by decide)

section
variable {n : BitVec 7}

theorem decode_rep8 (hn : repeatCountOk n = true) (v : Byte) (rest : List Byte) :
    decodePacket8 (controlValue .rep n :: v :: rest) = .ok (.rep8 n v, rest) := by
  have hcount : ¬ n.toNat < 2 := Nat.not_lt.2 ((repeatCountOk_iff n).1 hn)
  simp only [decodePacket8, controlValue_getLsbD_seven, controlValue_count, reduceCtorEq, decide_false,
    Bool.false_eq_true, if_false, hcount]

theorem decode_lit8 {vs : List Byte} (hn : literalCountOk n vs.length = true) (rest : List Byte) :
    decodePacket8 (controlValue .lit n :: (vs ++ rest)) = .ok (.lit8 n vs, rest) := by
  obtain ⟨hpos, hlen⟩ := (literalCountOk_iff n _).1 hn
  simp only [decodePacket8, controlValue_getLsbD_seven, controlValue_count, decide_true, if_true,
    count_ne_zero hpos, if_false, ← hlen, takeBytes_append]

theorem decode_rep16 (hn : repeatCountOk n = true) (v : Half) (rest : List Byte) :
    decodePacket16 (0x00 :: controlValue .rep n :: (put .two v ++ rest)) = .ok (.rep16 n v, rest) := by
  have hcount : ¬ n.toNat < 2 := Nat.not_lt.2 ((repeatCountOk_iff n).1 hn)
  simp only [decodePacket16, controlValue_getLsbD_seven, controlValue_count, reduceCtorEq, decide_false,
    Bool.false_eq_true, if_false, hcount, ne_eq, not_true_eq_false, put_two, List.cons_append,
    List.nil_append, be16_append]

theorem decode_lit16 {vs : List Half} (hn : literalCountOk n vs.length = true) (rest : List Byte) :
    decodePacket16 (0x00 :: controlValue .lit n :: (vs.flatMap (put .two) ++ rest))
      = .ok (.lit16 n vs, rest) := by
  obtain ⟨hpos, hlen⟩ := (literalCountOk_iff n _).1 hn
  simp only [decodePacket16, controlValue_getLsbD_seven, controlValue_count, decide_true, if_true,
    count_ne_zero hpos, if_false, ne_eq, not_true_eq_false, ← hlen, takeHalves_append]

end

/-! ### Keys (R100, R102) -/

/-- The five bytes of a key make up the key again. -/
theorem keyBytes_append (key : BitVec 39) :
    ((key.extractLsb' 32 7).setWidth 8).setWidth 7 ++ key.extractLsb' 24 8 ++ key.extractLsb' 16 8
      ++ key.extractLsb' 8 8 ++ key.extractLsb' 0 8 = key := by
  have h24 : key.extractLsb' 32 7 ++ key.extractLsb' 24 8 = key.extractLsb' 24 15 :=
    BitVec.extractLsb'_append_extractLsb'_eq_extractLsb' rfl
  have h16 : key.extractLsb' 24 15 ++ key.extractLsb' 16 8 = key.extractLsb' 16 23 :=
    BitVec.extractLsb'_append_extractLsb'_eq_extractLsb' rfl
  have h8 : key.extractLsb' 16 23 ++ key.extractLsb' 8 8 = key.extractLsb' 8 31 :=
    BitVec.extractLsb'_append_extractLsb'_eq_extractLsb' rfl
  have h0 : key.extractLsb' 8 31 ++ key.extractLsb' 0 8 = key.extractLsb' 0 39 :=
    BitVec.extractLsb'_append_extractLsb'_eq_extractLsb' rfl
  rw [BitVec.setWidth_setWidth_of_le _ (by decide), BitVec.setWidth_eq, h24, h16, h8, h0,
    BitVec.extractLsb'_eq_self]

/-- The decoder reads a key from its bytes, and answers as the key does. -/
theorem decodeAccess_keyBytes (key : BitVec 39) (rest : List Byte) :
    decodeAccess (keyBytes key ++ rest) = (decodeKey key).map (·, rest) := by
  have hwide : ((key.extractLsb' 32 7).setWidth 8).getLsbD 7 = false := by simp
  simp only [keyBytes, List.cons_append, List.nil_append, decodeAccess, hwide, Bool.false_eq_true,
    if_false, keyBytes_append]
  cases decodeKey key <;> rfl

theorem decodeAccess_ok {key : BitVec 39} {i : Instr} (h : decodeKey key = .ok i) (rest : List Byte) :
    decodeAccess (keyBytes key ++ rest) = .ok (i, rest) := by
  rw [decodeAccess_keyBytes, h]
  rfl

/-- A command's data word has START in bit 0 and CLEAR in bit 1 (R22). -/
theorem commandData_bits (start clear : Bool) :
    (commandData start clear).getLsbD 0 = start ∧ (commandData start clear).getLsbD 1 = clear := by
  cases start <;> cases clear <;> decide

/-- The key of a command stands for it (R100). -/
theorem decodeKey_command (start clear : Bool) :
    decodeKey (accessKey true Reg.ctrl.offset (commandData start clear)) = .ok
      (if start = true then .cmdStart clear else if clear = true then .cmdClear else .ctrlNop) := by
  obtain ⟨hstart, hclear⟩ := commandData_bits start clear
  have := decodeKey_ctrl (commandData start clear)
  rwa [hstart, hclear] at this

/-- Settles O1: by the instruction's row, from its control value or its key. -/
theorem decodeEncodeRoundTrip : Obligations.DecodeEncodeRoundTrip := by
  intro i rest hwf
  cases i with
  | rep8 n v =>
    rw [encode, ctrl_one, put_one_setWidth]
    exact decode_rep8 hwf v rest
  | lit8 n vs =>
    rw [encode, ctrl_one, flatMap_put_one]
    exact decode_lit8 hwf rest
  | rep16 n v =>
    rw [encode, ctrl_two]
    exact decode_rep16 hwf v rest
  | lit16 n vs =>
    rw [encode, ctrl_two]
    exact decode_lit16 hwf rest
  | regRead r => exact decodeAccess_ok (decodeKey_read (ofOffset_offset r) 0) rest
  | cmdStart clear => exact decodeAccess_ok (decodeKey_command true clear) rest
  | cmdClear => exact decodeAccess_ok (decodeKey_command false true) rest
  | ctrlNop => exact decodeAccess_ok (decodeKey_command false false) rest
  | regWrite r v =>
    have hctrl : r ≠ .ctrl := bne_iff_ne.1 hwf
    exact decodeAccess_ok (decodeKey_write (offset_ne_zero hctrl) (ofOffset_offset r) v) rest

/-- Settles O2. -/
theorem specWordsDecode : Obligations.SpecWordsDecode := by
  refine ⟨rfl, rfl, rfl, rfl, ?_, ?_, ?_, ?_, ?_, ?_⟩
  · exact decodeKey_read (off := 0x04) (r := .status) rfl 0
  · exact decodeKey_ctrl 1
  · exact decodeKey_ctrl 3
  · exact decodeKey_ctrl 2
  · exact decodeKey_ctrl 0
  · exact decodeKey_write (off := 0x0C) (r := .width) (by decide) rfl 2

/-! ### A register access placed to run next (log 11) -/

theorem extractLsb'_ofNat {m w k len : Nat} (hw : w < 2 ^ m) :
    (BitVec.ofNat m w).extractLsb' k len = BitVec.ofNat len (w / 2 ^ k) := by
  apply BitVec.eq_of_toNat_eq
  rw [BitVec.extractLsb'_toNat, BitVec.toNat_ofNat, BitVec.toNat_ofNat, Nat.mod_eq_of_lt hw,
    Nat.shiftRight_eq_div_pow]

/-- The bytes of a table word are those of its key (log 20). -/
theorem littleEndian_eq_keyBytes {w : Nat} (hw : w < 2 ^ 39) :
    littleEndian 5 w = keyBytes (BitVec.ofNat 39 w) := by
  have htop : (BitVec.ofNat 7 (w / 2 ^ 32)).setWidth 8 = BitVec.ofNat 8 (w / 2 ^ 32) := by
    apply BitVec.eq_of_toNat_eq
    simp
    omega
  simp only [keyBytes, extractLsb'_ofNat hw, htop, littleEndian, Nat.div_div_eq_div_mul,
    pow_zero, Nat.div_one]
  rfl

/-- A table word that is a register access stands for its key's instruction. -/
theorem decodeKey_of_decodeTableWord {w : Nat} {i : Instr} (hw : w < 2 ^ 39)
    (h : decodeTableWord 40 w = some i) : decodeKey (BitVec.ofNat 39 w) = .ok i := by
  have hread := decodeAccess_keyBytes (BitVec.ofNat 39 w) []
  rw [List.append_nil, ← littleEndian_eq_keyBytes hw] at hread
  have hformat : decode (tableFormat 40) (tableBytes 40 w) = decodeAccess (littleEndian 5 w) := rfl
  rw [decodeTableWord, hformat, hread] at h
  cases hkey : decodeKey (BitVec.ofNat 39 w) with
  | ok j =>
    rw [hkey] at h
    exact congrArg _ (Option.some.inj h)
  | error e =>
    rw [hkey] at h
    cases h

/-- A key is the access of its direction, offset and data (R102). -/
theorem accessKey_fields {key : BitVec 39} (hwrite : key.getLsbD 38 = true) :
    accessKey true (keyOffset key) (keyData key) = key := by
  apply BitVec.eq_of_getLsbD_eq
  intro k hk
  rw [accessKey_getLsbD, keyOffset, keyData, BitVec.getLsbD_extractLsb', BitVec.getLsbD_extractLsb']
  split
  · rename_i hlow
    simp [hlow]
  · split
    · have hbit : k - 32 < 6 := by omega
      have hadd : 32 + (k - 32) = k := by omega
      simp [hbit, hadd]
    · obtain rfl : k = 38 := by omega
      simp [hwrite]

/-- Of a read key only the direction and the offset count (R102). -/
theorem decodeKey_read_data {key : BitVec 39} (hread : key.getLsbD 38 = false) :
    decodeKey (accessKey false (keyOffset key) 0) = decodeKey key := by
  have hrow : rowAccepts 0x4000000000 0x0000000000 key = true := by
    have hmask : ∀ k < 39, (0x4000000000 : BitVec 39).getLsbD k = true → k = 38 := by decide
    refine (rowAccepts_iff (by decide)).2 fun k hk hm => ?_
    obtain rfl := hmask k hk hm
    exact hread
  rw [decodeKey, decodeKey, if_pos hrow, if_pos ((rowAccepts_read_iff ..).2 rfl), keyOffset_accessKey]

theorem windowOffset_add (p : Platform) (off : BitVec 6) :
    windowOffset p (p.regBase.toNat + off.toNat) = some off := by
  have hoff := off.isLt
  rw [windowOffset, if_pos ⟨Nat.le_add_right _ _, Nat.add_lt_add_left hoff _⟩, Nat.add_sub_cancel_left,
    BitVec.ofNat_toNat, BitVec.setWidth_eq]

/-- The line of the script that a placed key is. -/
theorem placeAccess_script (key : BitVec 39) (s : State) :
    (placeAccess key s).world.script = keyAccess s.plat key :: s.world.script := rfl

/-- Settles O7: the placed line is the key's access, which the host's turn performs. -/
theorem placedAccessRunsNext : Obligations.PlacedAccessRunsNext := by
  intro s w i hw h
  have hkey := decodeKey_of_decodeTableWord hw h
  have hplace : State.withFetchWord s 40 w = placeAccess (BitVec.ofNat 39 w) s := rfl
  rw [hplace]
  generalize BitVec.ofNat 39 w = key at hkey
  obtain ⟨hwrite, hread⟩ := stepRunsHostAccess (placeAccess key s) _ (keyData key) s.world.script
    (keyOffset key) i rfl (windowOffset_add s.plat (keyOffset key))
  by_cases hdir : key.getLsbD 38 = true
  · refine hwrite ?_ ((congrArg decodeKey (accessKey_fields hdir)).trans hkey)
    rw [placeAccess_script, keyAccess, if_pos hdir]
  · refine hread ?_ ((decodeKey_read_data (Bool.eq_false_of_not_eq_true hdir)).trans hkey)
    rw [placeAccess_script, keyAccess, if_neg hdir]

end Sys2Proof.Machine
end

section
/-! PROOF. The packets the run detector chooses (R150-R156): each is well formed, stands for the samples it was chosen
for, and is stored as the emitter writes it (R176-R178). -/

namespace Sys2Proof.Machine

/-! ### What a packet stands for (R10, R92, R93) -/

theorem formatOf_packetOf (w : ElementWidth) (k : RunKind) (n : Nat) (v : Half) (vs : List Half) :
    formatOf (packetOf w k n v vs) = packetFormat w := by
  cases w <;> cases k <;> rfl

/-- A packet of a count the detector can answer is well formed. -/
theorem wf_packetOf {w : ElementWidth} {k : RunKind} {n : Nat} {vs : List Half} (hpos : 1 ≤ n)
    (hmax : n ≤ 127) (hrep : k = .rep → 2 ≤ n) (hvs : vs.length = n) (v : Half) :
    (packetOf w k n v vs).wf = true := by
  have hcount := toNat_ofNat_count hmax
  cases k with
  | rep =>
    have hok : repeatCountOk (BitVec.ofNat 7 n) = true := (repeatCountOk_iff _).2 (hcount.symm ▸ hrep rfl)
    cases w <;> exact hok
  | lit =>
    have hok : literalCountOk (BitVec.ofNat 7 n) vs.length = true :=
      (literalCountOk_iff _ _).2 ⟨hcount.symm ▸ hpos, hvs.trans hcount.symm⟩
    cases w
    · rw [packetOf, Instr.wf, List.length_map]
      exact hok
    · exact hok

/-- A packet stands for as many samples as its count. -/
theorem packetSamples_length {w : ElementWidth} {n : Nat} {vs : List Half} (hmax : n ≤ 127)
    (hvs : vs.length = n) (k : RunKind) (v : Half) :
    (packetSamples (packetOf w k n v vs)).length = n := by
  have hcount := toNat_ofNat_count hmax
  cases w <;> cases k
  · exact List.length_replicate.trans hcount
  · rw [packetOf, packetSamples, List.length_map, List.length_map, hvs]
  · exact List.length_replicate.trans hcount
  · exact hvs

/-- A sample that fits in a byte is its low byte (R36). -/
theorem lowByte_setWidth {v : Half} (h : v.toNat < 256) : (lowByte v).setWidth 16 = v := by
  apply BitVec.eq_of_toNat_eq
  rw [lowByte, BitVec.toNat_setWidth, BitVec.extractLsb'_toNat]
  omega

theorem map_lowByte_setWidth {vs : List Half} (h : ∀ v ∈ vs, v.toNat < 256) :
    (vs.map lowByte).map (·.setWidth 16) = vs := by
  rw [List.map_map]
  exact (List.map_congr_left fun v hv => lowByte_setWidth (h v hv)).trans (List.map_id' vs)

/-- A literal packet stands for its samples, a repeat packet for copies of its one (R92, R93). -/
theorem packetSamples_packetOf {w : ElementWidth} {k : RunKind} {n : Nat} {v : Half} {vs : List Half}
    (hmax : n ≤ 127) (hv : w = .one → v.toNat < 256) (hvs : w = .one → ∀ u ∈ vs, u.toNat < 256) :
    packetSamples (packetOf w k n v vs)
      = match k with
        | .rep => List.replicate n v
        | .lit => vs := by
  have hcount := toNat_ofNat_count hmax
  cases w <;> cases k
  · rw [packetOf, packetSamples, hcount, lowByte_setWidth (hv rfl)]
  · exact map_lowByte_setWidth (hvs rfl)
  · rw [packetOf, packetSamples, hcount]
  · rfl

/-! ### The samples of a repeat packet (R152) -/

/-- The loop of `countRepeat` counts no sample that differs from the first. -/
theorem countRepeatLoop_same {sl : List Half} {x : Nat} (fuel : Nat) {r : Nat} (hr : 1 ≤ r)
    (hsame : ∀ j < r, sl[x + j]? = sl[x]?) :
    ∀ j < countRepeatLoop sl x fuel r, sl[x + j]? = sl[x]? := by
  induction fuel generalizing r with
  | zero => exact hsame
  | succ fuel ih =>
    rw [countRepeatLoop]
    split
    · rename_i hnext
      refine ih (by omega) fun j hj => ?_
      obtain hlt | rfl := Nat.lt_succ_iff_lt_or_eq.1 hj
      · exact hsame j hlt
      · have hstep : sl[x + j - 1]? = sl[x + j - 1 + 1]? := eq_of_beq hnext
        rw [show x + j - 1 + 1 = x + j by omega, show x + j - 1 = x + (j - 1) by omega] at hstep
        rw [← hstep, hsame (j - 1) (by omega)]
    · exact hsame

theorem countRepeat_same (sl : List Half) (width x : Nat) :
    ∀ j < countRepeat sl width x, sl[x + j]? = sl[x]? :=
  countRepeatLoop_same _ (Nat.le_refl 1) fun j hj => by rw [Nat.lt_one_iff.1 hj]; rfl

theorem detect_rep {p : ScanPolicy} {sl : List Half} {w : ElementWidth} {width x : Nat}
    (h : (detect p sl w width x).1 = .rep) : (detect p sl w width x).2 = countRepeat sl width x := by
  unfold detect at h ⊢
  dsimp only at h ⊢
  split at h
  · rw [if_pos ‹_›]
  · cases h

/-- Identical samples from a position on are copies of one. -/
theorem take_drop_eq_replicate {sl : List Half} {x n : Nat} {v : Half}
    (hsame : ∀ j < n, sl[x + j]? = some v) : (sl.drop x).take n = List.replicate n v := by
  apply List.ext_getElem?
  intro j
  rw [List.getElem?_take, List.getElem?_replicate, List.getElem?_drop]
  split
  · exact hsame j ‹_›
  · rfl

/-! ### The packet at a position (R155) -/

section
variable {p : ScanPolicy} {sl : List Half} {w : ElementWidth} {width x : Nat} {i : Instr}

/-- The packet at a position is a well-formed packet of the run's element width, of the detector's count. -/
theorem packetAt_wf (h : packetAt p sl w width x = some i) :
    i.wf = true ∧ formatOf i = packetFormat w ∧ (packetSamples i).length = (detect p sl w width x).2 := by
  obtain ⟨hpos, hmax, -, -⟩ := packetAt_cases h
  obtain ⟨hlt, hle, v, -, rfl⟩ := packetAt_some h
  obtain ⟨-, hlim, hrep⟩ := detect_bounds p sl w hlt
  have hrest := (runLimit_le width x).2
  have hlen : ((sl.drop x).take (detect p sl w width x).2).length = (detect p sl w width x).2 := by
    rw [List.length_take, List.length_drop]
    omega
  exact ⟨wf_packetOf hpos hmax hrep hlen v, formatOf_packetOf .., packetSamples_length hmax hlen _ v⟩

/-- The packet at a position stands for the samples from there on that it counts (R156). -/
theorem packetAt_samples (h : packetAt p sl w width x = some i)
    (hlow : w = .one → ∀ v ∈ sl, v.toNat < 256) :
    packetSamples i = (sl.drop x).take (detect p sl w width x).2 := by
  obtain ⟨-, hmax, -, -⟩ := packetAt_cases h
  obtain ⟨-, -, v, hv, rfl⟩ := packetAt_some h
  rw [packetSamples_packetOf hmax (fun hw => hlow hw v (List.mem_of_getElem? hv))
    fun hw u hu => hlow hw u (List.mem_of_mem_drop (List.mem_of_mem_take hu))]
  split
  · rename_i hk
    rw [take_drop_eq_replicate fun j hj => ?_]
    rw [← hv]
    exact countRepeat_same sl width x j (detect_rep hk ▸ hj)
  · rfl

end

/-! ### Reading a scanline's encoding back (R156, R178) -/

/-- A well-formed instruction has at least one byte. -/
theorem encode_ne_nil (i : Instr) : encode i ≠ [] := by
  cases i <;> simp [encode, keyBytes]

@[simp] theorem readLine_nil (w : ElementWidth) (fuel : Nat) : readLine w fuel [] = some [] := by
  cases fuel <;> rfl

/-- The reader takes a packet's samples off the front of the bytes. -/
theorem readLine_encode {w : ElementWidth} {fuel : Nat} {i : Instr} {rest : List Byte} {vs : List Half}
    (hwf : i.wf = true) (hformat : formatOf i = packetFormat w) (hrest : readLine w fuel rest = some vs) :
    readLine w (fuel + 1) (encode i ++ rest) = some (packetSamples i ++ vs) := by
  have hdecode := decodeEncodeRoundTrip i rest hwf
  rw [hformat] at hdecode
  obtain ⟨b, bs, hbytes⟩ := List.exists_cons_of_ne_nil
    (List.append_ne_nil_of_left_ne_nil (encode_ne_nil i) rest)
  rw [hbytes] at hdecode ⊢
  simp only [readLine, hdecode, hrest]
  rfl

/-- The rest of a scanline's encoding reads back as the rest of the scanline. -/
theorem readLine_encodeFrom (p : ScanPolicy) {w : ElementWidth} {sl : List Half}
    (hlow : w = .one → ∀ v ∈ sl, v.toNat < 256) {fuel x : Nat} (hfuel : sl.length - x ≤ fuel) :
    readLine w fuel (encodeFrom p sl w sl.length fuel x) = some (sl.drop x) := by
  induction fuel generalizing x with
  | zero =>
    rw [List.drop_eq_nil_of_le (Nat.le_of_sub_eq_zero (Nat.le_zero.1 hfuel))]
    rfl
  | succ fuel ih =>
    by_cases hx : x < sl.length
    · obtain ⟨i, hi⟩ := Option.isSome_iff_exists.1
        (packetAt_isSome (p := p) (w := w) hx (Nat.le_refl _))
      obtain ⟨hwf, hformat, -⟩ := packetAt_wf hi
      obtain ⟨hpos, -⟩ := packetAt_cases hi
      rw [encodeFrom_packet hi, readLine_encode hwf hformat (ih (by omega)),
        packetAt_samples hi hlow, ← List.drop_drop, List.take_append_drop]
    · have hend := Nat.le_of_not_lt hx
      rw [encodeFrom_end p sl w sl.length hend, readLine_nil, List.drop_eq_nil_of_le hend]

/-- Settles O42: packet by packet. -/
theorem encodedLineReadsBack : Obligations.EncodedLineReadsBack :=
  fun p _ _ hlow => readLine_encodeFrom p hlow (Nat.sub_le _ _)

/-! ### Control values never emitted (R96) -/

/-- A count of at least 1, and of at least 2 in a repeat packet, makes none of R96's values. -/
theorem controlValue_not_reserved {k : RunKind} {n : BitVec 7} (hpos : 1 ≤ n.toNat)
    (hrep : k = .rep → 2 ≤ n.toNat) :
    controlValue k n ≠ 0x00 ∧ controlValue k n ≠ 0x01 ∧ controlValue k n ≠ 0x80 := by
  have hzero : ∀ c : Byte, c.extractLsb' 0 7 = 0 → controlValue k n ≠ c := by
    rintro _ hc rfl
    exact count_ne_zero hpos ((controlValue_count k n).symm.trans hc)
  refine ⟨hzero _ rfl, fun h => ?_, hzero _ rfl⟩
  cases k with
  | rep =>
    have hone : n = 1 := (controlValue_count .rep n).symm.trans (congrArg (BitVec.extractLsb' 0 7) h)
    exact absurd (hrep rfl) (by rw [hone]; decide)
  | lit =>
    have hbit := controlValue_getLsbD_seven .lit n
    rw [h] at hbit
    exact absurd hbit (by decide)

/-- A packet begins with its control element (R90). -/
theorem encode_packetOf (w : ElementWidth) (k : RunKind) (n : Nat) (v : Half) (vs : List Half) :
    ∃ bs, encode (packetOf w k n v vs) = ctrl w k (BitVec.ofNat 7 n) ++ bs := by
  cases w <;> cases k <;> exact ⟨_, rfl⟩

/-- Settles O4: the detector answers no count of 0, and no repeat count of 1. -/
theorem neverEmitsReservedControl : Obligations.NeverEmitsReservedControl := by
  intro s i g hc hg
  obtain ⟨g', x, hg', -, hpacket⟩ := chosenPacket_ok hc
  obtain rfl : g = g' := Option.some.inj (hg.symm.trans hg')
  obtain ⟨hpos, hmax, -⟩ := packetAt_cases hpacket
  obtain ⟨hlt, -, v, -, rfl⟩ := packetAt_some hpacket
  obtain ⟨-, -, hrep⟩ := detect_bounds s.plat.policy s.sl g.width hlt
  have hcount := toNat_ofNat_count hmax
  obtain ⟨bs, hbytes⟩ := encode_packetOf g.width
    (detect s.plat.policy s.sl g.width s.cfg.width.toNat x.toNat).1 _ v _
  have hcontrol := controlValue_not_reserved (hcount.symm ▸ hpos) fun hk => hcount.symm ▸ hrep hk
  rw [hbytes]
  constructor <;> intro hw
  · refine ⟨_, bs, ?_, hcontrol⟩
    rw [hw, ctrl_one]
    rfl
  · refine ⟨_, bs, ?_, hcontrol⟩
    rw [hw, ctrl_two]
    rfl

/-! ### The packet as it is stored (R174, R176, R177) -/

theorem chosenPacket_wf {s : State} {i : Instr} (h : chosenPacket s = .ok i) : i.wf = true := by
  obtain ⟨g, x, -, -, hpacket⟩ := chosenPacket_ok h
  exact (packetAt_wf hpacket).1

/-- The chosen packet, where there is room for it and the bus accepts its bytes: they are stored at the data cursor,
and the cursor and the position move past them (R174, R220). -/
theorem exec_chosen_stores {s : State} {i : Instr} {d : Word} {x : BitVec 16} {n : BitVec 7}
    {bs : List Byte} {len : Nat} (hp : s.phase = .emit) (hmem : Memory.wf s.mem) (hd : s.dcur = some d)
    (hx : s.x = some x) (hc : chosenPacket s = .ok i) (hbytes : encode i = bs) (hlen : bs.length = len)
    (hn : (packetSamples i).length = n.toNat) (hroom : d.toNat + len ≤ s.cfg.outCap.toNat)
    (hok : acceptsWrites s.plat (s.cfg.outBase.toNat + d.toNat) len) :
    ∃ m, exec i s = .next { s with
        mem := m
        dcur := some (d + BitVec.ofNat 32 len)
        x := some (x + n.setWidth 16)
        phase := if x.toNat + n.toNat = s.cfg.width.toNat then .rowEnd else .emit } ∧
      stores s.mem m (s.cfg.outBase.toNat + d.toNat) bs := by
  subst hlen
  obtain ⟨g, x', hg, hx', hpacket⟩ := chosenPacket_ok hc
  obtain rfl : x = x' := Option.some.inj (hx.symm.trans hx')
  have hcount := (packetAt_wf hpacket).2.2
  have hcursor : BitVec.ofNat 32 (d.toNat + bs.length) = d + BitVec.ofNat 32 bs.length := by
    rw [BitVec.ofNat_add, BitVec.ofNat_toNat, BitVec.setWidth_eq]
  have hposition : BitVec.ofNat 16 (x.toNat + n.toNat) = x + n.setWidth 16 := by
    rw [BitVec.ofNat_add, BitVec.ofNat_toNat, BitVec.ofNat_toNat, BitVec.setWidth_eq]
  refine ⟨_, ?_, stores_writeList hmem hok⟩
  rw [exec_chosen_eq hp hg hd hx hc, ← hcount, hn, hbytes]
  obtain ⟨hfull, -⟩ | ⟨-, heq⟩ := emitBytes_cases bs bs.length n.toNat d x s
  · have : s.cfg.outCap.toNat - d.toNat < bs.length := of_decide_eq_true hfull
    omega
  · rw [heq, hcursor, hposition]
    exact storeSeq_of_accepts hok

theorem encode_rep8 (n : BitVec 7) (v : Byte) : encode (.rep8 n v) = [n.setWidth 8, v] := by
  rw [encode, ctrl_one, put_one_setWidth, controlValue_rep]
  rfl

theorem encode_rep16 (n : BitVec 7) (v : Half) :
    encode (.rep16 n v) = [0x00, n.setWidth 8, v.extractLsb' 8 8, v.extractLsb' 0 8] := by
  rw [encode, ctrl_two, controlValue_rep]
  rfl

theorem encode_lit8 (n : BitVec 7) (vs : List Byte) :
    encode (.lit8 n vs) = (0x80 + n.setWidth 8) :: vs := by
  rw [encode, ctrl_one, flatMap_put_one, controlValue_lit]
  rfl

theorem encode_lit16 (n : BitVec 7) (vs : List Half) :
    encode (.lit16 n vs)
      = 0x00 :: (0x80 + n.setWidth 8) :: vs.flatMap fun v => [v.extractLsb' 8 8, v.extractLsb' 0 8] := by
  rw [encode, ctrl_two, controlValue_lit]
  rfl

/-- Settles O34. -/
theorem emitRepeatStoresPacket : Obligations.EmitRepeatStoresPacket := by
  intro s d x n hp hmem hd hx
  constructor <;> intro v hc hroom hok
  · exact exec_chosen_stores hp hmem hd hx hc (encode_rep8 n v) rfl List.length_replicate hroom hok
  · exact exec_chosen_stores hp hmem hd hx hc (encode_rep16 n v) rfl List.length_replicate hroom hok

/-- Settles O35: the chosen packet is well formed, so that it has as many samples as its count. -/
theorem emitLiteralStoresPacket : Obligations.EmitLiteralStoresPacket := by
  intro s d x n hp hmem hd hx
  constructor <;> intro vs hc hroom hok
  · have hwf := chosenPacket_wf hc
    have hcount : vs.length = n.toNat := ((literalCountOk_iff n _).1 hwf).2
    have hlen := Laws.EncodeLength.lit8 n vs hwf
    rw [encode_lit8] at hlen
    exact ⟨hlen, exec_chosen_stores hp hmem hd hx hc (encode_lit8 n vs) hlen
      ((List.length_map _).trans hcount) hroom hok⟩
  · have hwf := chosenPacket_wf hc
    have hcount : vs.length = n.toNat := ((literalCountOk_iff n _).1 hwf).2
    have hlen := Laws.EncodeLength.lit16 n vs hwf
    rw [encode_lit16] at hlen
    exact ⟨hlen, exec_chosen_stores hp hmem hd hx hc (encode_lit16 n vs) hlen hcount hroom hok⟩

end Sys2Proof.Machine
end

section
/-! PROOF. A host write to memory (R77, R103, R247): what it stores, and when it leaves a run undisturbed. -/

namespace Sys2Proof.Machine

/-- Bytes written to addresses that exist are stored, and nothing else changes. -/
theorem stores_writeList_of_exists {m : Memory} {a : Nat} {bs : List Byte} (h : Memory.wf m)
    (hlen : a + bs.length ≤ Config.addressSpace) : stores m (Memory.writeList m a bs) a bs := by
  constructor
  · intro k b hb
    have hk : k < bs.length := (List.getElem?_eq_some_iff.1 hb).1
    rw [Memory.read_writeList hlen h, if_pos (by omega), Nat.add_sub_cancel_left, List.getD, hb]
    rfl
  · intro b hb
    rw [Memory.read_writeList hlen h, if_neg hb]

/-- A range is protected where an address in it that exists is a source byte of the frame, or an output byte at container
offset 512 or more (R77, R247). -/
theorem protectedRange_iff (s : State) (lo hi : Nat) :
    protectedRange s lo hi = true ↔ ∃ b < 2 ^ 32, (lo ≤ b ∧ b < hi) ∧
      ((s.cfg.outBase.toNat + 512 ≤ b ∧ b < s.cfg.outBase.toNat + s.cfg.outCap.toNat) ∨
        ∃ f, legalFormat s.cfg = some f ∧ isFrameByte s.cfg f b) := by
  have hout : rangesMeet lo hi (outAddr s.cfg Config.headerBytes) (outAddr s.cfg s.cfg.outCap.toNat) = true ↔
      ∃ b < 2 ^ 32, (lo ≤ b ∧ b < hi) ∧
        s.cfg.outBase.toNat + 512 ≤ b ∧ b < s.cfg.outBase.toNat + s.cfg.outCap.toNat :=
    rangesMeet_iff _ _ _ _
  unfold protectedRange
  rw [Bool.or_eq_true, hout]
  cases legalFormat s.cfg with
  | none => simp
  | some f =>
    simp only [someRowMeets_iff_frameByte, Option.some.injEq, exists_eq_left']
    constructor
    · rintro (⟨b, hb, hrange, hbuffer⟩ | ⟨b, hb, hframe, hrange⟩)
      · exact ⟨b, hb, hrange, .inl hbuffer⟩
      · exact ⟨b, hb, hrange, .inr hframe⟩
    · rintro ⟨b, hb, hrange, hbuffer | hframe⟩
      · exact .inl ⟨b, hb, hrange, hbuffer⟩
      · exact .inr ⟨b, hb, hframe, hrange⟩

/-- Settles O51: the access is performed, and disturbs a run only where it is BUSY and the range is protected. -/
theorem hostWriteStoresBytes : Obligations.HostWriteStoresBytes := by
  intro s a bs rest hturn hmem hscript hlen hout
  have hstep : step s = hostWrite a bs (withScript rest (tick s)) := by
    rw [step_host hturn]
    simp only [hostTurn, tick_script, hscript]
  refine ⟨_, _, hstep.trans (hostAccess_performed hlen hout), stores_writeList_of_exists hmem hlen, rfl,
    fun hidle => ?_, fun hfree => ?_⟩
  · show (s.world.disturbed || (busy s && protectedRange s a (a + bs.length))) = s.world.disturbed
    rw [hidle, Bool.false_and, Bool.or_false]
  · have hprotected : protectedRange s a (a + bs.length) = false := by
      refine Bool.eq_false_of_not_eq_true fun h => ?_
      obtain ⟨b, -, ⟨hlo, hhi⟩, hbuffer | ⟨f, hf, hframe⟩⟩ := (protectedRange_iff ..).1 h
      · exact (hfree b hlo hhi).2 hbuffer
      · exact (hfree b hlo hhi).1 f hf hframe
    show (s.world.disturbed || (busy s && protectedRange s a (a + bs.length))) = s.world.disturbed
    rw [hprotected, Bool.and_false, Bool.or_false]

end Sys2Proof.Machine
end

section
/-! PROOF. Sizes (R124-R130): the length of one encoded scanline, the range of the size bound, and that the bound leaves
room for every packet of a run. -/

namespace Sys2Proof.Machine

/-! ### One scanline (R128, R130) -/

/-- A scanline with a sample has a first packet, which alone takes `2*B` bytes (R130). -/
theorem encodeScanline_length_ge (p : ScanPolicy) (w : ElementWidth) {sl : List Half} (h : sl ≠ []) :
    2 * elementBytes w ≤ (encodeScanline p sl w).length := by
  have hpos : 0 < sl.length := List.length_pos_iff.2 h
  obtain ⟨fuel, hfuel⟩ := Nat.exists_eq_succ_of_ne_zero hpos.ne'
  obtain ⟨i, hi⟩ := Option.isSome_iff_exists.1
    (packetAt_isSome (p := p) (w := w) hpos (Nat.le_refl sl.length))
  have hfirst : encodeScanline p sl w
      = encode i ++ encodeFrom p sl w sl.length fuel (0 + (detect p sl w sl.length 0).2) := by
    rw [← encodeFrom_packet hi, ← Nat.succ_eq_add_one, ← hfuel, encodeScanline]
  rw [hfirst, List.length_append]
  exact (packetAt_length_bounds hi).1.trans (Nat.le_add_right _ _)

/-- Each sample of a scanline takes at most `2*B` bytes (R128). -/
theorem encodeScanline_length_le (p : ScanPolicy) (w : ElementWidth) (sl : List Half) :
    (encodeScanline p sl w).length ≤ 2 * sl.length * elementBytes w := by
  rw [Nat.mul_right_comm]
  exact encodeFrom_length_le sl.length 0

/-- Settles O43: the first packet gives the lower bound (R130), and the sum over the packets the upper (R128). -/
theorem encodedLineLength : Obligations.EncodedLineLength :=
  fun p w sl h => ⟨encodeScanline_length_ge p w h, encodeScanline_length_le p w sl⟩

/-! ### The range of the size bound (R125) -/

/-- The bound of the smallest configuration (R125). -/
theorem le_sizeBound {f : PixelFormat} {width height : Nat} (hdepth : 1 ≤ f.depth)
    (hwidth : 1 ≤ width) (hheight : 1 ≤ height) : 523 ≤ sizeBound f width height := by
  have hB := (elementBytes_pos f.width).1
  have hlines : 1 * 1 ≤ f.depth * height := Nat.mul_le_mul hdepth hheight
  have hdata : 1 * 3 * 1 ≤ f.depth * height * (2 * width + 1) * elementBytes f.width :=
    Nat.mul_le_mul (Nat.mul_le_mul hlines (by omega)) hB
  rw [sizeBound_eq, Nat.mul_assoc 4]
  omega

/-- The smallest legal configuration: one gray pixel of one byte (R125). -/
def smallestConfig : ConfigRegs := { ConfigRegs.reset with width := 1, height := 1 }

/-- The largest legal configuration: four channels of two bytes (R125). -/
def largestConfig : ConfigRegs := { ConfigRegs.reset with fmt := 8, width := 65535, height := 65535 }

/-- Settles O11. -/
theorem sizeBoundRange : Obligations.SizeBoundRange := by
  refine ⟨fun c f hf => ?_, ?_, ?_⟩
  · obtain ⟨hres, hrow⟩ := (legalFormat_some_iff c f).1 hf
    obtain ⟨⟨hw, hw'⟩, hh, hh'⟩ := (legalResolution_iff c).1 hres
    obtain ⟨hdepth, hdepth'⟩ := formatRow_depth hrow
    have hcap := c.outCap.isLt
    exact ⟨le_sizeBound hdepth hw hh, sizeBound_le hdepth' hw' hh', fun habove => by omega⟩
  · exact ⟨smallestConfig, ⟨1, .one, .be⟩, by decide⟩
  · exact ⟨largestConfig, ⟨4, .two, .be⟩, by decide⟩

/-! ### Room for every packet (R128, R129) -/

/-- The bound leaves room for the worst case of every scanline (R124, R128). -/
theorem lineCeiling_le_sizeBound {c : ConfigRegs} {f : PixelFormat} {i : Nat}
    (hi : i ≤ f.depth * c.height.toNat) :
    lineCeiling c f i ≤ sizeBound f c.width.toNat c.height.toNat := by
  rw [lineCeiling, sizeBound, dataStart]
  refine Nat.add_le_add_left ?_ _
  calc 2 * elementBytes f.width * c.width.toNat * i
      ≤ 2 * elementBytes f.width * c.width.toNat * (f.depth * c.height.toNat) :=
        Nat.mul_le_mul_left _ hi
    _ = f.depth * c.height.toNat * (2 * c.width.toNat) * elementBytes f.width := by ring
    _ ≤ _ := Nat.mul_le_mul_right _ (Nat.mul_le_mul_left _ (Nat.le_succ _))

/-- In a legal run a packet of `n` samples and at most `2*B*n` bytes ends below the capacity: its scanline ends at most at
the ceiling of the next one. -/
theorem EmitLegal.not_exhausted {s : State} {f : PixelFormat} {z : BitVec 2} {y x : BitVec 16}
    {d r : Word} {need n : Nat} (hemit : EmitLegal s f x r d) (hf : FrameLegal s f z y d)
    (hline : LineLegal s f (tableIndex s.cfg.height.toNat z.toNat y.toNat) r)
    (hx : x.toNat + n ≤ s.cfg.width.toNat) (hneed : need ≤ 2 * elementBytes f.width * n) :
    exhausted s.cfg.outCap.toNat d.toNat need = false := by
  have hend : d.toNat + need ≤ s.cfg.outCap.toNat := calc
    d.toNat + need
      ≤ r.toNat + 2 * elementBytes f.width * x.toNat + 2 * elementBytes f.width * n :=
        Nat.add_le_add hemit.most hneed
    _ = r.toNat + 2 * elementBytes f.width * (x.toNat + n) := by rw [Nat.mul_add, Nat.add_assoc]
    _ ≤ lineCeiling s.cfg f (tableIndex s.cfg.height.toNat z.toNat y.toNat)
          + 2 * elementBytes f.width * s.cfg.width.toNat :=
        Nat.add_le_add hline.ceiling (Nat.mul_le_mul_left _ hx)
    _ = lineCeiling s.cfg f (tableIndex s.cfg.height.toNat z.toNat y.toNat + 1) :=
        (lineCeiling_succ ..).symm
    _ ≤ sizeBound f s.cfg.width.toNat s.cfg.height.toNat := lineCeiling_le_sizeBound hf.entries.1
    _ ≤ s.cfg.outCap.toNat := hf.room
  exact decide_eq_false (by omega)

end Sys2Proof.Machine
end

section
/-! PROOF. CHECK's errors, in their order (R121, R122, R126, R271), and its answer over any memory (R123). -/

namespace Sys2Proof.Machine

/-! ### Where CHECK fails (R127) -/

section
variable {s : State} {f : PixelFormat}

theorem checkRun_unsupportedFormat (hf : formatRow s.cfg.fmt = none) :
    checkRun s = .next (fail .unsupportedFormat 0 s) := by
  simp only [checkRun, hf]

theorem checkRun_unsupportedResolution (hf : formatRow s.cfg.fmt = some f)
    (hres : legalResolution s.cfg = false) :
    checkRun s = .next (fail .unsupportedResolution 0 s) := by
  simp only [checkRun, hf, hres, if_true]

theorem checkRun_outOfMemory (hf : formatRow s.cfg.fmt = some f) (hres : legalResolution s.cfg = true)
    (hcap : s.cfg.outCap.toNat < sizeBound f s.cfg.width.toNat s.cfg.height.toNat) :
    checkRun s = .next (fail .outOfMemory 0 s) := by
  simp only [checkRun, hf, hres, Bool.true_eq_false, if_false, if_pos hcap]

/-- An error of CHECK leaves memory, and all registers but the results and the phase (R270). -/
theorem step_check_fails {e : ErrorKind} (hturn : nextTurn s = .sequencer) (hp : s.phase = .check)
    (h : checkRun (tick s) = .next (fail e 0 (tick s))) :
    ∃ w, step s = .next { s with
      status := { done := false, err := true, keyframe := false, errCode := errorCode e }
      errInfo := 0, resultSize := 0, phase := .idle, world := w } := by
  refine ⟨voidOutput s.cfg (tick s).world, ?_⟩
  rw [step_sequencer hturn, sequencerTurn_check (s := tick s) hp, h, fail,
    memoryAfterRun_of_check (s := tick s) hp]
  rfl

/-! ### CHECK over any memory (R123) -/

theorem fail_check_withMemory (hp : s.phase = .check) (e : ErrorKind) (info : Nat) (m : Memory) :
    fail e info { s with mem := m } = { fail e info s with mem := m } := by
  rw [fail, memoryAfterRun_of_check (s := { s with mem := m }) hp]
  rfl

/-- CHECK answers the same over another memory, which it leaves. -/
theorem checkRun_withMemory {t : State} (hp : s.phase = .check) (h : checkRun s = .next t) (m : Memory) :
    checkRun { s with mem := m } = .next { t with mem := m } := by
  obtain ⟨hf, heq⟩ | ⟨f, hf, ⟨hres, heq⟩ | ⟨hres, hcap, heq⟩ | ⟨hres, hroom, heq⟩⟩ :=
    checkRun_cases s <;> cases heq.symm.trans h
  · rw [← fail_check_withMemory hp]
    exact checkRun_unsupportedFormat (s := { s with mem := m }) hf
  · rw [← fail_check_withMemory hp]
    exact checkRun_unsupportedResolution (s := { s with mem := m }) hf hres
  · rw [← fail_check_withMemory hp]
    exact checkRun_outOfMemory (s := { s with mem := m }) hf hres hcap
  · exact checkRun_passes (s := { s with mem := m }) hf hres hroom

end

/-- Settles O26: each error where the conditions before its own have passed. -/
theorem checkErrorPriority : Obligations.CheckErrorPriority := by
  intro s hturn hp
  have hformat : ¬ 8 < s.cfg.fmt.toNat → ∃ f, formatRow s.cfg.fmt = some f := fun hfmt =>
    Option.isSome_iff_exists.1 ((formatRow_isSome_iff _).2 (Nat.le_of_not_lt hfmt))
  refine ⟨fun hfmt => ?_, fun hfmt hsize => ?_, fun _ hsize ⟨f, hf, hcap⟩ => ?_⟩
  · exact step_check_fails hturn hp
      (checkRun_unsupportedFormat (s := tick s) ((formatRow_eq_none_iff _).2 hfmt))
  · obtain ⟨f, hf⟩ := hformat hfmt
    refine step_check_fails hturn hp (checkRun_unsupportedResolution (s := tick s) hf ?_)
    rw [← Bool.not_eq_true, tick_cfg, legalResolution_iff]
    omega
  · have hres : legalResolution s.cfg = true := (legalResolution_iff _).2 (by omega)
    exact step_check_fails hturn hp (checkRun_outOfMemory (s := tick s) hf hres hcap)

end Sys2Proof.Machine
end

section
/-! PROOF. Where each micro-operation leads and when it raises OutputBufferExhausted (R33, R172, R220), and what the host's
turn does to the phase and to STATUS: that error is never raised (R129), and ROW_BEGIN follows CHECK or ROW_END (R123). -/

namespace Sys2Proof.Machine

/-! ### What one micro-operation does to the phase and to STATUS -/

/-- The phases a micro-operation goes on to (R33, R220). -/
def followers : Phase → List Phase
  | .idle => [.idle]
  | .check => [.rowBegin]
  | .rowBegin => [.fetch]
  | .fetch => [.emit]
  | .emit => [.emit, .rowEnd]
  | .rowEnd => [.rowBegin, .finish]
  | .finish => []

/-- The packet to be emitted now has no room in the output buffer (R172). -/
def PacketExhausted (s : State) : Prop :=
  s.phase = .emit ∧ ∃ i d, chosenPacket s = .ok i ∧ s.dcur = some d ∧
    exhausted s.cfg.outCap.toNat d.toNat (encode i).length = true

/-- The micro-operation goes on to a phase that follows with STATUS as it was, or ends the run, with
OutputBufferExhausted only where the packet has no room. -/
def GoesOnOrEnds (s t : State) : Prop :=
  (t.phase ∈ followers s.phase ∧ t.status = s.status) ∨
    (t.phase = .idle ∧ (t.status.errCode = 4 → PacketExhausted s))

theorem errorCode_eq_four_iff (e : ErrorKind) : errorCode e = 4 ↔ e = .outputBufferExhausted := by
  cases e <;> decide

section
variable {s t : State}

theorem GoesOnOrEnds.goesOn {p : Phase} (hp : s.phase = p) (hphase : t.phase ∈ followers p)
    (hstatus : t.status = s.status) : GoesOnOrEnds s t :=
  .inl ⟨hp ▸ hphase, hstatus⟩

/-- A run that ends with another error. -/
theorem GoesOnOrEnds.of_fail {e : ErrorKind} (he : e ≠ .outputBufferExhausted) (info : Nat) (u : State) :
    GoesOnOrEnds s (fail e info u) :=
  .inr ⟨rfl, fun hcode => absurd ((errorCode_eq_four_iff e).1 hcode) he⟩

theorem goesOnOrEnds_storeSeq {a : Nat} {bs : List Byte} {k : State → Result}
    (hk : ∀ m, Answers (GoesOnOrEnds s) (k { s with mem := m })) :
    Answers (GoesOnOrEnds s) (storeSeq a bs s k) := by
  obtain ⟨heq, -⟩ | ⟨_, -, heq, -⟩ := storeSeq_cases a bs s k <;> rw [heq]
  · exact hk _
  · exact answers_next.2 (.of_fail (by decide) _ _)

theorem goesOnOrEnds_checkRun (hp : s.phase = .check) : Answers (GoesOnOrEnds s) (checkRun s) := by
  obtain ⟨-, heq⟩ | ⟨f, -, ⟨-, heq⟩ | ⟨-, -, heq⟩ | ⟨-, -, heq⟩⟩ := checkRun_cases s <;>
    rw [heq, answers_next]
  · exact .of_fail (by decide) _ _
  · exact .of_fail (by decide) _ _
  · exact .of_fail (by decide) _ _
  · exact .goesOn hp (List.mem_singleton_self _) rfl

theorem goesOnOrEnds_rowBegin (hp : s.phase = .rowBegin) : Answers (GoesOnOrEnds s) (rowBegin s) :=
  answers_held fun _ => answers_held fun _ => answers_held fun _ => goesOnOrEnds_storeSeq fun _ =>
    answers_next.2 (.goesOn hp (List.mem_singleton_self _) rfl)

theorem goesOnOrEnds_fetchLine (hp : s.phase = .fetch) : Answers (GoesOnOrEnds s) (fetchLine s) := by
  refine answers_held fun _ => answers_held fun _ => answers_held fun _ => ?_
  dsimp only
  split
  · exact answers_next.2 (.of_fail (by decide) _ _)
  · exact answers_next.2 (.goesOn hp (List.mem_singleton_self _) rfl)

theorem phaseAfter_mem_followers (width x : Nat) : phaseAfter width x ∈ followers .emit := by
  unfold phaseAfter
  split <;> decide

/-- A packet is emitted where the cursor holds a value, and where it has no room the run ends with that error. -/
theorem goesOnOrEnds_chosenPacket {i : Instr} (hp : s.phase = .emit) (hc : chosenPacket s = .ok i) :
    Answers (GoesOnOrEnds s) (exec i s) := by
  obtain ⟨g, x, hg, hx, -⟩ := chosenPacket_ok hc
  cases hd : s.dcur with
  | none =>
    obtain ⟨n, -, -, ⟨v, heq⟩ | ⟨vs, heq⟩⟩ := exec_chosen_cases hp hc hg hx <;> rw [heq]
    · simp only [emitRepeat, hd, held_none, answers_fault]
    · simp only [emitLiteral, hd, held_none, answers_fault]
  | some d =>
    rw [exec_chosen_eq hp hg hd hx hc]
    obtain ⟨hfull, heq⟩ | ⟨-, heq⟩ := emitBytes_cases (encode i) (encode i).length
      (detect s.plat.policy s.sl g.width s.cfg.width.toNat x.toNat).2 d x s <;> rw [heq]
    · exact answers_next.2 (.inr ⟨rfl, fun _ => ⟨hp, i, d, hc, hd, hfull⟩⟩)
    · exact goesOnOrEnds_storeSeq fun _ =>
        answers_next.2 (.goesOn hp (phaseAfter_mem_followers _ _) rfl)

theorem advance_phase_mem_followers (depth : Nat) (z : BitVec 2) (y : BitVec 16) (s : State) :
    (advance depth z y s).phase ∈ followers .rowEnd := by
  obtain ⟨-, heq⟩ | ⟨-, -, heq⟩ | ⟨-, -, heq⟩ := advance_cases depth z y s <;> rw [heq]
  · exact List.mem_cons_self
  · exact List.mem_cons_self
  · exact List.mem_cons_of_mem _ (List.mem_singleton_self _)

theorem advance_status (depth : Nat) (z : BitVec 2) (y : BitVec 16) (s : State) :
    (advance depth z y s).status = s.status := by
  obtain ⟨-, heq⟩ | ⟨-, -, heq⟩ | ⟨-, -, heq⟩ := advance_cases depth z y s <;> rw [heq]

theorem goesOnOrEnds_rowEnd (hp : s.phase = .rowEnd) : Answers (GoesOnOrEnds s) (rowEnd s) :=
  answers_held fun _ => answers_held fun _ => answers_held fun _ => answers_held fun _ =>
    answers_held fun _ => goesOnOrEnds_storeSeq fun _ =>
      answers_next.2 (.goesOn hp (advance_phase_mem_followers ..) (advance_status ..))

theorem goesOnOrEnds_finishRun (s : State) : Answers (GoesOnOrEnds s) (finishRun s) :=
  answers_held fun _ => answers_next.2 (.inr ⟨rfl, nofun⟩)

theorem goesOnOrEnds_sequencerTurn (s : State) : Answers (GoesOnOrEnds s) (sequencerTurn s) := by
  unfold sequencerTurn
  cases hp : s.phase with
  | idle => exact answers_next.2 (.goesOn hp (by rw [hp]; exact List.mem_singleton_self _) rfl)
  | check => exact goesOnOrEnds_checkRun hp
  | rowBegin => exact goesOnOrEnds_rowBegin hp
  | fetch => exact goesOnOrEnds_fetchLine hp
  | emit =>
    cases hc : chosenPacket s with
    | ok i => exact goesOnOrEnds_chosenPacket hp hc
    | error l => exact answers_fault _
  | rowEnd => exact goesOnOrEnds_rowEnd hp
  | finish => exact goesOnOrEnds_finishRun s

/-! ### What follows for the error and for ROW_BEGIN -/

/-- In a legal state the packet has room (R128, R129). -/
theorem Inv.not_packetExhausted (h : Inv s) : ¬ PacketExhausted s := by
  rintro ⟨hp, i, d, hc, hd, hfull⟩
  obtain ⟨f, z, y, d', hf, hl⟩ := h.run.frame (by simp [hp]) (by simp [hp])
  obtain ⟨r, x, hline, hemit⟩ := (phaseLegal_emit hp).1 hl
  obtain ⟨g, x', hg, hx, hpacket⟩ := chosenPacket_ok hc
  cases hf.geometry.symm.trans hg
  cases hemit.x_held.symm.trans hx
  cases hf.dcur_held.symm.trans hd
  obtain ⟨-, -, hwithin, -⟩ := packetAt_cases hpacket
  have hroom := hemit.not_exhausted hf hline hwithin (packetAt_length_bounds hpacket).2
  exact Bool.false_ne_true (hroom.symm.trans hfull)

theorem rowBegin_mem_followers {p : Phase} (h : .rowBegin ∈ followers p) : p = .check ∨ p = .rowEnd := by
  cases p <;> revert h <;> decide

/-- The sequencer comes to ROW_BEGIN from ROW_END, or from a CHECK that passes (R123, R219). -/
theorem sequencerTurn_to_rowBegin (h : sequencerTurn s = .next t) (ht : t.phase = .rowBegin)
    (hend : s.phase ≠ .rowEnd) :
    s.phase = .check ∧ ∃ f, legalFormat s.cfg = some f ∧
      sizeBound f s.cfg.width.toNat s.cfg.height.toNat ≤ s.cfg.outCap.toNat := by
  obtain ⟨hphase, -⟩ | ⟨hidle, -⟩ := goesOnOrEnds_sequencerTurn s t h
  · have hp : s.phase = .check := (rowBegin_mem_followers (ht ▸ hphase)).resolve_right hend
    rw [sequencerTurn_check hp] at h
    obtain ⟨-, heq⟩ | ⟨f, hf, ⟨-, heq⟩ | ⟨-, -, heq⟩ | ⟨hres, hroom, heq⟩⟩ := checkRun_cases s <;>
      cases heq.symm.trans h
    · cases ht
    · cases ht
    · cases ht
    · exact ⟨hp, f, (legalFormat_some_iff _ _).2 ⟨hres, hf⟩, hroom⟩
  · cases hidle.symm.trans ht

end

/-! ### The host's turn -/

/-- A key stands for a register access, never for a packet (R102). -/
theorem formatOf_decodeKey {key : BitVec 39} {i : Instr} (h : decodeKey key = .ok i) :
    formatOf i = .mmio32 := by
  unfold decodeKey at h
  repeat' split at h
  all_goals cases h
  all_goals rfl

/-- What the host does to the phase and to STATUS: at most it launches, and at most it clears the results (R243, R244). -/
structure HostControls (s t : State) : Prop where
  phase : t.phase = s.phase ∨ t.phase = .check
  status : t.status = s.status ∨ t.status = .clear

theorem HostControls.of_eq {s t : State} (hphase : t.phase = s.phase) (hstatus : t.status = s.status) :
    HostControls s t :=
  ⟨.inl hphase, .inl hstatus⟩

theorem hostControls_exec {i : Instr} (hi : formatOf i = .mmio32) (s : State) :
    Answers (HostControls s) (exec i s) := by
  cases i with
  | rep8 | lit8 | rep16 | lit16 => cases hi
  | regRead r => exact answers_next.2 (.of_eq rfl rfl)
  | cmdStart clear =>
    obtain ⟨-, heq⟩ | ⟨-, -, heq⟩ | ⟨-, -, heq⟩ := execCmdStart_cases clear s <;>
      rw [exec_cmdStart, heq]
    · exact answers_next.2 (.of_eq rfl rfl)
    · exact answers_refused _
    · exact answers_next.2 ⟨.inr rfl, .inr rfl⟩
  | cmdClear =>
    obtain ⟨-, heq⟩ | ⟨-, heq⟩ := execCmdClear_cases s <;> rw [exec_cmdClear, heq, answers_next]
    · exact .of_eq rfl rfl
    · exact ⟨.inl rfl, .inr rfl⟩
  | ctrlNop => exact answers_next.2 (.of_eq rfl rfl)
  | regWrite r v =>
    obtain ⟨-, heq⟩ | ⟨-, heq⟩ | ⟨-, heq⟩ := execRegWrite_cases r v s <;> rw [exec_regWrite, heq]
    · exact answers_refused _
    · exact answers_next.2 (.of_eq rfl rfl)
    · exact answers_next.2 (.of_eq rfl rfl)

theorem hostControls_registerAccess (isWrite : Bool) (a : Nat) (w : AccessWidth) (data : Word)
    (s : State) : Answers (HostControls s) (registerAccess isWrite a w data s) := by
  obtain ⟨_, i, -, -, hkey, heq⟩ | ⟨_, heq⟩ := registerAccess_cases isWrite a w data s <;> rw [heq]
  · exact hostControls_exec (formatOf_decodeKey hkey) s
  · exact answers_refused _

theorem HostControls.of_withScript {s t : State} {ops : List HostOp}
    (h : HostControls (withScript ops s) t) : HostControls s t :=
  ⟨h.phase, h.status⟩

theorem hostControls_hostTurn (s : State) : Answers (HostControls s) (hostTurn s) := by
  unfold hostTurn
  cases s.world.script with
  | nil => exact answers_next.2 (.of_eq rfl rfl)
  | cons op rest =>
    cases op with
    | rd a w => exact fun t ht => (hostControls_registerAccess false a w 0 _ t ht).of_withScript
    | wr a w data => exact fun t ht => (hostControls_registerAccess true a w data _ t ht).of_withScript
    | wait r mask value =>
      dsimp only
      split
      · exact fun t ht => (hostControls_exec (i := .regRead r) rfl _ t ht).of_withScript
      · exact hostControls_exec (i := .regRead r) rfl s
    | waitIrq =>
      dsimp only
      split
      · exact answers_next.2 (.of_eq rfl rfl)
      · exact answers_next.2 (.of_eq rfl rfl)
    | mem a bs => exact answers_hostAccess fun _ => answers_next.2 (.of_eq rfl rfl)
    | peek a => exact answers_hostAccess fun _ => answers_next.2 (.of_eq rfl rfl)

/-! ### Steps -/

/-- Settles O55: a packet has room by the size bound, and nothing else raises this error. -/
theorem boundNeverExhausted : Obligations.BoundNeverExhausted := by
  intro s t h hstep hcode
  obtain ⟨-, heq⟩ | ⟨-, heq⟩ | ⟨-, heq⟩ := step_cases s <;> rw [heq] at hstep
  · obtain hstatus | hstatus := (hostControls_hostTurn _ t hstep).status <;> rw [hstatus] at hcode
    · exact hcode
    · cases hcode
  · obtain ⟨-, hstatus⟩ | ⟨-, hfull⟩ := goesOnOrEnds_sequencerTurn _ t hstep
    · exact hstatus ▸ hcode
    · exact absurd (hfull hcode) h.tick.not_packetExhausted
  · cases hstep
    cases hcode

/-- Only the sequencer comes to ROW_BEGIN from another phase than ROW_END, and only where CHECK passes (R123). -/
theorem step_to_rowBegin {s t : State} (hstep : step s = .next t) (ht : t.phase = .rowBegin)
    (hbegin : s.phase ≠ .rowBegin) (hend : s.phase ≠ .rowEnd) :
    nextTurn s = .sequencer ∧ s.phase = .check ∧ ∃ f, legalFormat s.cfg = some f ∧
      sizeBound f s.cfg.width.toNat s.cfg.height.toNat ≤ s.cfg.outCap.toNat := by
  obtain ⟨-, heq⟩ | ⟨hturn, heq⟩ | ⟨-, heq⟩ := step_cases s <;> rw [heq] at hstep
  · obtain hphase | hphase := (hostControls_hostTurn _ t hstep).phase <;> rw [ht] at hphase
    · exact absurd hphase.symm hbegin
    · cases hphase
  · exact ⟨hturn, sequencerTurn_to_rowBegin (s := tick s) hstep ht hend⟩
  · cases hstep
    cases ht

/-- Settles O28. -/
theorem checkTouchesNoMemory : Obligations.CheckTouchesNoMemory := by
  refine fun s t => ⟨fun hturn hp hstep m => ?_, step_to_rowBegin⟩
  rw [step_sequencer hturn, sequencerTurn_check (s := tick s) hp] at hstep
  rw [step_sequencer (s := { s with mem := m }) hturn,
    sequencerTurn_check (s := tick { s with mem := m }) hp]
  exact checkRun_withMemory (s := tick s) hp hstep m

end Sys2Proof.Machine
end

section
/-! PROOF. The run detector's counts (R152-R157): each loop stops at the first position that ends its run, and the packets
that follow from it. -/

namespace Sys2Proof.Machine

/-! ### The first position of a scan -/

/-- `r` is the first position from `a` on where `P` holds, or `limit` where there is none before it. -/
structure FirstFrom (P : Nat → Prop) (a limit r : Nat) : Prop where
  ge_start : a ≤ r
  le_limit : r ≤ limit
  not_before : ∀ j, a ≤ j → j < r → ¬ P j
  holds : r < limit → P r

namespace FirstFrom
variable {P : Nat → Prop} {a limit r : Nat}

theorem atLimit (P : Nat → Prop) (a : Nat) : FirstFrom P a a a where
  ge_start := Nat.le_refl a
  le_limit := Nat.le_refl a
  not_before _ hj hlt := absurd hlt (Nat.not_lt.2 hj)
  holds h := absurd h (Nat.lt_irrefl a)

theorem atStart (hP : P a) (h : a ≤ limit) : FirstFrom P a limit a where
  ge_start := Nat.le_refl a
  le_limit := h
  not_before _ hj hlt := absurd hlt (Nat.not_lt.2 hj)
  holds _ := hP

theorem ofNext (hP : ¬ P a) (h : FirstFrom P (a + 1) limit r) : FirstFrom P a limit r where
  ge_start := Nat.le_of_succ_le h.ge_start
  le_limit := h.le_limit
  not_before j hj hlt := by
    obtain rfl | hgt := Nat.eq_or_lt_of_le hj
    · exact hP
    · exact h.not_before j hgt hlt
  holds := h.holds

end FirstFrom

theorem sameNext_iff (sl : List Half) (j : Nat) : sameNext sl j = true ↔ sl[j]? = sl[j + 1]? :=
  beq_iff_eq

section
variable {sl : List Half} {w : ElementWidth} {width x : Nat}

/-- Every scan of the detector starts with the one sample it has for certain. -/
theorem one_add_runLimit_sub (h : x < width) : 1 + (runLimit width x - 1) = runLimit width x :=
  Nat.add_sub_cancel' (runLimit_pos h)

/-! ### The repeat count (R152) -/

theorem countRepeatLoop_first (sl : List Half) (x fuel r : Nat) :
    FirstFrom (fun j => ¬ sameNext sl (x + j - 1)) r (r + fuel) (countRepeatLoop sl x fuel r) := by
  induction fuel generalizing r with
  | zero => exact .atLimit _ r
  | succ fuel ih =>
    rw [countRepeatLoop]
    split
    · rename_i hsame
      exact .ofNext (not_not_intro hsame) (Nat.succ_add_eq_add_succ r fuel ▸ ih (r + 1))
    · rename_i hdiff
      exact .atStart hdiff (Nat.le_add_right _ _)

/-- A repeat count below the limit ends before a sample that differs from the run's (R152). -/
theorem countRepeat_differs (h : x < width) (hlt : countRepeat sl width x < runLimit width x) :
    sl[x + countRepeat sl width x]? ≠ sl[x]? := by
  have hpos := (countRepeat_bounds sl h).1
  have hstop : ¬ sameNext sl (x + countRepeat sl width x - 1) :=
    (countRepeatLoop_first sl x (runLimit width x - 1) 1).holds (by rwa [one_add_runLimit_sub h])
  have hlast := countRepeat_same sl width x (countRepeat sl width x - 1) (by omega)
  rw [sameNext_iff, Nat.sub_add_cancel (by omega), Nat.add_sub_assoc hpos, hlast] at hstop
  exact Ne.symm hstop

/-- A repeatable run starts at `p` (R153). -/
def RunStart (sl : List Half) (width p : Nat) : Prop := p + 1 < width ∧ sl[p]? = sl[p + 1]?

/-- The repeat count is at least 2 exactly where a repeatable run starts (R155). -/
theorem two_le_countRepeat_iff : 2 ≤ countRepeat sl width x ↔ RunStart sl width x := by
  constructor
  · intro h
    have hle : countRepeat sl width x ≤ 1 + (runLimit width x - 1) :=
      (countRepeatLoop_first sl x (runLimit width x - 1) 1).le_limit
    have hx : x + 1 < width := by
      have := (runLimit_le width x).2
      omega
    exact ⟨hx, (countRepeat_same sl width x 1 h).symm⟩
  · rintro ⟨hx, hsame⟩
    by_contra hr
    have hpair : 2 ≤ runLimit width x := Nat.le_min.2 ⟨by decide, by omega⟩
    have hdiff := first_pair_differs hr (by omega)
    exact Bool.false_ne_true (hdiff.symm.trans ((sameNext_iff sl x).2 hsame))

/-! ### The literal count under DOC (R153) -/

theorem countLiteralDocLoop_first (sl : List Half) (width x fuel l : Nat) :
    FirstFrom (fun j => RunStart sl width (x + j)) l (l + fuel)
      (countLiteralDocLoop sl width x fuel l) := by
  induction fuel generalizing l with
  | zero => exact .atLimit _ l
  | succ fuel ih =>
    have htest : (decide (x + l + 1 < width) && sameNext sl (x + l)) = true
        ↔ RunStart sl width (x + l) := by
      rw [Bool.and_eq_true, decide_eq_true_iff, sameNext_iff, RunStart]
    rw [countLiteralDocLoop]
    split
    · rename_i hstart
      exact .atStart (htest.1 hstart) (Nat.le_add_right _ _)
    · rename_i hgo
      exact .ofNext (mt htest.2 hgo) (Nat.succ_add_eq_add_succ l fuel ▸ ih (l + 1))

/-- Where no repeatable run starts at `x`, the DOC literal goes on to the first start after it, or to the limit (R153). -/
theorem countLiteralDoc_first (h : x < width) (hr : ¬ RunStart sl width x) :
    FirstFrom (fun j => RunStart sl width (x + j)) 0 (runLimit width x)
      (countLiteralDoc sl width x) :=
  .ofNext hr (one_add_runLimit_sub h ▸ countLiteralDocLoop_first sl width x (runLimit width x - 1) 1)

/-! ### The literal count under UPSTREAM (R154) -/

/-- The UPSTREAM scan stops at its `c`-th pair: identical, and not absorbed as an isolated one-byte pair (R154). -/
def PairStops (sl : List Half) (w : ElementWidth) (x limit c : Nat) : Prop :=
  sl[x + c - 1]? = sl[x + c]? ∧
    ¬ (w = .one ∧ c + 1 < limit ∧ sl[x + c]? ≠ sl[x + c + 1]?)

/-- One turn of the UPSTREAM scan. -/
theorem countLiteralUpstreamLoop_succ {limit fuel c : Nat} (hc : 1 ≤ c) :
    (PairStops sl w x limit c ∧ countLiteralUpstreamLoop sl w x limit (fuel + 1) c = c - 1) ∨
    (¬ PairStops sl w x limit c ∧ countLiteralUpstreamLoop sl w x limit (fuel + 1) c
      = countLiteralUpstreamLoop sl w x limit fuel (c + 1)) := by
  have hpair : sameNext sl (x + c - 1) = true ↔ sl[x + c - 1]? = sl[x + c]? := by
    rw [sameNext_iff, Nat.sub_add_cancel (by omega)]
  have habsorb : (decide (w = .one) && (decide (c + 1 < limit) && !sameNext sl (x + c))) = true
      ↔ w = .one ∧ c + 1 < limit ∧ sl[x + c]? ≠ sl[x + c + 1]? := by
    rw [Bool.and_eq_true, Bool.and_eq_true, decide_eq_true_iff, decide_eq_true_iff,
      Bool.not_eq_true', ← Bool.not_eq_true, sameNext_iff]
  rw [countLiteralUpstreamLoop]
  split
  · rename_i hsame
    split
    · rename_i hisolated
      exact .inr ⟨fun hstop => hstop.2 (habsorb.1 hisolated), rfl⟩
    · rename_i hkept
      exact .inl ⟨⟨hpair.1 hsame, mt habsorb.2 hkept⟩, rfl⟩
  · rename_i hdiff
    exact .inr ⟨fun hstop => hdiff (hpair.2 hstop.1), rfl⟩

/-- The UPSTREAM scan takes all samples to the limit, or those before the first pair that stops it. -/
theorem countLiteralUpstreamLoop_first {limit fuel c : Nat} (hc : 1 ≤ c) (hlimit : c + fuel = limit) :
    ∃ k, FirstFrom (PairStops sl w x limit) c limit k ∧
      countLiteralUpstreamLoop sl w x limit fuel c = if k < limit then k - 1 else limit := by
  induction fuel generalizing c with
  | zero =>
    obtain rfl : c = limit := hlimit
    exact ⟨c, .atLimit _ c, (if_neg (Nat.lt_irrefl c)).symm⟩
  | succ fuel ih =>
    obtain ⟨hstop, heq⟩ | ⟨hgo, heq⟩ := countLiteralUpstreamLoop_succ hc <;> rw [heq]
    · exact ⟨c, .atStart hstop (by omega), (if_pos (by omega)).symm⟩
    · obtain ⟨k, hk, heq⟩ := ih (c := c + 1) (by omega) (by omega)
      exact ⟨k, .ofNext hgo hk, heq⟩

/-! ### The packet the detector answers (R155) -/

theorem detect_of_runStart (p : ScanPolicy) (h : RunStart sl width x) :
    detect p sl w width x = (.rep, countRepeat sl width x) :=
  if_pos (two_le_countRepeat_iff.2 h)

theorem detect_of_not_runStart (p : ScanPolicy) (h : ¬ RunStart sl width x) :
    detect p sl w width x = (.lit, countLiteral p sl w width x) :=
  if_neg (mt two_le_countRepeat_iff.1 h)

/-- A packet that is not of 127 samples and does not end the scanline is below the limit (R152, R153). -/
theorem lt_runLimit {n : Nat} (hmax : n < 127) (hrest : x + n < width) : n < runLimit width x :=
  Nat.lt_min.2 ⟨hmax, by omega⟩

end

/-! ### The statements -/

/-- Settles O38: the loop's samples are the run's, and the one it stops before is not. -/
theorem countRepeatIsLongest : Obligations.CountRepeatIsLongest := by
  intro sl x hx
  obtain ⟨hpos, hle⟩ := countRepeat_bounds sl hx
  exact ⟨hpos, hle, countRepeat_same sl sl.length x, countRepeat_differs hx⟩

/-- Settles O39: the loop stops at the first repeatable run, and none starts at `x` itself. -/
theorem countLiteralDocStopsAtRun : Obligations.CountLiteralDocStopsAtRun := by
  intro sl x hx hr
  have hr := Nat.not_le.2 hr
  have hfirst := countLiteralDoc_first hx (mt two_le_countRepeat_iff.2 hr)
  exact ⟨(countLiteral_bounds .doc sl .one hx hr).1, hfirst.le_limit,
    fun j => hfirst.not_before j (Nat.zero_le j), hfirst.holds⟩

/-- Settles O40: a pair that stops the scan starts right after the literal's last sample. -/
theorem countLiteralUpstreamStops : Obligations.CountLiteralUpstreamStops := by
  intro sl w x hx hr m l stops
  have hr := Nat.not_le.2 hr
  obtain ⟨hpos, hle⟩ : 1 ≤ l ∧ l ≤ m := countLiteral_bounds .upstream sl w hx hr
  obtain ⟨k, hfirst, hl⟩ : ∃ k, FirstFrom stops 1 m k ∧ l = if k < m then k - 1 else m :=
    countLiteralUpstreamLoop_first (Nat.le_refl 1) (one_add_runLimit_sub hx)
  refine ⟨detect_of_not_runStart .upstream (mt two_le_countRepeat_iff.2 hr), hpos, hle, ?_⟩
  split at hl
  · rename_i hk
    obtain rfl : k = l + 1 := by omega
    exact ⟨fun c hc _ hcl => hfirst.not_before c hc (by omega), fun _ => ⟨hk, hfirst.holds hk⟩⟩
  · have hge := hfirst.le_limit
    exact ⟨fun c hc hcm _ => hfirst.not_before c hc (by omega), fun hlt => by omega⟩

/-- Settles O41: a repeat packet is the longest one, and a literal packet stops at the first repeatable run (R157). -/
theorem docPacketProperties : Obligations.DocPacketProperties := by
  intro w sl x hx
  by_cases hstart : RunStart sl sl.length x
  · rw [detect_of_runStart .doc hstart]
    exact ⟨fun _ hmax hrest => countRepeat_differs hx (lt_runLimit hmax hrest), nofun⟩
  · have hfirst := countLiteralDoc_first hx hstart
    rw [detect_of_not_runStart .doc hstart]
    refine ⟨nofun, fun _ => ⟨fun hmax hrest => ?_, fun j hj hrest hsame => ?_⟩⟩
    · have hnext := hfirst.holds (lt_runLimit hmax hrest)
      exact congrArg Prod.fst (detect_of_runStart .doc hnext)
    · exact hfirst.not_before j (Nat.zero_le j) hj ⟨hrest, hsame⟩

end Sys2Proof.Machine
end

section
/-! PROOF. The packet emitter (R172-R179): a packet without room or with a refused byte, the EMIT steps of a whole
scanline, and the length of a scanline of one run and of one without runs under DOC. -/

namespace Sys2Proof.Machine

/-! ### A packet that is not written whole (R172, R174) -/

/-- A packet of at least one byte has no room exactly where it ends past the capacity (R172). -/
theorem exhausted_iff {outCap d need : Nat} (hneed : 0 < need) :
    exhausted outCap d need = true ↔ outCap < d + need := by
  rw [exhausted, decide_eq_true_iff]
  omega

section
variable {s : State} {i : Instr} {d : Word}

/-- The chosen packet past the capacity ends the run with none of it written. -/
theorem exec_chosen_exhausted (hp : s.phase = .emit) (hc : chosenPacket s = .ok i) (hd : s.dcur = some d)
    (hfull : s.cfg.outCap.toNat < d.toNat + (encode i).length) :
    exec i s = .next (fail .outputBufferExhausted d.toNat s) := by
  obtain ⟨g, x, hg, hx, -⟩ := chosenPacket_ok hc
  have hfull := (exhausted_iff (List.length_pos_iff.2 (encode_ne_nil i))).2 hfull
  rw [exec_chosen_eq hp hg hd hx hc, emitBytes, if_pos hfull]

/-- The chosen packet with room is the store of its encoding, and what follows it. -/
theorem exec_chosen_storeSeq (hp : s.phase = .emit) (hc : chosenPacket s = .ok i) (hd : s.dcur = some d)
    (hroom : d.toNat + (encode i).length ≤ s.cfg.outCap.toNat) :
    ∃ next, exec i s = storeSeq (outAddr s.cfg d.toNat) (encode i) s next := by
  obtain ⟨g, x, hg, hx, -⟩ := chosenPacket_ok hc
  have hroom := mt (exhausted_iff (List.length_pos_iff.2 (encode_ne_nil i))).1 (Nat.not_lt.2 hroom)
  rw [exec_chosen_eq hp hg hd hx hc, emitBytes, if_neg hroom]
  exact ⟨_, rfl⟩

end

/-- Settles O36. -/
theorem packetExhaustsBuffer : Obligations.PacketExhaustsBuffer := by
  intro s i d hp hc hd hfull
  have hinfo : BitVec.ofNat 32 d.toNat = d := by rw [BitVec.ofNat_toNat, BitVec.setWidth_eq]
  refine ⟨memoryAfterRun s, voidOutput s.cfg s.world, ?_, leavesMemory_memoryAfterRun (by simp [hp])⟩
  rw [exec_chosen_exhausted hp hc hd hfull, fail, hinfo]
  rfl

/-- Settles O37: with room for the packet, what is left is a refused write. -/
theorem packetBusErrorIsPrecise : Obligations.PacketBusErrorIsPrecise := by
  intro s i d k hp hmem hc hd hroom hk a hbad
  obtain ⟨next, heq⟩ := exec_chosen_storeSeq hp hc hd hroom
  rw [heq]
  exact storeSeq_refused (by simp [hp]) hmem hk hbad

/-! ### The packets of a scanline (R156, R178) -/

/-- The packets of a scanline from position `x` on, of which `encodeFrom` writes the encodings. -/
def packetsFrom (p : ScanPolicy) (sl : List Half) (w : ElementWidth) (width : Nat) :
    (fuel x : Nat) → List Instr
  | 0, _ => []
  | fuel + 1, x =>
    match packetAt p sl w width x with
    | some i => i :: packetsFrom p sl w width fuel (x + (detect p sl w width x).2)
    | none => []

section
variable {p : ScanPolicy} {sl : List Half} {w : ElementWidth} {width : Nat}

theorem packetsFrom_packet {x : Nat} {i : Instr} (h : packetAt p sl w width x = some i) (fuel : Nat) :
    packetsFrom p sl w width (fuel + 1) x
      = i :: packetsFrom p sl w width fuel (x + (detect p sl w width x).2) := by
  rw [packetsFrom, h]

theorem packetsFrom_end {x : Nat} (hx : width ≤ x) (fuel : Nat) : packetsFrom p sl w width fuel x = [] := by
  have hnone : packetAt p sl w width x = none := if_neg fun h => by omega
  cases fuel <;> simp [packetsFrom, hnone]

/-- The packets of a scanline, one after another, are its encoding (R178). -/
theorem flatMap_encode_packetsFrom (fuel x : Nat) :
    (packetsFrom p sl w width fuel x).flatMap encode = encodeFrom p sl w width fuel x := by
  induction fuel generalizing x with
  | zero => rfl
  | succ fuel ih =>
    cases hc : packetAt p sl w width x with
    | none => simp [packetsFrom, encodeFrom, hc]
    | some i => rw [packetsFrom_packet hc, encodeFrom_packet hc, List.flatMap_cons, ih]

theorem packetsFrom_wf {fuel x : Nat} {i : Instr} (h : i ∈ packetsFrom p sl w width fuel x) :
    i.wf = true ∧ formatOf i = packetFormat w := by
  induction fuel generalizing x with
  | zero => cases h
  | succ fuel ih =>
    cases hc : packetAt p sl w width x with
    | none => simp [packetsFrom, hc] at h
    | some j =>
      rw [packetsFrom_packet hc, List.mem_cons] at h
      obtain rfl | h := h
      · exact ⟨(packetAt_wf hc).1, (packetAt_wf hc).2.1⟩
      · exact ih h

theorem packetsFrom_length_pos {fuel x : Nat} (hx : x < width) (hsl : width ≤ sl.length) (hfuel : 0 < fuel) :
    0 < (packetsFrom p sl w width fuel x).length := by
  obtain ⟨i, hc⟩ := Option.isSome_iff_exists.1 (packetAt_isSome (p := p) (w := w) hx hsl)
  obtain ⟨fuel, rfl⟩ := Nat.exists_eq_succ_of_ne_zero hfuel.ne'
  rw [packetsFrom_packet hc]
  exact Nat.succ_pos _

theorem packetsFrom_length_le (fuel x : Nat) : (packetsFrom p sl w width fuel x).length ≤ fuel := by
  induction fuel generalizing x with
  | zero => exact Nat.le_refl 0
  | succ fuel ih =>
    cases hc : packetAt p sl w width x with
    | none => simp [packetsFrom, hc]
    | some i =>
      rw [packetsFrom_packet hc, List.length_cons]
      exact Nat.succ_le_succ (ih _)

end

/-! ### The EMIT steps of a scanline (R178, R220) -/

theorem SequencerRun.refl (s : State) : SequencerRun 0 s s := fun _ _ => rfl

/-- Past the last sample the scanline's packets are written, and no step is left. -/
theorem sequencerRun_lineEnd {s : State} {d : Nat} (hd : s.dcur = some (BitVec.ofNat 32 d))
    (hx : s.x = some (BitVec.ofNat 16 s.cfg.width.toNat))
    (hp : s.phase = phaseAfter s.cfg.width.toNat s.cfg.width.toNat) :
    SequencerRun 0 s (emitted [] d s.cfg.width.toNat .rowEnd s) := by
  rw [phaseAfter, if_pos rfl] at hp
  rw [emitted, Memory.writeList_nil, List.length_nil, Nat.add_zero, ← hd, ← hx, ← hp]
  exact .refl s

/-- From a position on, each packet of the scanline is one step, and together they write the rest of the encoding. -/
theorem sequencerRun_packetsFrom {s : State} {g : Geometry} {d x fuel : Nat} {bs : List Byte}
    (hg : s.geom = some g) (hd : s.dcur = some (BitVec.ofNat 32 d)) (hx : s.x = some (BitVec.ofNat 16 x))
    (hp : s.phase = phaseAfter s.cfg.width.toNat x) (hsl : s.sl.length = s.cfg.width.toNat)
    (hwidth : s.cfg.width.toNat ≤ 65535) (hle : x ≤ s.cfg.width.toNat)
    (hfuel : s.cfg.width.toNat ≤ x + fuel)
    (hbs : encodeFrom s.plat.policy s.sl g.width s.cfg.width.toNat fuel x = bs)
    (hroom : d + bs.length ≤ s.cfg.outCap.toNat)
    (hok : acceptsWrites s.plat (outAddr s.cfg d) bs.length) :
    SequencerRun (packetsFrom s.plat.policy s.sl g.width s.cfg.width.toNat fuel x).length s
      (emitted bs d s.cfg.width.toNat .rowEnd s) := by
  subst hbs
  induction fuel generalizing s d x with
  | zero =>
    obtain rfl : x = s.cfg.width.toNat := Nat.le_antisymm hle hfuel
    exact sequencerRun_lineEnd hd hx hp
  | succ fuel ih =>
    by_cases hend : x = s.cfg.width.toNat
    · subst hend
      rw [encodeFrom_end _ _ _ _ (Nat.le_refl _), packetsFrom_end (Nat.le_refl _)]
      exact sequencerRun_lineEnd hd hx hp
    · obtain ⟨i, hc⟩ := Option.isSome_iff_exists.1
        (packetAt_isSome (p := s.plat.policy) (w := g.width) (lt_of_le_of_ne hle hend) hsl.ge)
      obtain ⟨hpos, -, hle', -⟩ := packetAt_cases hc
      rw [phaseAfter, if_neg hend] at hp
      rw [encodeFrom_packet hc, List.length_append] at hroom hok
      obtain ⟨hok, hok'⟩ := acceptsWrites_append.1 hok
      rw [outAddr, Nat.add_assoc] at hok'
      have hstep := sequencerRun_packet hp hg hd hx hwidth hc (by omega) hok
      have hwhole := hstep.trans (ih hg rfl rfl rfl hsl hwidth hle' (by dsimp only [emitted]; omega)
        (by rw [Nat.add_assoc]; exact hroom) hok')
      rw [emitted_emitted, Nat.add_comm] at hwhole
      rw [encodeFrom_packet hc, packetsFrom_packet hc]
      exact hwhole

/-- Settles O59: from position 0 the packets write all of the scanline's encoding. -/
theorem emitStepsWriteLine : Obligations.EmitStepsWriteLine := by
  intro s g d hp hmem hg hx hd hsl hpos hwidth bs a hroom hok
  have hbytes : bs = encodeFrom s.plat.policy s.sl g.width s.cfg.width.toNat s.cfg.width.toNat 0 := by
    rw [← hsl]
    rfl
  have hcursor : BitVec.ofNat 32 d.toNat = d := by rw [BitVec.ofNat_toNat, BitVec.setWidth_eq]
  have hphase : phaseAfter s.cfg.width.toNat 0 = .emit := if_neg (by omega)
  have hrun := sequencerRun_packetsFrom (d := d.toNat) (x := 0) (fuel := s.cfg.width.toNat) hg
    (hcursor.symm ▸ hd) hx (hp.trans hphase.symm) hsl hwidth (Nat.zero_le _) (Nat.le_add_left _ _)
    hbytes.symm hroom hok
  refine ⟨_, _, fun i => packetsFrom_wf, (flatMap_encode_packetsFrom _ _).trans hbytes.symm,
    packetsFrom_length_pos hpos hsl.ge hpos, packetsFrom_length_le _ _, stores_writeList hmem hok,
    fun rest => (hrun 0 rest).trans ?_⟩
  rw [Nat.zero_add, emitted, BitVec.ofNat_add, hcursor]
  rfl

/-! ### Length laws under DOC (R179) -/

section
variable {p : ScanPolicy} {sl : List Half} {w : ElementWidth} {width x : Nat} {i : Instr}

/-- The length of the packet at a position, by the detector's answer (R92, R93). -/
theorem packetAt_length (h : packetAt p sl w width x = some i) :
    (encode i).length
      = match (detect p sl w width x).1 with
        | .rep => 2 * elementBytes w
        | .lit => (1 + (detect p sl w width x).2) * elementBytes w := by
  obtain ⟨-, -, hle, -⟩ := packetAt_cases h
  obtain ⟨-, hwidth, v, -, rfl⟩ := packetAt_some h
  refine encode_packetOf_length ?_ _ v
  rw [List.length_take, List.length_drop]
  omega

/-- A scanline whose packets are as long as the limit lets them be has one packet for every 127 samples, and one for the
rest. -/
theorem encodeFrom_length_of_fullPackets {fixed each fuel : Nat} (hsl : width ≤ sl.length)
    (hfull : ∀ x i, packetAt p sl w width x = some i →
      (detect p sl w width x).2 = runLimit width x ∧ (encode i).length = fixed + each * runLimit width x)
    (hfuel : width - x ≤ fuel) :
    (encodeFrom p sl w width fuel x).length
      = fixed * ((width - x + 126) / 127) + each * (width - x) := by
  induction fuel generalizing x with
  | zero => simp [encodeFrom, Nat.le_zero.1 hfuel]
  | succ fuel ih =>
    by_cases hx : x < width
    · obtain ⟨i, hi⟩ := Option.isSome_iff_exists.1 (packetAt_isSome (p := p) (w := w) hx hsl)
      obtain ⟨hcount, hlen⟩ := hfull x i hi
      have hlimit : runLimit width x = min 127 (width - x) := rfl
      have hpackets : (width - x + 126) / 127 = 1 + (width - (x + runLimit width x) + 126) / 127 := by
        omega
      have hsamples : each * (width - x)
          = each * runLimit width x + each * (width - (x + runLimit width x)) := by
        rw [← Nat.mul_add, Nat.add_comm, Nat.sub_add_eq, Nat.sub_add_cancel (by omega)]
      rw [encodeFrom_packet hi, List.length_append, hcount, hlen, ih (by omega), hpackets, hsamples]
      ring
    · rw [encodeFrom_end _ _ _ _ (Nat.le_of_not_lt hx), Nat.sub_eq_zero_of_le (Nat.le_of_not_lt hx)]
      simp

/-- A repeat packet over samples that are all identical is as long as the limit lets it be (R152). -/
theorem countRepeat_eq_runLimit (hx : x < width)
    (hsame : ∀ j < runLimit width x, sl[x + j]? = sl[x]?) :
    countRepeat sl width x = runLimit width x := by
  by_contra hne
  have hlt := lt_of_le_of_ne (countRepeat_bounds sl hx).2 hne
  exact countRepeat_differs hx hlt (hsame _ hlt)

/-- A DOC literal packet with no repeatable run ahead is as long as the limit lets it be (R153). -/
theorem countLiteralDoc_eq_runLimit (hx : x < width) (hruns : ∀ q, ¬ RunStart sl width q) :
    countLiteralDoc sl width x = runLimit width x := by
  have hfirst := countLiteralDoc_first hx (hruns x)
  by_contra hne
  exact hruns _ (hfirst.holds (lt_of_le_of_ne hfirst.le_limit hne))

end

/-- In a scanline of identical samples every packet takes `2*B` bytes: a repeat packet, or the last sample alone. -/
theorem fullPackets_replicate {w : ElementWidth} {v : Half} {l x : Nat} {i : Instr}
    (h : packetAt .doc (List.replicate l v) w l x = some i) :
    (detect .doc (List.replicate l v) w l x).2 = runLimit l x ∧
      (encode i).length = 2 * elementBytes w + 0 * runLimit l x := by
  have hx := (packetAt_some h).1
  have hlimit := runLimit_le l x
  have hsample : ∀ j < l, (List.replicate l v)[j]? = some v := fun j hj => by
    rw [List.getElem?_replicate, if_pos hj]
  rw [packetAt_length h, Nat.zero_mul, Nat.add_zero]
  by_cases hstart : RunStart (List.replicate l v) l x
  · rw [detect_of_runStart .doc hstart]
    refine ⟨countRepeat_eq_runLimit hx fun j hj => ?_, rfl⟩
    rw [hsample _ (by omega), hsample x hx]
  · have hlast : l - x = 1 := by
      by_contra hne
      exact hstart ⟨by omega, by rw [hsample x hx, hsample (x + 1) (by omega)]⟩
    obtain ⟨hpos, hle, -⟩ := detect_bounds .doc (List.replicate l v) w hx
    have hone : (detect .doc (List.replicate l v) w l x).2 = 1 := by omega
    rw [hone, detect_of_not_runStart .doc hstart]
    exact ⟨by omega, rfl⟩

/-- In a scanline without a repeatable run every packet is literal: `B` bytes and `B` for each sample. -/
theorem fullPackets_of_noRuns {w : ElementWidth} {sl : List Half} {width x : Nat} {i : Instr}
    (hruns : ∀ q, ¬ RunStart sl width q) (h : packetAt .doc sl w width x = some i) :
    (detect .doc sl w width x).2 = runLimit width x ∧
      (encode i).length = elementBytes w + elementBytes w * runLimit width x := by
  have hcount := countLiteralDoc_eq_runLimit (packetAt_some h).1 hruns
  rw [packetAt_length h, detect_of_not_runStart .doc (hruns x)]
  refine ⟨hcount, ?_⟩
  simp only [countLiteral, hcount]
  ring

/-- Settles O44: in both kinds of scanline every packet is as long as the limit lets it be. -/
theorem encodedLineLengthLaws : Obligations.EncodedLineLengthLaws := by
  intro w
  refine ⟨fun v l hl => ?_, fun sl hne hdiff => ?_⟩
  · have hlen := encodeFrom_length_of_fullPackets (x := 0) (List.length_replicate (n := l) (a := v)).ge
      (fun _ _ => fullPackets_replicate (w := w)) (Nat.le_refl l)
    rw [encodeScanline, List.length_replicate, hlen, Nat.zero_mul, Nat.add_zero, Nat.sub_zero]
  · have hlen := encodeFrom_length_of_fullPackets (x := 0) (Nat.le_refl sl.length)
      (fun _ _ => fullPackets_of_noRuns (w := w) fun q hq => hdiff q hq.1 hq.2) (Nat.le_refl sl.length)
    rw [encodeScanline, hlen, Nat.sub_zero]
    ring

end Sys2Proof.Machine
end

section
/-! PROOF. FETCH where the bus refuses a source byte: the samples of the pixels before it are in SL, and the run ends in
BusError with its address (R195, R266, R270). -/

namespace Sys2Proof.Machine

section
variable {s : State}

theorem memRead_of_refused {a : Nat} (h : accepts s.plat .read a = false) : memRead s a = .error a := by
  rw [memRead, h, if_neg Bool.false_ne_true]

/-- The bytes of a sample are read in address order, so the first refused one is the error (R192, R195). -/
theorem readSample_of_refused {w : ElementWidth} {a k : Nat} (o : ByteOrder) (hk : k < elementBytes w)
    (hok : ∀ j < k, accepts s.plat .read (a + j) = true)
    (hbad : accepts s.plat .read (a + k) = false) :
    readSample w o a s = .error (a + k) := by
  have hrefused := memRead_of_refused hbad
  cases k with
  | zero =>
    rw [Nat.add_zero] at hrefused ⊢
    simp only [readSample, hrefused]
  | succ j =>
    have hfirst : memRead s a = .ok (blockByte s a) := memRead_of_accepts (hok 0 j.succ_pos)
    cases w with
    | one =>
      rw [elementBytes_one] at hk
      omega
    | two =>
      obtain rfl : j = 0 := by rw [elementBytes_two] at hk; omega
      simp only [readSample, hfirst, hrefused]

/-- FETCH's loop stops at the first pixel with a refused byte, `n` pixels on: the samples before it are read, and none
from it on. -/
theorem fetchSamples_of_refused {g : Geometry} {row channel n count p k : Nat} (hn : n < count)
    (hk : k < elementBytes g.width)
    (hbefore : ∀ q, p ≤ q → q < p + n → ∀ j < elementBytes g.width,
      accepts s.plat .read (srcAddr s.cfg g.depth g.width row q channel + j) = true)
    (hok : ∀ j < k, accepts s.plat .read (srcAddr s.cfg g.depth g.width row (p + n) channel + j) = true)
    (hbad : accepts s.plat .read (srcAddr s.cfg g.depth g.width row (p + n) channel + k) = false) :
    fetchSamples g row channel s count p
      = ((List.range' p n).map fun q =>
          blockSample s g.width g.order (srcAddr s.cfg g.depth g.width row q channel),
        some (srcAddr s.cfg g.depth g.width row (p + n) channel + k)) := by
  induction count generalizing n p with
  | zero => exact absurd hn (Nat.not_lt_zero n)
  | succ count ih =>
    cases n with
    | zero =>
      have hstop := readSample_of_refused g.order hk hok hbad
      simp only [Nat.add_zero] at hstop
      simp only [fetchSamples, hstop, List.range'_zero, List.map_nil, Nat.add_zero]
    | succ n =>
      have hfirst := readSample_of_accepts g.order (hbefore p (Nat.le_refl p) (by omega))
      have hshift : p + (n + 1) = p + 1 + n := by omega
      rw [hshift] at hok hbad ⊢
      have hrest := ih (p := p + 1) (Nat.lt_of_succ_lt_succ hn)
        (fun q hq hq' => hbefore q (by omega) (by omega)) hok hbad
      simp only [fetchSamples, hfirst, hrest, List.range'_succ, List.map_cons]

/-- FETCH where a source byte is refused (R195, R266). -/
theorem fetchLine_of_refused {g : Geometry} {z : BitVec 2} {y : BitVec 16} {p k : Nat}
    (hz : s.z = some z) (hy : s.y = some y) (hg : s.geom = some g) (hp : p < s.cfg.width.toNat)
    (hk : k < elementBytes g.width) :
    let addr := fun q =>
      srcAddr s.cfg g.depth g.width (sourceRow s.cfg.height.toNat y.toNat) q z.toNat
    (∀ q < p, ∀ j < elementBytes g.width, accepts s.plat .read (addr q + j) = true) →
    (∀ j < k, accepts s.plat .read (addr p + j) = true) →
    accepts s.plat .read (addr p + k) = false →
    fetchLine s = .next (fail .busError (addr p + k) { s with
      sl := (List.range p).map fun q => blockSample s g.width g.order (addr q) }) := by
  intro addr hbefore hok hbad
  have hstop := fetchSamples_of_refused (p := 0) (n := p) hp hk
    (fun q _ hq => hbefore q (by omega)) (by rwa [Nat.zero_add]) (by rwa [Nat.zero_add])
  rw [Nat.zero_add] at hstop
  simp only [fetchLine, hz, hy, hg, held_some, hstop, List.range_eq_range', addr]

end

/-- Settles O32: the loop stops at the refused byte, and FAIL does the rest. -/
theorem fetchBusError : Obligations.FetchBusError := by
  intro s g z y p k hturn hp hg hz hy hwidth hk addr hbefore hok hbad
  have hstep : step s = fetchLine (tick s) :=
    (step_sequencer hturn).trans (sequencerTurn_fetch (s := tick s) hp)
  have hline := fetchLine_of_refused (s := tick s) hz hy hg hwidth hk hbefore hok hbad
  exact ⟨_, _, hstep.trans hline, _, _, rfl,
    leavesMemory_memoryAfterRun (s := { tick s with sl := _ }) (by simp [hp])⟩

end Sys2Proof.Machine
end

section
/-! PROOF. The table builder's ROW_BEGIN and FINISH in full (R216, R222): what they write, and how the run ends (R77,
R266, R270). -/

namespace Sys2Proof.Machine

section
variable {s : State}

theorem step_rowBegin (hturn : nextTurn s = .sequencer) (hp : s.phase = .rowBegin) :
    step s = rowBegin (tick s) :=
  (step_sequencer hturn).trans (sequencerTurn_rowBegin (s := tick s) hp)

theorem step_finish (hturn : nextTurn s = .sequencer) (hp : s.phase = .finish) :
    step s = finishRun (tick s) :=
  (step_sequencer hturn).trans (sequencerTurn_finish (s := tick s) hp)

end

/-- Settles O29: the step is the store of the offset entry, performed or refused. -/
theorem rowBeginWritesOffset : Obligations.RowBeginWritesOffset := by
  intro s z y d hturn hp hmem hz hy hd a entry
  have hstep : step s = storeSeq a entry (tick s) fun t =>
      .next { t with rstart := some d, phase := .fetch } :=
    (step_rowBegin hturn hp).trans (rowBegin_held (s := tick s) hz hy hd)
  refine ⟨fun hok => ?_, fun k hk hbad => ?_⟩
  · exact ⟨_, hstep.trans (storeSeq_of_accepts (s := tick s) (bs := entry) hok),
      stores_writeList hmem hok⟩
  · rw [hstep]
    exact storeSeq_refused (s := tick s) (by simp [hp]) hmem hk hbad

/-- Settles O33. -/
theorem finishReportsSize : Obligations.FinishReportsSize := by
  intro s d hturn hp hd
  exact ⟨_, _, (step_finish hturn hp).trans (finishRun_held (s := tick s) hd),
    leavesMemory_memoryAfterRun (s := tick s) (by simp [hp])⟩

end Sys2Proof.Machine
end

section
/-! PROOF. A run ends (R221): in a legal state each micro-operation answers a next state and takes at least one from a
bound on the steps left, and IDLE is reached only with DONE or ERR. -/

namespace Sys2Proof.Machine

/-! ### A bound on the steps left (R221) -/

/-- The scanlines of the run after the current one, by the table index (R211). -/
def scanlinesAfter (s : State) : Nat :=
  s.geom.elim 0 (·.depth) * s.cfg.height.toNat
    - (tableIndex s.cfg.height.toNat (s.z.elim 0 BitVec.toNat) (s.y.elim 0 BitVec.toNat) + 1)

/-- The most steps a run has left: `W + 3` for each scanline to come (ROW_BEGIN, FETCH, at most `W` packets and
ROW_END), the rest of the current one, and FINISH; CHECK counts with the most channels a format has (R221). -/
def stepsLeft (s : State) : Nat :=
  let width := s.cfg.width.toNat
  let later := scanlinesAfter s * (width + 3)
  match s.phase with
  | .idle => 0
  | .check => 2 + 4 * s.cfg.height.toNat * (width + 3)
  | .rowBegin => later + (width + 3) + 1
  | .fetch => later + (width + 2) + 1
  | .emit => later + (width - s.x.elim 0 BitVec.toNat + 1) + 1
  | .rowEnd => later + 1 + 1
  | .finish => 1

section
variable {s : State}

theorem stepsLeft_idle (hp : s.phase = .idle) : stepsLeft s = 0 := by
  simp only [stepsLeft, hp]

theorem stepsLeft_check (hp : s.phase = .check) :
    stepsLeft s = 2 + 4 * s.cfg.height.toNat * (s.cfg.width.toNat + 3) := by
  simp only [stepsLeft, hp]

theorem stepsLeft_rowBegin (hp : s.phase = .rowBegin) :
    stepsLeft s = scanlinesAfter s * (s.cfg.width.toNat + 3) + (s.cfg.width.toNat + 3) + 1 := by
  simp only [stepsLeft, hp]

theorem stepsLeft_fetch (hp : s.phase = .fetch) :
    stepsLeft s = scanlinesAfter s * (s.cfg.width.toNat + 3) + (s.cfg.width.toNat + 2) + 1 := by
  simp only [stepsLeft, hp]

theorem stepsLeft_emit {x : BitVec 16} (hp : s.phase = .emit) (hx : s.x = some x) :
    stepsLeft s = scanlinesAfter s * (s.cfg.width.toNat + 3) + (s.cfg.width.toNat - x.toNat + 1) + 1 := by
  simp only [stepsLeft, hp, hx, Option.elim]

theorem stepsLeft_rowEnd (hp : s.phase = .rowEnd) :
    stepsLeft s = scanlinesAfter s * (s.cfg.width.toNat + 3) + 1 + 1 := by
  simp only [stepsLeft, hp]

theorem stepsLeft_finish (hp : s.phase = .finish) : stepsLeft s = 1 := by
  simp only [stepsLeft, hp]

/-- A run in progress has a step left. -/
theorem idle_of_stepsLeft (h : stepsLeft s = 0) : s.phase = .idle := by
  cases hp : s.phase with
  | idle => rfl
  | check => simp [stepsLeft_check hp] at h
  | rowBegin => simp [stepsLeft_rowBegin hp] at h
  | fetch => simp [stepsLeft_fetch hp] at h
  | emit => simp [stepsLeft, hp] at h
  | rowEnd => simp [stepsLeft_rowEnd hp] at h
  | finish => simp [stepsLeft_finish hp] at h

variable {f : PixelFormat} {z : BitVec 2} {y : BitVec 16} {d : Word}

theorem FrameLegal.scanlinesAfter (h : FrameLegal s f z y d) :
    scanlinesAfter s = f.depth * s.cfg.height.toNat
      - (tableIndex s.cfg.height.toNat z.toNat y.toNat + 1) := by
  simp only [Machine.scanlinesAfter, h.geometry, h.z_held, h.y_held, Option.elim]

/-- At ROW_BEGIN the bound is `W + 3` for each scanline from this one on, and FINISH. -/
theorem FrameLegal.stepsLeft_rowBegin (h : FrameLegal s f z y d) (hp : s.phase = .rowBegin) :
    stepsLeft s = (f.depth * s.cfg.height.toNat - tableIndex s.cfg.height.toNat z.toNat y.toNat)
      * (s.cfg.width.toNat + 3) + 1 := by
  have hi := h.entries.1
  rw [Machine.stepsLeft_rowBegin hp, h.scanlinesAfter, ← Nat.succ_mul]
  congr 2
  omega

end

/-! ### What a micro-operation leads to -/

/-- The rule answers a next state, and `P` holds of it. -/
def LeadsTo (P : State → Prop) (r : Result) : Prop := ∃ t, r = .next t ∧ P t

theorem leadsTo_next {P : State → Prop} {t : State} (h : P t) : LeadsTo P (.next t) := ⟨t, rfl, h⟩

theorem leadsTo_held {α : Type} {P : State → Prop} {r : Option α} {l : Latch} {k : α → Result} {v : α}
    (hr : r = some v) (h : LeadsTo P (k v)) : LeadsTo P (held r l k) := by
  rwa [hr, held_some]

/-- At most `n` steps are left of the run, and if it has ended, it is done or has an error. -/
structure EndsWithin (n : Nat) (s : State) : Prop where
  result : s.phase = .idle → s.status.done = true ∨ s.status.err = true
  bound : stepsLeft s ≤ n

section
variable {n : Nat} {s : State}

theorem EndsWithin.of_idle (hp : s.phase = .idle) (h : s.status.done = true ∨ s.status.err = true) :
    EndsWithin n s :=
  ⟨fun _ => h, (stepsLeft_idle hp).trans_le (Nat.zero_le n)⟩

theorem EndsWithin.of_fail (e : ErrorKind) (info : Nat) (s : State) : EndsWithin n (fail e info s) :=
  .of_idle rfl (.inr rfl)

theorem EndsWithin.of_busy (hp : s.phase ≠ .idle) (h : stepsLeft s ≤ n) : EndsWithin n s :=
  ⟨fun hidle => absurd hidle hp, h⟩

/-- A write goes on, or the run ends in BusError. -/
theorem endsWithin_storeSeq {a : Nat} {bs : List Byte} {k : State → Result}
    (hk : ∀ m, LeadsTo (EndsWithin n) (k { s with mem := m })) :
    LeadsTo (EndsWithin n) (storeSeq a bs s k) := by
  obtain ⟨heq, -⟩ | ⟨_, -, heq, -⟩ := storeSeq_cases a bs s k <;> rw [heq]
  · exact hk _
  · exact leadsTo_next (.of_fail _ _ _)

/-- CHECK's bound has room for the `D*H` scanlines of every format (R121, R221). -/
theorem endsWithin_checkRun (hp : s.phase = .check) (hn : stepsLeft s ≤ n + 1) :
    LeadsTo (EndsWithin n) (checkRun s) := by
  obtain ⟨-, heq⟩ | ⟨f, hf, ⟨-, heq⟩ | ⟨-, -, heq⟩ | ⟨hres, -, heq⟩⟩ := checkRun_cases s <;>
    rw [heq] <;> refine leadsTo_next ?_
  · exact .of_fail _ _ _
  · exact .of_fail _ _ _
  · exact .of_fail _ _ _
  · obtain ⟨hdepth, hdepth'⟩ := formatRow_depth hf
    obtain ⟨-, hheight, -⟩ := (legalResolution_iff _).1 hres
    have hlines : 0 < f.depth * s.cfg.height.toNat := Nat.mul_pos hdepth hheight
    have hall : (f.depth * s.cfg.height.toNat - (0 * s.cfg.height.toNat + 0 + 1)) * (s.cfg.width.toNat + 3)
          + (s.cfg.width.toNat + 3)
        = f.depth * s.cfg.height.toNat * (s.cfg.width.toNat + 3) := by
      rw [← Nat.succ_mul]
      congr 1
      omega
    have hmost : f.depth * s.cfg.height.toNat * (s.cfg.width.toNat + 3)
        ≤ 4 * s.cfg.height.toNat * (s.cfg.width.toNat + 3) :=
      Nat.mul_le_mul_right _ (Nat.mul_le_mul_right _ hdepth')
    rw [stepsLeft_check hp] at hn
    refine .of_busy nofun ((stepsLeft_rowBegin rfl).trans_le ?_)
    show (f.depth * s.cfg.height.toNat - (0 * s.cfg.height.toNat + 0 + 1)) * (s.cfg.width.toNat + 3)
      + (s.cfg.width.toNat + 3) + 1 ≤ n
    omega

end

section
variable {n : Nat} {s : State} {f : PixelFormat} {z : BitVec 2} {y : BitVec 16} {d : Word}

theorem endsWithin_rowBegin (hf : FrameLegal s f z y d) (hp : s.phase = .rowBegin)
    (hn : stepsLeft s ≤ n + 1) : LeadsTo (EndsWithin n) (rowBegin s) := by
  rw [rowBegin_held hf.z_held hf.y_held hf.dcur_held]
  refine endsWithin_storeSeq fun m => leadsTo_next (.of_busy nofun ((stepsLeft_fetch rfl).trans_le ?_))
  rw [stepsLeft_rowBegin hp] at hn
  exact Nat.le_of_succ_le_succ hn

theorem endsWithin_fetchLine (hf : FrameLegal s f z y d) (hp : s.phase = .fetch)
    (hn : stepsLeft s ≤ n + 1) : LeadsTo (EndsWithin n) (fetchLine s) := by
  refine leadsTo_held hf.z_held (leadsTo_held hf.y_held (leadsTo_held hf.geometry ?_))
  dsimp only
  split
  · exact leadsTo_next (.of_fail _ _ _)
  · refine leadsTo_next (.of_busy nofun ((stepsLeft_emit rfl rfl).trans_le ?_))
    rw [stepsLeft_fetch hp] at hn
    exact Nat.le_of_succ_le_succ hn

/-- In a legal state the detector has a packet to answer (R150, R155). -/
theorem EmitLegal.chosenPacket {x : BitVec 16} {r : Word} (hemit : EmitLegal s f x r d)
    (hf : FrameLegal s f z y d) :
    ∃ i, chosenPacket s = .ok i ∧
      packetAt s.plat.policy s.sl f.width s.cfg.width.toNat x.toNat = some i := by
  obtain ⟨i, hi⟩ := Option.isSome_iff_exists.1
    (packetAt_isSome (p := s.plat.policy) (w := f.width) hemit.x_lt hemit.line_written.ge)
  refine ⟨i, ?_, hi⟩
  simp only [Machine.chosenPacket, hf.geometry, hemit.x_held, hi]

/-- A packet takes at least one sample, and the position stays in the scanline (R155, R220). -/
theorem endsWithin_emit {x : BitVec 16} {r : Word} (hf : FrameLegal s f z y d)
    (hemit : EmitLegal s f x r d) (hp : s.phase = .emit) (hn : stepsLeft s ≤ n + 1) :
    LeadsTo (EndsWithin n) (sequencerTurn s) := by
  obtain ⟨i, hc, hpacket⟩ := hemit.chosenPacket hf
  obtain ⟨hpos, -, hwithin, -⟩ := packetAt_cases hpacket
  rw [sequencerTurn_emit hp hc, exec_chosen_eq hp hf.geometry hf.dcur_held hemit.x_held hc]
  rw [stepsLeft_emit hp hemit.x_held] at hn
  obtain ⟨-, heq⟩ | ⟨-, heq⟩ := emitBytes_cases (encode i) (encode i).length
    (detect s.plat.policy s.sl f.width s.cfg.width.toNat x.toNat).2 d x s <;> rw [heq]
  · exact leadsTo_next (.of_fail _ _ _)
  refine endsWithin_storeSeq fun m => leadsTo_next ?_
  generalize (detect s.plat.policy s.sl f.width s.cfg.width.toNat x.toNat).2 = count at hpos hwithin
  by_cases hend : x.toNat + count = s.cfg.width.toNat
  · have hphase : phaseAfter s.cfg.width.toNat (x.toNat + count) = .rowEnd := if_pos hend
    refine .of_busy (by simp [hphase]) ((stepsLeft_rowEnd hphase).trans_le ?_)
    show scanlinesAfter s * (s.cfg.width.toNat + 3) + 1 + 1 ≤ n
    omega
  · have hphase : phaseAfter s.cfg.width.toNat (x.toNat + count) = .emit := if_neg hend
    have hwidth := hf.resolution.1.2
    have hx : (BitVec.ofNat 16 (x.toNat + count)).toNat = x.toNat + count := by
      rw [BitVec.toNat_ofNat, Nat.mod_eq_of_lt (by omega)]
    refine .of_busy (by simp [hphase]) ((stepsLeft_emit hphase rfl).trans_le ?_)
    show scanlinesAfter s * (s.cfg.width.toNat + 3)
      + (s.cfg.width.toNat - (BitVec.ofNat 16 (x.toNat + count)).toNat + 1) + 1 ≤ n
    omega

/-- ROW_END leads to the scanline of the next table index, or past the last one (R219). -/
theorem endsWithin_rowEnd {r : Word} (hf : FrameLegal s f z y d) (hr : s.rstart = some r)
    (hp : s.phase = .rowEnd) (hn : stepsLeft s ≤ n + 1) : LeadsTo (EndsWithin n) (rowEnd s) := by
  rw [rowEnd_held hf.geometry hf.z_held hf.y_held hf.dcur_held hr]
  rw [stepsLeft_rowEnd hp, hf.scanlinesAfter] at hn
  refine endsWithin_storeSeq fun m => leadsTo_next ?_
  have hf' : FrameLegal { s with mem := m, sl := [] } f z y d :=
    hf.move rfl rfl hf.z_held hf.y_held hf.dcur_held hf.z_lt hf.y_lt
  obtain ⟨z', y', hnext, ⟨hphase, hindex⟩ | ⟨hphase, -⟩⟩ := hf'.advance
  · refine .of_busy (by simp [hphase]) ((hnext.stepsLeft_rowBegin hphase).trans_le ?_)
    rw [advance_cfg, hindex]
    exact Nat.le_of_succ_le_succ hn
  · refine .of_busy (by simp [hphase]) ((stepsLeft_finish hphase).trans_le ?_)
    omega

end

section
variable {n : Nat} {s : State}

/-- In a legal state the sequencer's turn takes one from the steps left, and a run that has ended stays so. -/
theorem endsWithin_sequencerTurn (h : Inv s) (hs : EndsWithin (n + 1) s) :
    LeadsTo (EndsWithin n) (sequencerTurn s) := by
  have hn := hs.bound
  by_cases hidle : s.phase = .idle
  · simp only [sequencerTurn, hidle]
    exact leadsTo_next (.of_idle hidle (hs.result hidle))
  by_cases hcheck : s.phase = .check
  · rw [sequencerTurn_check hcheck]
    exact endsWithin_checkRun hcheck hn
  obtain ⟨f, z, y, d, hf, hl⟩ := h.run.frame hidle hcheck
  cases hp : s.phase with
  | idle => exact absurd hp hidle
  | check => exact absurd hp hcheck
  | rowBegin =>
    rw [sequencerTurn_rowBegin hp]
    exact endsWithin_rowBegin hf hp hn
  | fetch =>
    rw [sequencerTurn_fetch hp]
    exact endsWithin_fetchLine hf hp hn
  | emit =>
    obtain ⟨r, x, -, hemit⟩ := (phaseLegal_emit hp).1 hl
    exact endsWithin_emit hf hemit hp hn
  | rowEnd =>
    obtain ⟨-, r, hline, -⟩ := (phaseLegal_rowEnd hp).1 hl
    rw [sequencerTurn_rowEnd hp]
    exact endsWithin_rowEnd hf hline.rstart_held hp hn
  | finish =>
    rw [sequencerTurn_finish hp, finishRun_held hf.dcur_held]
    exact leadsTo_next (.of_idle rfl (.inl rfl))

/-! ### A run of sequencer turns -/

/-- The sequencer leaves the order of turns as it is (R20). -/
theorem sequencerTurn_turns (s : State) :
    Answers (fun t => t.world.turns = s.world.turns) (sequencerTurn s) := by
  intro t h
  by_cases hp : s.phase = .finish
  · rw [sequencerTurn_finish hp] at h
    obtain ⟨d, -, h⟩ := held_next h
    cases h
    rfl
  · obtain hw | hw := keepsOrVoids_sequencerTurn hp t h <;> rw [hw]
    rfl

/-- Given `n` turns of the sequencer, a legal run that ends within `n` steps has ended. -/
theorem run_endsWithin {rest : List Turn} (h : Inv s) (hs : EndsWithin n s)
    (hturns : s.world.turns = List.replicate n .sequencer ++ rest) :
    ∃ t, run n s = .next t ∧ t.phase = .idle ∧ (t.status.done = true ∨ t.status.err = true) := by
  induction n generalizing s with
  | zero =>
    have hidle := idle_of_stepsLeft (Nat.le_zero.1 hs.bound)
    exact ⟨s, rfl, hidle, hs.result hidle⟩
  | succ n ih =>
    obtain ⟨t, hturn, ht⟩ := endsWithin_sequencerTurn h.tick ⟨hs.result, hs.bound⟩
    have hleft : t.world.turns = List.replicate n .sequencer ++ rest := by
      rw [sequencerTurn_turns _ t hturn, tick_turns, hturns]
      rfl
    obtain ⟨u, hrun, hu⟩ := ih (inv_sequencerTurn h.tick t hturn) ht hleft
    have hstep : step s = .next t := (step_sequencer (nextTurn_of_turns hturns)).trans hturn
    exact ⟨u, (coreRun_of_next (M := Sys2Proof.core) hstep).trans hrun, hu⟩

end

/-- Settles O58: each turn of the sequencer takes one from the steps left, and where the run ends before them all IDLE
is kept; in CHECK they are the statement's bound. -/
theorem runTerminates : Obligations.RunTerminates := by
  intro s h hp
  refine ⟨_, Nat.le_refl _, fun rest => run_endsWithin (h.withWorld _) (.of_busy ?_ ?_) rfl⟩
  · exact fun hidle => absurd (hp.symm.trans hidle) nofun
  · exact (stepsLeft_check (s := withTurns _ s) hp).le

end Sys2Proof.Machine
end

section
/-! PROOF. The host's commands (R241-R245), and what a run allows: while BUSY the host's turn leaves every register of
the block as it is (R242, R246), and a micro-operation keeps the configuration and ends the run only with DONE or ERR. -/

namespace Sys2Proof.Machine

/-! ### The commands while BUSY and while idle (R241-R245) -/

section
variable {s : State} {r : Reg} {v : Word} {clear : Bool}

theorem execRegWrite_of_busy (hr : r ≠ .ctrl) (hb : busy s = true) : execRegWrite r v s = .next s := by
  rw [execRegWrite, if_neg hr, if_pos hb]

theorem execRegWrite_of_idle (hr : r ≠ .ctrl) (hb : busy s = false) :
    execRegWrite r v s = .next { s with cfg := writeConfig r v s.cfg } := by
  rw [execRegWrite, if_neg hr, if_neg (by simp [hb])]

theorem execCmdClear_of_busy (hb : busy s = true) : execCmdClear s = .next s := by
  rw [execCmdClear, if_pos hb]

theorem execCmdClear_of_idle (hb : busy s = false) : execCmdClear s = .next (clearResults s) := by
  rw [execCmdClear, if_neg (by simp [hb])]

theorem execCmdStart_of_busy (hb : busy s = true) : execCmdStart clear s = .next s := by
  rw [execCmdStart, if_pos hb]

/-- While idle the CLEAR bit makes no difference, as START clears the results too (R243, R245). -/
theorem execCmdStart_of_idle (hb : busy s = false) :
    execCmdStart clear s =
      if launchOverlaps s.plat s.cfg then .refused .overlappingLaunch else .next (startRun s) := by
  rw [execCmdStart, if_neg (by simp [hb])]
  cases clear <;> rfl

end

/-- Settles O13. -/
theorem regWriteEffect : Obligations.RegWriteEffect := by
  intro v s
  refine ⟨fun hb r hr => execRegWrite_of_busy hr hb, fun hb => ?_⟩
  have takes (r : Reg) (hr : r ≠ .ctrl) := execRegWrite_of_idle (v := v) hr hb
  refine ⟨?_, takes .width nofun, takes .height nofun, takes .srcBase nofun, takes .srcStride nofun,
    takes .outBase nofun, takes .outCap nofun, takes .intEn nofun, ?_⟩
  · rw [BitVec.setWidth_eq_extractLsb' (by decide)]
    exact takes .format nofun
  · rintro r (rfl | rfl | rfl | rfl | rfl | rfl | rfl) <;> exact execRegWrite_ignored nofun rfl

/-- Settles O16. -/
theorem startBeginsRun : Obligations.StartBeginsRun := by
  refine fun clear s => ⟨execCmdStart_of_busy, fun hb hapart => ?_⟩
  rw [exec_cmdStart, execCmdStart_of_idle hb, hapart]
  rfl

/-- Settles O17. -/
theorem clearThenStart : Obligations.ClearThenStart := by
  refine fun s => ⟨fun hb => ⟨clearResults s, execCmdClear_of_idle hb, ?_⟩, execCmdStart_of_busy⟩
  have hb' : busy (clearResults s) = false := hb
  have hstart : execCmdStart true s = _ := execCmdStart_of_idle hb
  exact ⟨hstart.trans (execCmdStart_of_idle hb').symm, hstart.trans (execCmdStart_of_idle hb).symm⟩

/-- Settles O18. -/
theorem clearClearsResults : Obligations.ClearClearsResults :=
  fun _ => ⟨execCmdClear_of_busy, execCmdClear_of_idle⟩

/-! ### The host's turn while BUSY (R242, R246) -/

/-- The states differ at most in memory and in the outside world: every register of the block is the same. -/
def SameBlock (s t : State) : Prop := t = { s with mem := t.mem, world := t.world }

section
variable {s t : State}

theorem SameBlock.cfg (h : SameBlock s t) : t.cfg = s.cfg := by
  unfold SameBlock at h
  rw [h]

theorem SameBlock.phase (h : SameBlock s t) : t.phase = s.phase := by
  unfold SameBlock at h
  rw [h]

theorem SameBlock.of_withScript {ops : List HostOp} (h : SameBlock (withScript ops s) t) : SameBlock s t := h

end

theorem sameBlock_exec {i : Instr} {s : State} (hi : formatOf i = .mmio32) (hb : busy s = true) :
    Answers (SameBlock s) (exec i s) := by
  cases i with
  | rep8 | lit8 | rep16 | lit16 => cases hi
  | regRead r => exact answers_next.2 rfl
  | cmdStart clear => rw [exec_cmdStart, execCmdStart_of_busy hb]; exact answers_next.2 rfl
  | cmdClear => rw [exec_cmdClear, execCmdClear_of_busy hb]; exact answers_next.2 rfl
  | ctrlNop => exact answers_next.2 rfl
  | regWrite r v =>
    by_cases hr : r = .ctrl
    · rw [exec_regWrite, execRegWrite, if_pos hr]; exact answers_refused _
    · rw [exec_regWrite, execRegWrite_of_busy hr hb]; exact answers_next.2 rfl

theorem sameBlock_registerAccess {s : State} (hb : busy s = true) (isWrite : Bool) (a : Nat)
    (w : AccessWidth) (data : Word) : Answers (SameBlock s) (registerAccess isWrite a w data s) := by
  obtain ⟨_, i, -, -, hkey, heq⟩ | ⟨_, heq⟩ := registerAccess_cases isWrite a w data s <;> rw [heq]
  · exact sameBlock_exec (formatOf_decodeKey hkey) hb
  · exact answers_refused _

theorem sameBlock_hostTurn {s : State} (hb : busy s = true) : Answers (SameBlock s) (hostTurn s) := by
  unfold hostTurn
  cases s.world.script with
  | nil => exact answers_next.2 rfl
  | cons op rest =>
    have hb' : busy (withScript rest s) = true := hb
    cases op with
    | rd a w => exact fun t ht => (sameBlock_registerAccess hb' false a w 0 t ht).of_withScript
    | wr a w data => exact fun t ht => (sameBlock_registerAccess hb' true a w data t ht).of_withScript
    | wait r mask value =>
      dsimp only
      split
      · exact fun t ht => (sameBlock_exec (i := .regRead r) rfl hb' t ht).of_withScript
      · exact sameBlock_exec (i := .regRead r) rfl hb
    | waitIrq =>
      dsimp only
      split
      · exact answers_next.2 rfl
      · exact answers_next.2 rfl
    | mem a bs => exact answers_hostAccess fun _ => answers_next.2 rfl
    | peek a => exact answers_hostAccess fun _ => answers_next.2 rfl

/-! ### A micro-operation of a run (R242, R246) -/

/-- The run reads the configuration it had, and where it has ended it is done or has an error. -/
structure RunStep (s t : State) : Prop where
  config : t.cfg = s.cfg
  result : t.phase = .idle → t.status.done = true ∨ t.status.err = true

section
variable {s t : State}

theorem RunStep.goesOn (hcfg : t.cfg = s.cfg) (hphase : t.phase ≠ .idle) : RunStep s t :=
  ⟨hcfg, fun hidle => absurd hidle hphase⟩

theorem RunStep.of_fail (e : ErrorKind) (info : Nat) (u : State) (hcfg : u.cfg = s.cfg) :
    RunStep s (fail e info u) :=
  ⟨hcfg, fun _ => .inr rfl⟩

theorem runStep_storeSeq {a : Nat} {bs : List Byte} {k : State → Result}
    (hk : ∀ m, Answers (RunStep s) (k { s with mem := m })) :
    Answers (RunStep s) (storeSeq a bs s k) := by
  obtain ⟨heq, -⟩ | ⟨_, -, heq, -⟩ := storeSeq_cases a bs s k <;> rw [heq]
  · exact hk _
  · exact answers_next.2 (.of_fail _ _ _ rfl)

theorem runStep_checkRun (s : State) : Answers (RunStep s) (checkRun s) := by
  obtain ⟨-, heq⟩ | ⟨f, -, ⟨-, heq⟩ | ⟨-, -, heq⟩ | ⟨-, -, heq⟩⟩ := checkRun_cases s <;>
    rw [heq, answers_next]
  · exact .of_fail _ _ _ rfl
  · exact .of_fail _ _ _ rfl
  · exact .of_fail _ _ _ rfl
  · exact .goesOn rfl nofun

theorem runStep_fetchLine (s : State) : Answers (RunStep s) (fetchLine s) := by
  refine answers_held fun _ => answers_held fun _ => answers_held fun _ => ?_
  dsimp only
  split
  · exact answers_next.2 (.of_fail _ _ _ rfl)
  · exact answers_next.2 (.goesOn rfl nofun)

theorem phaseAfter_ne_idle (width x : Nat) : phaseAfter width x ≠ .idle :=
  fun h => absurd (h ▸ phaseAfter_mem_followers width x) (by decide)

theorem runStep_emitBytes (bytes : List Byte) (need n : Nat) (d : Word) (x : BitVec 16) (s : State) :
    Answers (RunStep s) (emitBytes bytes need n d x s) := by
  obtain ⟨-, heq⟩ | ⟨-, heq⟩ := emitBytes_cases bytes need n d x s <;> rw [heq]
  · exact answers_next.2 (.of_fail _ _ _ rfl)
  · exact runStep_storeSeq fun _ => answers_next.2 (.goesOn rfl (phaseAfter_ne_idle _ _))

theorem runStep_chosenPacket {i : Instr} (hp : s.phase = .emit) (hc : chosenPacket s = .ok i) :
    Answers (RunStep s) (exec i s) := by
  obtain ⟨g, x, hg, hx, -⟩ := chosenPacket_ok hc
  obtain ⟨n, -, -, ⟨v, heq⟩ | ⟨vs, heq⟩⟩ := exec_chosen_cases hp hc hg hx <;> rw [heq]
  · exact answers_held fun _ => answers_held fun _ => runStep_emitBytes _ _ _ _ _ s
  · exact answers_held fun _ => answers_held fun _ => runStep_emitBytes _ _ _ _ _ s

theorem advance_ne_idle (depth : Nat) (z : BitVec 2) (y : BitVec 16) (s : State) :
    (advance depth z y s).phase ≠ .idle :=
  fun h => absurd (h ▸ advance_phase_mem_followers depth z y s) (by decide)

theorem runStep_sequencerTurn (hb : busy s = true) : Answers (RunStep s) (sequencerTurn s) := by
  unfold sequencerTurn
  cases hp : s.phase with
  | idle => exact absurd hp ((busy_eq_true_iff s).1 hb)
  | check => exact runStep_checkRun s
  | rowBegin =>
    exact answers_held fun _ => answers_held fun _ => answers_held fun _ =>
      runStep_storeSeq fun _ => answers_next.2 (.goesOn rfl nofun)
  | fetch => exact runStep_fetchLine s
  | emit =>
    cases hc : chosenPacket s with
    | ok i => exact runStep_chosenPacket hp hc
    | error l => exact answers_fault _
  | rowEnd =>
    exact answers_held fun _ => answers_held fun _ => answers_held fun _ => answers_held fun _ =>
      answers_held fun _ => runStep_storeSeq fun _ =>
        answers_next.2 (.goesOn (advance_cfg ..) (advance_ne_idle _ _ _ _))
  | finish => exact answers_held fun _ => answers_next.2 ⟨rfl, fun _ => .inl rfl⟩

/-- What a step of a run can do: the host's leaves the block as it is, the sequencer's goes on or reports, and reset
(R242, R246). -/
theorem step_cases_of_busy (hb : busy s = true) (hstep : step s = .next t) :
    (nextTurn s = .host ∧ SameBlock s t) ∨ (nextTurn s = .sequencer ∧ RunStep s t) ∨
      nextTurn s = .reset := by
  obtain ⟨hturn, heq⟩ | ⟨hturn, heq⟩ | ⟨hturn, -⟩ := step_cases s
  · exact .inl ⟨hturn, sameBlock_hostTurn (s := tick s) hb t (heq ▸ hstep)⟩
  · obtain ⟨hconfig, hresult⟩ := runStep_sequencerTurn (s := tick s) hb t (heq ▸ hstep)
    exact .inr (.inl ⟨hturn, hconfig, hresult⟩)
  · exact .inr (.inr hturn)

end

/-- Settles O14. -/
theorem configFrozenWhileBusy : Obligations.ConfigFrozenWhileBusy := by
  refine fun s hb => ⟨fun r v hr => execRegWrite_of_busy hr hb, fun t hstep hturn => ?_⟩
  obtain ⟨-, hblock⟩ | ⟨-, hrun⟩ | hreset := step_cases_of_busy hb hstep
  · exact hblock.cfg
  · exact hrun.config
  · exact absurd hreset hturn

/-- Settles O22. -/
theorem noCommandStopsRun : Obligations.NoCommandStopsRun := by
  intro s t hb hstep
  obtain ⟨hturn, hblock⟩ | ⟨hturn, hrun⟩ | hturn := step_cases_of_busy hb hstep
  · refine ⟨fun _ => hblock, fun hidle => ?_⟩
    exact absurd (hblock.phase.symm.trans ((busy_eq_false_iff t).1 hidle)) ((busy_eq_true_iff s).1 hb)
  · refine ⟨fun hhost => absurd (hturn.symm.trans hhost) nofun, fun hidle => .inr ?_⟩
    exact hrun.result ((busy_eq_false_iff t).1 hidle)
  · exact ⟨fun hhost => absurd (hturn.symm.trans hhost) nofun, fun _ => .inl hturn⟩

end Sys2Proof.Machine
end

section
/-! PROOF. How a run begins and how it ends: only a CMD_START leaves IDLE (R243, R286), only a micro-operation of a run
raises an error (R260), and then RESULT_SIZE, the interrupt output and the host's view of the output are as R270 and R275
say. -/

namespace Sys2Proof.Machine

/-! ### Leaving IDLE (R243, R286) -/

/-- Only a write key at CTRL with data bit 0 set stands for CMD_START (R100). -/
theorem decodeKey_eq_cmdStart {b clear : Bool} {off : BitVec 6} {data : Word}
    (h : decodeKey (accessKey b off data) = .ok (.cmdStart clear)) :
    b = true ∧ off = Reg.ctrl.offset ∧ data.getLsbD 0 = true := by
  cases hr : Reg.ofOffset off with
  | none =>
    rw [decodeKey_misaligned hr] at h
    cases h
  | some r =>
    cases b with
    | false =>
      rw [decodeKey_read hr] at h
      cases h
    | true =>
      by_cases hoff : off = 0
      · subst hoff
        rw [decodeKey_ctrl] at h
        split at h
        · exact ⟨rfl, rfl, ‹_›⟩
        · split at h <;> cases h
      · rw [decodeKey_write hoff hr] at h
        cases h

/-- The next line of the host's script is a word write at CTRL with data bit 0 set. -/
def WritesStart (s : State) : Prop :=
  ∃ data rest, data.getLsbD 0 = true ∧ s.world.script = .wr s.plat.regBase.toNat .word data :: rest

/-- The block is in IDLE still, or the host has started a run. -/
def IdleUnlessStarted (s t : State) : Prop := t.phase ≠ .idle → WritesStart s

section
variable {s t : State}

theorem IdleUnlessStarted.of_idle (h : t.phase = .idle) : IdleUnlessStarted s t :=
  fun hne => absurd h hne

/-- Of the register accesses only CMD_START leaves IDLE. -/
theorem exec_leaves_idle {i : Instr} (hi : formatOf i = .mmio32) (hidle : s.phase = .idle)
    (h : exec i s = .next t) (ht : t.phase ≠ .idle) : ∃ clear, i = .cmdStart clear := by
  cases i with
  | rep8 | lit8 | rep16 | lit16 => cases hi
  | cmdStart clear => exact ⟨clear, rfl⟩
  | regRead r =>
    cases h
    exact absurd hidle ht
  | cmdClear =>
    obtain ⟨-, heq⟩ | ⟨-, heq⟩ := execCmdClear_cases s <;> cases heq.symm.trans h <;>
      exact absurd hidle ht
  | ctrlNop =>
    cases h
    exact absurd hidle ht
  | regWrite r v =>
    obtain ⟨-, heq⟩ | ⟨-, heq⟩ | ⟨-, heq⟩ := execRegWrite_cases r v s <;> cases heq.symm.trans h <;>
      exact absurd hidle ht

theorem idleUnlessStarted_registerAccess {isWrite : Bool} {a : Nat} {w : AccessWidth} {data : Word}
    {rest : List HostOp} (hidle : s.phase = .idle)
    (hwrite : isWrite = true → s.world.script = .wr a w data :: rest) :
    Answers (IdleUnlessStarted s) (registerAccess isWrite a w data (withScript rest s)) := by
  obtain ⟨off, i, hoff, rfl, hkey, heq⟩ | ⟨_, heq⟩ :=
    registerAccess_cases isWrite a w data (withScript rest s) <;> rw [heq]
  · intro t ht hne
    obtain ⟨clear, rfl⟩ := exec_leaves_idle (s := withScript rest s) (formatOf_decodeKey hkey) hidle ht hne
    obtain ⟨hdir, rfl, hbit⟩ := decodeKey_eq_cmdStart hkey
    obtain rfl : a = s.plat.regBase.toNat := eq_of_windowOffset hoff
    exact ⟨data, rest, hbit, hwrite hdir⟩
  · exact answers_refused _

theorem idleUnlessStarted_hostTurn (hidle : s.phase = .idle) :
    Answers (IdleUnlessStarted s) (hostTurn s) := by
  unfold hostTurn
  cases hscript : s.world.script with
  | nil => exact answers_next.2 (.of_idle hidle)
  | cons op rest =>
    cases op with
    | rd a w => exact idleUnlessStarted_registerAccess hidle nofun
    | wr a w data => exact idleUnlessStarted_registerAccess hidle fun _ => hscript
    | wait r mask value =>
      dsimp only
      split <;> exact answers_next.2 (.of_idle hidle)
    | waitIrq =>
      dsimp only
      split <;> exact answers_next.2 (.of_idle hidle)
    | mem a bs => exact answers_hostAccess fun _ => answers_next.2 (.of_idle hidle)
    | peek a => exact answers_hostAccess fun _ => answers_next.2 (.of_idle hidle)

/-- In IDLE the sequencer has no micro-operation (R291). -/
theorem sequencerTurn_idle (hp : s.phase = .idle) : sequencerTurn s = .next s := by
  simp only [sequencerTurn, hp]

end

/-- Settles O23. -/
theorem onlyStartLeavesIdle : Obligations.OnlyStartLeavesIdle := by
  intro s t hidle hstep
  obtain ⟨hturn, heq⟩ | ⟨hturn, heq⟩ | ⟨hturn, heq⟩ := step_cases s <;> rw [heq] at hstep
  · exact ⟨fun hne => ⟨hturn, idleUnlessStarted_hostTurn (s := tick s) hidle t hstep hne⟩,
      fun hseq => absurd (hturn.symm.trans hseq) nofun⟩
  · cases (sequencerTurn_idle (s := tick s) hidle).symm.trans hstep
    exact ⟨fun hne => absurd hidle hne, fun _ => rfl⟩
  · cases hstep
    exact ⟨fun hne => absurd rfl hne, fun hseq => absurd (hturn.symm.trans hseq) nofun⟩

/-! ### How a micro-operation of a run goes on or ends the run (R220, R222, R270) -/

/-- What a micro-operation can do to a run: go on with STATUS as it was, end it by FAIL in the configuration it had,
or end it by FINISH. -/
inductive RunOutcome (s : State) : State → Prop where
  | goesOn {t : State} (hphase : t.phase ≠ .idle) (hstatus : t.status = s.status) : RunOutcome s t
  | fails (e : ErrorKind) (info : Nat) (u : State) (hcfg : u.cfg = s.cfg) : RunOutcome s (fail e info u)
  | finishes {t : State} (hdone : t.status.done = true) (herr : t.status.err = false) : RunOutcome s t

section
variable {s : State}

theorem runOutcome_storeSeq {a : Nat} {bs : List Byte} {k : State → Result}
    (hk : ∀ m, Answers (RunOutcome s) (k { s with mem := m })) :
    Answers (RunOutcome s) (storeSeq a bs s k) := by
  obtain ⟨heq, -⟩ | ⟨_, -, heq, -⟩ := storeSeq_cases a bs s k <;> rw [heq]
  · exact hk _
  · exact answers_next.2 (.fails _ _ _ rfl)

theorem runOutcome_checkRun (s : State) : Answers (RunOutcome s) (checkRun s) := by
  obtain ⟨-, heq⟩ | ⟨f, -, ⟨-, heq⟩ | ⟨-, -, heq⟩ | ⟨-, -, heq⟩⟩ := checkRun_cases s <;>
    rw [heq, answers_next]
  · exact .fails _ _ _ rfl
  · exact .fails _ _ _ rfl
  · exact .fails _ _ _ rfl
  · exact .goesOn nofun rfl

theorem runOutcome_fetchLine (s : State) : Answers (RunOutcome s) (fetchLine s) := by
  refine answers_held fun _ => answers_held fun _ => answers_held fun _ => ?_
  dsimp only
  split
  · exact answers_next.2 (.fails _ _ _ rfl)
  · exact answers_next.2 (.goesOn nofun rfl)

theorem runOutcome_emitBytes (bytes : List Byte) (need n : Nat) (d : Word) (x : BitVec 16) (s : State) :
    Answers (RunOutcome s) (emitBytes bytes need n d x s) := by
  obtain ⟨-, heq⟩ | ⟨-, heq⟩ := emitBytes_cases bytes need n d x s <;> rw [heq]
  · exact answers_next.2 (.fails _ _ _ rfl)
  · exact runOutcome_storeSeq fun _ => answers_next.2 (.goesOn (phaseAfter_ne_idle _ _) rfl)

theorem runOutcome_chosenPacket {i : Instr} (hp : s.phase = .emit) (hc : chosenPacket s = .ok i) :
    Answers (RunOutcome s) (exec i s) := by
  obtain ⟨g, x, hg, hx, -⟩ := chosenPacket_ok hc
  obtain ⟨n, -, -, ⟨v, heq⟩ | ⟨vs, heq⟩⟩ := exec_chosen_cases hp hc hg hx <;> rw [heq] <;>
    exact answers_held fun _ => answers_held fun _ => runOutcome_emitBytes _ _ _ _ _ s

theorem runOutcome_sequencerTurn (hp : s.phase ≠ .idle) : Answers (RunOutcome s) (sequencerTurn s) := by
  unfold sequencerTurn
  cases hphase : s.phase with
  | idle => exact absurd hphase hp
  | check => exact runOutcome_checkRun s
  | rowBegin =>
    exact answers_held fun _ => answers_held fun _ => answers_held fun _ =>
      runOutcome_storeSeq fun _ => answers_next.2 (.goesOn nofun rfl)
  | fetch => exact runOutcome_fetchLine s
  | emit =>
    cases hc : chosenPacket s with
    | ok i => exact runOutcome_chosenPacket hphase hc
    | error l => exact answers_fault _
  | rowEnd =>
    exact answers_held fun _ => answers_held fun _ => answers_held fun _ => answers_held fun _ =>
      answers_held fun _ => runOutcome_storeSeq fun _ =>
        answers_next.2 (.goesOn (advance_ne_idle _ _ _ _) (advance_status ..))
  | finish => exact answers_held fun _ => answers_next.2 (.finishes rfl rfl)

end

/-- Settles O24: the host at most clears STATUS, reset does, and of the sequencer's outcomes only FAIL raises an error. -/
theorem errorsOnlyFromRun : Obligations.ErrorsOnlyFromRun := by
  intro s t hstep hs ht
  have hchanged : t.status ≠ s.status := fun h => by
    rw [h, hs] at ht
    cases ht
  obtain ⟨-, heq⟩ | ⟨hturn, heq⟩ | ⟨-, heq⟩ := step_cases s <;> rw [heq] at hstep
  · obtain hstatus | hstatus := (hostControls_hostTurn _ t hstep).status
    · exact absurd hstatus hchanged
    · rw [hstatus] at ht
      cases ht
  · have hbusy : s.phase ≠ .idle := fun hidle => by
      cases (sequencerTurn_idle (s := tick s) hidle).symm.trans hstep
      exact hchanged rfl
    cases runOutcome_sequencerTurn (s := tick s) hbusy t hstep with
    | goesOn _ hstatus => exact absurd hstatus hchanged
    | fails => exact ⟨hturn, hbusy, rfl, rfl⟩
    | finishes _ herr => exact absurd (herr.symm.trans ht) nofun
  · cases hstep
    cases ht

/-! ### The interrupt output (R275) -/

section
variable {s : State}

theorem irq_of_no_result (hdone : s.status.done = false) (herr : s.status.err = false) : irq s = false := by
  rw [irq, hdone, herr, Bool.or_self, Bool.and_false]

theorem irq_of_result (h : s.status.done = true ∨ s.status.err = true) : irq s = s.cfg.intEn := by
  rw [irq, (Bool.or_eq_true_iff ..).2 h, Bool.and_true]

theorem irq_of_disabled (h : s.cfg.intEn = false) : irq s = false := by
  rw [irq, h, Bool.false_and]

end

/-- Settles O25: a run ends with DONE or ERR in the configuration it had, and CLEAR and START leave neither. -/
theorem interruptLevel : Obligations.InterruptLevel := by
  intro s t hinv
  refine ⟨fun hb => ?_, fun hb hturn hstep hidle => ?_, fun hb => ⟨fun h => ?_, fun c h => ?_, fun h => ?_⟩⟩
  · obtain ⟨hdone, herr⟩ := hinv.status.busy_clear hb
    exact irq_of_no_result hdone herr
  · rw [step_sequencer hturn] at hstep
    have hrun : RunStep (tick s) t := runStep_sequencerTurn (s := tick s) hb t hstep
    exact (irq_of_result (hrun.result ((busy_eq_false_iff t).1 hidle))).trans
      (congrArg ConfigRegs.intEn hrun.config)
  · cases (execCmdClear_of_idle hb).symm.trans h
    exact irq_of_no_result rfl rfl
  · obtain ⟨hbusy, -⟩ | ⟨-, -, heq⟩ | ⟨-, -, heq⟩ := execCmdStart_cases c s
    · exact absurd (hb.symm.trans hbusy) nofun
    · cases heq.symm.trans h
    · cases heq.symm.trans h
      exact irq_of_no_result rfl rfl
  · cases (execRegWrite_of_idle (r := .intEn) (v := 0) nofun hb).symm.trans h
    exact ⟨irq_of_disabled rfl, rfl⟩

/-! ### The output after a run that was not finished (R270, R292) -/

/-- A byte that the newest marks make any value to the host. -/
theorem hostByte_of_freeSpan {s : State} {a : Nat} (h : isFree s.world.spans a = true) :
    hostByte s a = Config.freeByte s.world.fresh a := by
  obtain ⟨-, heq⟩ | ⟨-, -, hspans, -⟩ := hostByte_cases s a
  · exact heq
  · exact absurd (hspans.symm.trans h) nofun

/-- A state that has just voided the output of the configuration shows any value in it. -/
theorem hostByte_of_voided {s : State} {c : ConfigRegs} {w : World} {a : Nat}
    (h : s.world.spans = (voidOutput c w).spans) (ha : inOutput c a = true) :
    hostByte s a = Config.freeByte s.world.fresh a :=
  hostByte_of_freeSpan (h ▸ isFree_cons_of_covers ha)

theorem resetBlock_spans_of_busy {s : State} (hb : busy s = true) :
    (resetBlock s).world.spans = (voidOutput s.cfg s.world).spans := by
  rw [resetBlock_world, if_pos hb]

/-- Settles O49: only FAIL and reset end a run without DONE, and both void the output. -/
theorem outputFreeAfterAbort : Obligations.OutputFreeAfterAbort := by
  intro s t a hstep hb hidle hdone hlo hhi
  have hout : inOutput s.cfg a = true := (inOutput_iff _ _).2 ⟨hlo, hhi⟩
  have hphase : t.phase = .idle := (busy_eq_false_iff t).1 hidle
  have hbusy : s.phase ≠ .idle := (busy_eq_true_iff s).1 hb
  obtain ⟨-, heq⟩ | ⟨-, heq⟩ | ⟨-, heq⟩ := step_cases s <;> rw [heq] at hstep
  · have hblock : SameBlock (tick s) t := sameBlock_hostTurn (s := tick s) hb t hstep
    exact absurd (hblock.phase.symm.trans hphase) hbusy
  · cases runOutcome_sequencerTurn (s := tick s) hbusy t hstep with
    | goesOn hgoes => exact absurd hphase hgoes
    | fails e info u hcfg => exact hostByte_of_voided (c := u.cfg) (w := u.world) rfl (hcfg ▸ hout)
    | finishes hfinished => exact absurd (hdone.symm.trans hfinished) nofun
  · cases hstep
    exact hostByte_of_voided (resetBlock_spans_of_busy (s := tick s) hb) hout

end Sys2Proof.Machine
end

section
/-! PROOF. The sequencer's turn in a legal state answers a next state (R151, R290). -/

namespace Sys2Proof.Machine

/-- Settles O54: in IDLE the turn changes nothing, and `endsWithin_sequencerTurn` takes every phase of a legal run to a
next state. -/
theorem sequencerNeverStops : Obligations.SequencerNeverStops := by
  intro s h hturn
  rw [step_sequencer hturn]
  by_cases hp : (tick s).phase = .idle
  · exact ⟨_, sequencerTurn_idle hp⟩
  · obtain ⟨t, hnext, -⟩ := endsWithin_sequencerTurn h.tick (.of_busy hp (Nat.le_succ _))
    exact ⟨t, hnext⟩

end Sys2Proof.Machine
end

section
/-! PROOF. The reset input (R290-R292): what memory it leaves, and that the write it abandons lies in the output. -/

namespace Sys2Proof.Machine

/-! ### Memory after reset (R290, R292) -/

theorem wf_memoryAfterAbandon {s : State} (h : Memory.wf s.mem) : Memory.wf (memoryAfterAbandon s) := by
  unfold memoryAfterAbandon
  split
  · exact h
  · exact wf_memWriteSeq h

theorem memoryAfterReset_of_busy {s : State} (hb : busy s = true) :
    memoryAfterReset s = memoryAfterRun { s with mem := memoryAfterAbandon s } :=
  if_pos hb

/-- Where the reset neither abandons a write to the address nor leaves a run that the host disturbed with the address
in its output, the byte stays. -/
theorem read_memoryAfterReset {s : State} {a : Nat} (hw : Memory.wf s.mem)
    (hpending : ∀ b bs, pendingWrite s = some (b, bs) → ¬ (b ≤ a ∧ a < b + bs.length))
    (hkept : s.world.disturbed = false ∨ inOutput s.cfg a = false) :
    Memory.read (memoryAfterReset s) a = Memory.read s.mem a := by
  cases hb : busy s with
  | false => rw [memoryAfterReset_of_idle hb]
  | true =>
    rw [memoryAfterReset_of_busy hb, read_memoryAfterRun (wf_memoryAfterAbandon hw), if_neg]
    · exact read_memoryAfterAbandon hw hpending
    · rintro ⟨⟨hdisturbed, -⟩, hout, -⟩
      obtain hkept | hkept := hkept
      · exact absurd (hkept.symm.trans hdisturbed) nofun
      · exact absurd (hkept.symm.trans hout) nofun

/-! ### The abandoned write lies in the output (R60, R64, R292) -/

section
variable {s : State}

/-- The cursor of a scanline's packets is past the header (R62, R211). -/
theorem EmitLegal.header_le {f : PixelFormat} {x : BitVec 16} {r d : Word} {i : Nat}
    (h : EmitLegal s f x r d) (hline : LineLegal s f i r) : 512 ≤ d.toNat := by
  have hfloor := hline.floor
  have hleast := h.least
  have hstart := dataStart_eq f.depth s.cfg.height.toNat
  rw [lineFloor] at hfloor
  split at hleast
  · subst hleast
    omega
  · omega

/-- The packet of EMIT is pending only where there is room for it (R172). -/
theorem pendingWrite_emit {b : Nat} {bs : List Byte} {d : Word} (hp : s.phase = .emit) (hd : s.dcur = some d)
    (h : pendingWrite s = some (b, bs)) :
    b = outAddr s.cfg d.toNat ∧ exhausted s.cfg.outCap.toNat d.toNat bs.length = false ∧
      ∃ i, chosenPacket s = .ok i ∧ bs = encode i := by
  cases hc : chosenPacket s with
  | error l => simp [pendingWrite, hp, hd, hc] at h
  | ok i =>
    cases hroom : exhausted s.cfg.outCap.toNat d.toNat (encode i).length with
    | true => simp [pendingWrite, hp, hd, hc, hroom] at h
    | false =>
      simp only [pendingWrite, hp, hd, hc, hroom] at h
      cases h
      exact ⟨rfl, hroom, i, rfl, rfl⟩

/-- In a legal state the pending write lies past the header and below the capacity: an entry of a table, or a packet
with room for it. -/
theorem Inv.pendingWrite_bounds (h : Inv s) {b : Nat} {bs : List Byte} (hw : pendingWrite s = some (b, bs)) :
    ∃ o, b = outAddr s.cfg o ∧ 512 ≤ o ∧ o + bs.length ≤ s.cfg.outCap.toNat := by
  cases hp : s.phase with
  | idle | check | fetch | finish => simp [pendingWrite, hp] at hw
  | rowBegin =>
    obtain ⟨f, z, y, d, hf, -⟩ := h.run.frame (by simp [hp]) (by simp [hp])
    obtain ⟨-, hentry, -⟩ := hf.entries
    simp only [pendingWrite, hp, hf.z_held, hf.y_held, hf.dcur_held] at hw
    cases hw
    exact ⟨_, rfl, Nat.le_add_right _ _, hentry⟩
  | emit =>
    obtain ⟨f, z, y, d, hf, hl⟩ := h.run.frame (by simp [hp]) (by simp [hp])
    obtain ⟨r, x, hline, hemit⟩ := (phaseLegal_emit hp).1 hl
    obtain ⟨hb, hroom, i, hc, hbs⟩ := pendingWrite_emit hp hf.dcur_held hw
    refine ⟨_, hb, hemit.header_le hline, ?_⟩
    have hpos : 1 ≤ bs.length := by
      obtain ⟨g, x', -, -, hpacket⟩ := chosenPacket_ok hc
      have hlen := (packetAt_length_bounds hpacket).1
      have hwidth := (elementBytes_pos g.width).1
      rw [hbs]
      omega
    rw [exhausted, decide_eq_false_iff_not] at hroom
    omega
  | rowEnd =>
    obtain ⟨f, z, y, d, hf, hl⟩ := h.run.frame (by simp [hp]) (by simp [hp])
    obtain ⟨-, r, hline, -⟩ := (phaseLegal_rowEnd hp).1 hl
    obtain ⟨-, -, hentry⟩ := hf.entries
    simp only [pendingWrite, hp, hf.z_held, hf.y_held, hf.geometry, hf.dcur_held,
      hline.rstart_held] at hw
    cases hw
    exact ⟨_, rfl, (Nat.le_add_right _ _).trans (Nat.le_add_right _ _), hentry⟩

/-- A legal run that reset abandons has written no byte outside the output. -/
theorem Inv.onlyOutput_memoryAfterReset (h : Inv s) {a : Nat} (ha : inOutput s.cfg a = false) :
    Memory.read (memoryAfterReset s) a = Memory.read s.mem a := by
  refine read_memoryAfterReset h.memory (fun b bs hw hin => ?_) (.inr ha)
  obtain ⟨o, rfl, hlo, hhi⟩ := h.pendingWrite_bounds hw
  have hout : inOutput s.cfg a = true := by
    simp only [outAddr] at hin
    exact (inOutput_iff _ _).2 (by omega)
  exact absurd (ha.symm.trans hout) nofun

end

/-- Settles O45: the registers by `resetBlock`'s own fields, memory by what a reset leaves of a run. -/
theorem resetRestoresRegisters : Obligations.ResetRestoresRegisters := by
  intro s hturn
  refine ⟨memoryAfterReset (tick s), (resetBlock (tick s)).world, step_reset hturn, fun hb => ?_,
    fun hd hw a ha => ?_, fun hinv a ha => ?_⟩
  · exact memoryAfterReset_of_idle (s := tick s) hb
  · exact read_memoryAfterReset (s := tick s) hw ha (.inl hd)
  · refine hinv.tick.onlyOutput_memoryAfterReset ?_
    rw [← Bool.not_eq_true, inOutput_iff]
    exact ha

end Sys2Proof.Machine
end
